-- ==== Sys2Proof/Word.lean ====
section
/-! DEFINITION. The values the router moves: masks, payloads, position tags and flits
(00_scope.md R11, 30_encoding.md R70, R73), and the shape of an array indexed twice. -/

namespace Sys2Proof

/-- A bit vector over `n` things whose width is a parameter of the router; bit `i` is
`Nat.testBit m i`, and a mask over egress ports has bit `k` for port `k` (R10). Its value is
below `2 ^ n` in every state of `InBounds` (Safety.lean). -/
abbrev Mask := Nat

/-- The `W`-bit payload of a flit (R70): a number below `2 ^ W`, bit 0 least significant. -/
abbrev Payload := Nat

/-- The position tag of a flit (R73). -/
inductive Pos where
  | body
  | tail
  | head
  | sngl
deriving DecidableEq, Repr, Inhabited

/-- A flit: "a record of three fields" (R70). -/
structure Flit where
  pos : Pos
  vc : Nat
  payload : Payload
deriving DecidableEq, Repr, Inhabited

/-- An array with two indices, such as `q[p][v]`: the list of its rows. -/
abbrev Grid (α : Type) := List (List α)

end Sys2Proof
end

