-- ==== Sys2Proof/Config.lean ====
section
/-! DEFINITION. What an instance of the router fixes (00_scope.md R6 to R9), and the values the
spec leaves to the environment of the router: free constants, about which nothing can be proved. -/

namespace Sys2Proof

/-- The routing policy with the parameters that exist under it alone: `MODE = SR` with max-hops
`H` (R7), `MODE = LUT` with the sizes of its two tables (R8). -/
inductive Mode where
  | sr (H : Nat)
  | lut (NLD NRD : Nat)
deriving DecidableEq, Repr, Inhabited

/-- The structural parameters of R6. `tableRule`, read in `MODE = LUT` only: `none` is the default
`TableWellFormed`, the constant true; `some n` is an arbitrary predicate, `Config.tableWellFormed n`. -/
structure Params where
  NL : Nat
  NR : Nat
  V : Nat
  B : Nat
  W : Nat
  mode : Mode
  E : Nat
  rwForbidden : Bool
  tableRule : Option Nat
deriving DecidableEq, Repr, Inhabited

/-- The configuration values of R9: `my_id`, `LUT_L` and `LUT_R`. -/
structure Cfg where
  myId : Nat
  lutL : List Mask
  lutR : List Mask
deriving DecidableEq, Repr, Inhabited

/-- The flit offered on ingress port `p` of router instance `i` in environment draw `n`
(46_router_tick.md R191: "a draw per tick"). FREE VALUE, log entry 2. -/
opaque Config.inFlit (i n p : Nat) : Option Flit

/-- The credit message offered for egress port `k`, VC `v`, of instance `i` in draw `n` (R191). FREE
VALUE, log entry 2. -/
opaque Config.inCredit (i n k v : Nat) : Option (BitVec 1)

/-- Whether a send on egress port `k` of instance `i` would succeed in draw `n` (R191). FREE VALUE,
log entry 2. -/
opaque Config.outReady (i n k : Nat) : Bool

/-- Whether a credit send upstream for `(p, v)` of instance `i` would succeed in draw `n` (R191). FREE
VALUE, log entry 2. -/
opaque Config.creditReady (i n p v : Nat) : Bool

/-- Whether RESET is applied to instance `i` before the tick of draw `n` (70_reset_and_hazards.md
R231). FREE VALUE, log entry 3. -/
opaque Config.resetApplied (i n : Nat) : Bool

/-- What the configuration inputs of instance `i` present in draw `n` (10_state.md R41: they may
change at any time and are sampled by RESET alone). FREE VALUE, log entry 3. -/
opaque Config.cfgIn (i n : Nat) : Cfg

/-- The open predicate `TableWellFormed` (R6, 60_exceptions.md R208), number `n` of an arbitrary
family. FREE VALUE, log entry 12. -/
opaque Config.tableWellFormed (n : Nat) (cfg : Cfg) : Bool

end Sys2Proof
end

