-- ==== Sys2Proof/Machine/Bits.lean ====
section
/-! DEFINITION. The bit-field helpers of 00_scope.md R10 and R12, and reading, writing and
building the arrays of the state. -/

namespace Sys2Proof

/-- `clog2(n)`: "the least w >= 0 with 2^w >= n" (R12). -/
def clog2 (n : Nat) : Nat :=
  ((List.range n).find? fun w => decide (n ≤ 2 ^ w)).getD 0

/-- `iw(n) = max(1, clog2(n))`, the width of an index into `n` things (R12). -/
def iw (n : Nat) : Nat := max 1 (clog2 n)

/-- `onehot_n(i)`: only bit `i`, and 0 when `i >= n` (R12). -/
def onehot (n i : Nat) : Mask := if i < n then 2 ^ i else 0

/-- `v[lo + w - 1 : lo]`, the `w` bits of `v` from bit `lo` up (R10). -/
def field (v lo w : Nat) : Nat := (v >>> lo) % 2 ^ w

/-- `{hi, lo}`, with `lo` of `w` bits in the less significant position (R10). -/
def concat (hi lo w : Nat) : Nat := 2 ^ w * hi + lo % 2 ^ w

/-- The `n`-bit mask whose bit `i` is `f i`. -/
def maskOf : (n : Nat) → (f : Nat → Bool) → Mask
  | 0, _ => 0
  | n + 1, f => concat (f n).toNat (maskOf n f) n

/-- The number of set bits among the low `n` (R12, `popcount`). -/
def popcount (n : Nat) (m : Mask) : Nat := (List.range n).countP m.testBit

/-- The bitwise OR over the indices `j < n` that `sel` names (R12, `OR_(j in S) f(j)`). -/
def orOver : (n : Nat) → (sel : Nat → Bool) → (f : Nat → Mask) → Mask
  | 0, _, _ => 0
  | n + 1, sel, f => orOver n sel f ||| (if sel n then f n else 0)

/-- The array `f 0, .., f (n - 1)`. -/
def tab {α : Type} (n : Nat) (f : Nat → α) : List α := (List.range n).map f

/-- The array with entry `f i j` at row `i < n`, column `j < m`. -/
def tab2 {α : Type} (n m : Nat) (f : Nat → Nat → α) : Grid α := tab n fun i => tab m (f i)

/-- Entry `i` of an array, `d` outside it. -/
def entry {α : Type} (d : α) (l : List α) (i : Nat) : α := l.getD i d

/-- Entry `(i, j)` of an array, `d` outside it. -/
def cell {α : Type} (d : α) (g : Grid α) (i j : Nat) : α := entry d (entry [] g i) j

/-- The array with entry `(i, j)` replaced. -/
def setCell {α : Type} (g : Grid α) (i j : Nat) (x : α) : Grid α :=
  g.set i ((entry [] g i).set j x)

/-- The first answer of `f 0, .., f (n - 1)` (60_exceptions.md R210: ascending index). -/
def firstOf {β : Type} (n : Nat) (f : Nat → Option β) : Option β := (List.range n).findSome? f

/-- The first answer of `f i j` over `i < n`, `j < m`, in ascending `i` and then `j`. -/
def firstOf2 {β : Type} (n m : Nat) (f : Nat → Nat → Option β) : Option β :=
  firstOf n fun i => firstOf m (f i)

/-- `f i` for all `i < n`. -/
def allBelow (n : Nat) (f : Nat → Bool) : Bool := (List.range n).all f

/-- `f i` for some `i < n`. -/
def anyBelow (n : Nat) (f : Nat → Bool) : Bool := (List.range n).any f

end Sys2Proof
end

