-- ==== Sys2Proof/Machine/Widths.lean ====
section
/-! DEFINITION. The derived widths of the parameters and the constraints on them (00_scope.md R6 to
R8), and the four reference configurations of 95_test_vectors.md section 1. -/

namespace Sys2Proof

/-- `N = NL + NR` (R6). -/
def Params.N (par : Params) : Nat := par.NL + par.NR

/-- `VCW = iw(V)`, the width of a flit's VC field (R6, R72). -/
def Params.VCW (par : Params) : Nat := iw par.V

/-- `CW = clog2(B+1)`, the width of a credit counter (R6). -/
def Params.CW (par : Params) : Nat := clog2 (par.B + 1)

/-- `PW = iw(N)`, the width of a port index (R6). -/
def Params.PW (par : Params) : Nat := iw par.N

/-- `FW = 2 + VCW + W`, the width of a flit word (R71). -/
def Params.FW (par : Params) : Nat := 2 + par.VCW + par.W

/-- `MODE = LUT`. -/
def Params.isLut (par : Params) : Bool :=
  match par.mode with
  | .sr _ => false
  | .lut _ _ => true

/-- `H`, the descriptors of a source-routing header (R7); 0 where `MODE` is not SR. -/
def Params.H (par : Params) : Nat :=
  match par.mode with
  | .sr h => h
  | .lut _ _ => 0

/-- `RSELW = iw(NR)`, the width of the remote-port selector (R7). -/
def Params.RSELW (par : Params) : Nat := iw par.NR

/-- `DW = NL + RSELW`, the width of one descriptor (R7). -/
def Params.DW (par : Params) : Nat := par.NL + par.RSELW

/-- `RW = H * DW`, the width of the route field (R7). -/
def Params.RW (par : Params) : Nat := par.H * par.DW

/-- `NLD`, the entries of the local-tier table (R8); 0 where `MODE` is not LUT. -/
def Params.NLD (par : Params) : Nat :=
  match par.mode with
  | .sr _ => 0
  | .lut nld _ => nld

/-- `NRD`, the entries of the remote-tier table (R8); 0 where `MODE` is not LUT. -/
def Params.NRD (par : Params) : Nat :=
  match par.mode with
  | .sr _ => 0
  | .lut _ nrd => nrd

/-- `LIDW = iw(NLD)` (R8). -/
def Params.LIDW (par : Params) : Nat := iw par.NLD

/-- `RIDW = iw(NRD)` (R8). -/
def Params.RIDW (par : Params) : Nat := iw par.NRD

/-- `MF = max(LIDW + RIDW, NLD + NRD)`, the bit of the multicast flag (R8, R78). -/
def Params.MF (par : Params) : Nat := max (par.LIDW + par.RIDW) (par.NLD + par.NRD)

/-- The structural constraints of R6, R7 and R8. `B` is free: `B = 0` is the fault F6 at reset,
not a router that cannot be built (93_implementation_defined.md U21). -/
def Params.ok (par : Params) : Bool :=
  decide (1 ≤ par.N) && decide (1 ≤ par.V) && decide (1 ≤ par.W) && decide (1 ≤ par.E) &&
  match par.mode with
  | .sr h => decide (1 ≤ par.NL) && decide (1 ≤ par.NR) && decide (1 ≤ h) && decide (par.RW ≤ par.W)
  | .lut nld nrd => decide (1 ≤ nld) && decide (1 ≤ nrd) && decide (par.MF + 1 ≤ par.W)

/-- `CFG_A` of 95_test_vectors.md section 1. -/
def Params.cfgA : Params :=
  { NL := 2, NR := 2, V := 2, B := 4, W := 16, mode := .sr 4, E := 1, rwForbidden := false,
    tableRule := none }

/-- `CFG_B` of 95_test_vectors.md section 1. -/
def Params.cfgB : Params :=
  { NL := 2, NR := 2, V := 1, B := 4, W := 16, mode := .lut 4 4, E := 1, rwForbidden := false,
    tableRule := none }

/-- `CFG_C` of 95_test_vectors.md section 1. -/
def Params.cfgC : Params :=
  { NL := 1, NR := 3, V := 1, B := 2, W := 12, mode := .sr 4, E := 1, rwForbidden := false,
    tableRule := none }

/-- `CFG_D` of 95_test_vectors.md section 1. -/
def Params.cfgD : Params :=
  { NL := 2, NR := 2, V := 1, B := 4, W := 16, mode := .lut 3 3, E := 1, rwForbidden := false,
    tableRule := none }

/-- The configuration inputs of `CFG_B`. -/
def Cfg.inB : Cfg :=
  { myId := 1, lutL := [0b0001, 0b0010, 0b0100, 0b0100], lutR := [0b0100, 0b0000, 0b1000, 0b1000] }

/-- The configuration inputs of `CFG_D`. -/
def Cfg.inD : Cfg :=
  { myId := 0, lutL := [0b0001, 0b0010, 0b0011], lutR := [0b0000, 0b0100, 0b1000] }

end Sys2Proof
end

