-- ==== Sys2Proof/Syntax.lean ====
section
/-! DEFINITION. The operations and messages of the hardware: one constructor of `Instr` for each row
of spec/opcode_table.json (30_encoding.md R84, R85). -/

namespace Sys2Proof

/-- An arbiter of the router (40_priority_arbiter.md R105): the output arbiter of egress port `k`,
or the VC arbiter of ingress port `p`. -/
inductive ArbId where
  | out (k : Nat)
  | vc (p : Nat)
deriving DecidableEq, Repr, Inhabited

/-- The four route operations the decode key of R84 selects among. -/
inductive RouteOp where
  | sr
  | ucast
  | mcast
  | hold
deriving DecidableEq, Repr, Inhabited

/-- The operations and messages. Operands: `p`, `i` an ingress port, `k` an egress port, `v` a
virtual channel (00_scope.md R15). An operation that the spec's pseudocode writes as a loop over
all ports takes no operand. -/
inductive Instr where
  | routeSr (p : Nat)
  | routeLutUcast (p : Nat)
  | routeLutMcast (p : Nat)
  | routeHold (p : Nat)
  | flitBody (p vc : Nat) (payload : Payload)
  | flitTail (p vc : Nat) (payload : Payload)
  | flitHead (p vc : Nat) (payload : Payload)
  | flitSngl (p vc : Nat) (payload : Payload)
  | creditMsg (k v : Nat) (amount : BitVec 1)
  | reset
  | tick
  | creditRx
  | ingressRx
  | vcSelect
  | peek
  | reqBuild
  | mcastWithdraw
  | outArb
  | mcastForce
  | grantFinal
  | grantCommit
  | creditDec (k v : Nat)
  | creditOwe (i v : Nat)
  | xbar
  | hdrRewriteLut (i k : Nat)
  | egressTx
  | creditTx
  | arbPick (a : ArbId) (valid : Mask)
deriving DecidableEq, Repr, Inhabited

end Sys2Proof
end

