-- ==== Sys2Proof/WellFormed.lean ====
section
/-! DEFINITION. When an operation or message is one of the router's: its port and VC numbers name
something, and its values fit the widths of the spec's formats. -/

namespace Sys2Proof

/-- An arbiter that exists, and a request vector of its width (40_priority_arbiter.md R100, R105). -/
def ArbId.wellFormed (par : Params) (a : ArbId) (valid : Mask) : Bool :=
  match a with
  | .out k => decide (k < par.N) && decide (valid < 2 ^ par.N)
  | .vc p => decide (p < par.N) && decide (valid < 2 ^ par.V)

/-- A flit of the router's format on an ingress port (30_encoding.md R70 to R72): the VC field has
`VCW` bits and may name no queue (`vc >= V` is legal here and faults at INGRESS.RX). -/
def flitFits (par : Params) (p vc : Nat) (payload : Payload) : Bool :=
  decide (p < par.N) && decide (vc < 2 ^ par.VCW) && decide (payload < 2 ^ par.W)

/-- The operands name ports, VCs and values of a router with parameters `par`. -/
def Instr.wellFormed (par : Params) (i : Instr) : Bool :=
  match i with
  | .routeSr p => decide (p < par.N)
  | .routeLutUcast p => decide (p < par.N)
  | .routeLutMcast p => decide (p < par.N)
  | .routeHold p => decide (p < par.N)
  | .flitBody p vc payload => flitFits par p vc payload
  | .flitTail p vc payload => flitFits par p vc payload
  | .flitHead p vc payload => flitFits par p vc payload
  | .flitSngl p vc payload => flitFits par p vc payload
  | .creditMsg k v _ => decide (k < par.N) && decide (v < par.V)
  | .reset => true
  | .tick => true
  | .creditRx => true
  | .ingressRx => true
  | .vcSelect => true
  | .peek => true
  | .reqBuild => true
  | .mcastWithdraw => true
  | .outArb => true
  | .mcastForce => true
  | .grantFinal => true
  | .grantCommit => true
  | .creditDec k v => decide (k < par.N) && decide (v < par.V)
  | .creditOwe i v => decide (i < par.N) && decide (v < par.V)
  | .xbar => true
  | .hdrRewriteLut i k => decide (i < par.N) && decide (k < par.N)
  | .egressTx => true
  | .creditTx => true
  | .arbPick a valid => a.wellFormed par valid

end Sys2Proof
end

