-- ==== Sys2Proof/Decode.lean ====
section
/-! DEFINITION. From bits to operations and back: the flit word (30_encoding.md R71), the decode key
(R84), the credit message (R81), and the record that names one operation to the model. The record's
cells (its format number and operation number) are the model's own, log entry 4; the bits inside a
cell are the spec's. -/

namespace Sys2Proof

/-- The 2-bit code of a position tag (R73). -/
def Pos.code (t : Pos) : BitVec 2 :=
  match t with
  | .body => 0
  | .tail => 1
  | .head => 2
  | .sngl => 3

/-- The position tag of a 2-bit code (R73): "All four values are legal". -/
def Pos.ofCode (c : BitVec 2) : Pos :=
  if c = 0 then .body else if c = 1 then .tail else if c = 2 then .head else .sngl

/-- The flit word `{pos, vc, payload}` (R71). -/
def packFlit (par : Params) (f : Flit) : Nat :=
  concat (concat f.pos.code.toNat f.vc par.VCW) f.payload par.W

/-- The fields of an `FW`-bit flit word (R71). -/
def unpackFlit (par : Params) (w : Nat) : Flit :=
  { pos := Pos.ofCode (BitVec.ofNat 2 (field w (par.W + par.VCW) 2))
    vc := field w par.W par.VCW
    payload := field w 0 par.W }

/-- A row of the decode key's table (R84): a key `K` matches when `K & mask = pat`. -/
structure KeyRow where
  pat : BitVec 4
  mask : BitVec 4
  op : RouteOp
deriving DecidableEq, Repr

/-- The table of R84. -/
def keyTable : List KeyRow :=
  [ { pat := 0x4, mask := 0xC, op := .sr },
    { pat := 0xC, mask := 0xD, op := .ucast },
    { pat := 0xD, mask := 0xD, op := .mcast },
    { pat := 0x0, mask := 0x4, op := .hold } ]

/-- The route operation of a decode key (R84): that of the row it matches. -/
def keyOp (key : BitVec 4) : RouteOp :=
  match keyTable.find? fun row => key &&& row.mask == row.pat with
  | some row => row.op
  | none => .hold

/-- The key `{m, pos1, pos0, mf}` (R84). -/
def makeKey (m pos1 pos0 mf : Bool) : BitVec 4 :=
  BitVec.ofNat 4 (8 * m.toNat + 4 * pos1.toNat + 2 * pos0.toNat + mf.toNat)

/-- The cells of one operation record. -/
abbrev Cells := List Nat

/-- Why a record is no operation. -/
inductive DecodeError where
  /-- The record has no cells, or not as many as its format asks for. -/
  | badLength
  /-- The first cell is none of the four formats of spec/opcode_table.json. -/
  | unknownFormat (c : Nat)
  /-- A decode key of more than 4 bits. -/
  | keyTooWide (key : Nat)
  /-- A flit word of more than `FW` bits. -/
  | flitTooWide (w : Nat)
  /-- A credit message of more than 1 bit. -/
  | creditTooWide (m : Nat)
  /-- An operation number that no row has. -/
  | unknownOperation (n : Nat)
deriving DecidableEq, Repr

/-- The instruction of a route operation on ingress port `p`. -/
def RouteOp.instr (op : RouteOp) (p : Nat) : Instr :=
  match op with
  | .sr => .routeSr p
  | .ucast => .routeLutUcast p
  | .mcast => .routeLutMcast p
  | .hold => .routeHold p

/-- The message of a flit offered on ingress port `p`, by its position tag (R73). -/
def flitInstr (p : Nat) (f : Flit) : Instr :=
  match f.pos with
  | .body => .flitBody p f.vc f.payload
  | .tail => .flitTail p f.vc f.payload
  | .head => .flitHead p f.vc f.payload
  | .sngl => .flitSngl p f.vc f.payload

/-- The operations that "no bits" select (R85), numbered in the order of spec/opcode_table.json. -/
def decodeOperation (n : Nat) (args : List Nat) : Except DecodeError Instr :=
  match n, args with
  | 0, [] => .ok .reset
  | 1, [] => .ok .tick
  | 2, [] => .ok .creditRx
  | 3, [] => .ok .ingressRx
  | 4, [] => .ok .vcSelect
  | 5, [] => .ok .peek
  | 6, [] => .ok .reqBuild
  | 7, [] => .ok .mcastWithdraw
  | 8, [] => .ok .outArb
  | 9, [] => .ok .mcastForce
  | 10, [] => .ok .grantFinal
  | 11, [] => .ok .grantCommit
  | 12, [k, v] => .ok (.creditDec k v)
  | 13, [i, v] => .ok (.creditOwe i v)
  | 14, [] => .ok .xbar
  | 15, [i, k] => .ok (.hdrRewriteLut i k)
  | 16, [] => .ok .egressTx
  | 17, [] => .ok .creditTx
  | 18, [0, k, valid] => .ok (.arbPick (.out k) valid)
  | 18, [1, p, valid] => .ok (.arbPick (.vc p) valid)
  | n, _ => .error (if n ≤ 18 then .badLength else .unknownOperation n)

/-- The operation of a record, whose first cell is its format: 0 the decode key and a port, 1 a flit
word and the ingress port it is offered on, 2 a credit message, its egress port and VC, 3 an
operation number and its operands. -/
def decode (par : Params) (cells : Cells) : Except DecodeError Instr :=
  match cells with
  | [] => .error .badLength
  | 0 :: [key, p] =>
    if key < 16 then .ok ((keyOp (BitVec.ofNat 4 key)).instr p) else .error (.keyTooWide key)
  | 1 :: [w, p] =>
    if w < 2 ^ par.FW then .ok (flitInstr p (unpackFlit par w)) else .error (.flitTooWide w)
  | 2 :: [m, k, v] =>
    if m < 2 then .ok (.creditMsg k v (BitVec.ofNat 1 m)) else .error (.creditTooWide m)
  | 3 :: n :: args => decodeOperation n args
  | c :: _ => .error (if c ≤ 3 then .badLength else .unknownFormat c)

/-- The record of an instruction: the spec's encoding of it where it has one (R71, R81, R84; a
don't-care bit of the key is written 0, and `m` is the router's `MODE` for a HOLD), the operation's
number where it is selected by no bits. -/
def encode (par : Params) (i : Instr) : Cells :=
  match i with
  | .routeSr p => [0, (makeKey false true false false).toNat, p]
  | .routeLutUcast p => [0, (makeKey true true false false).toNat, p]
  | .routeLutMcast p => [0, (makeKey true true false true).toNat, p]
  | .routeHold p => [0, (makeKey par.isLut false false false).toNat, p]
  | .flitBody p vc payload => [1, packFlit par ⟨.body, vc, payload⟩, p]
  | .flitTail p vc payload => [1, packFlit par ⟨.tail, vc, payload⟩, p]
  | .flitHead p vc payload => [1, packFlit par ⟨.head, vc, payload⟩, p]
  | .flitSngl p vc payload => [1, packFlit par ⟨.sngl, vc, payload⟩, p]
  | .creditMsg k v amount => [2, amount.toNat, k, v]
  | .reset => [3, 0]
  | .tick => [3, 1]
  | .creditRx => [3, 2]
  | .ingressRx => [3, 3]
  | .vcSelect => [3, 4]
  | .peek => [3, 5]
  | .reqBuild => [3, 6]
  | .mcastWithdraw => [3, 7]
  | .outArb => [3, 8]
  | .mcastForce => [3, 9]
  | .grantFinal => [3, 10]
  | .grantCommit => [3, 11]
  | .creditDec k v => [3, 12, k, v]
  | .creditOwe i v => [3, 13, i, v]
  | .xbar => [3, 14]
  | .hdrRewriteLut i k => [3, 15, i, k]
  | .egressTx => [3, 16]
  | .creditTx => [3, 17]
  | .arbPick (.out k) valid => [3, 18, 0, k, valid]
  | .arbPick (.vc p) valid => [3, 18, 1, p, valid]

/-- The record of a bare word of spec/opcode_table.json, every bit and operand above it 0. The
table's words carry no format and those of two formats overlap, log entry 5: 0 to 3 are read as the
2-bit position tag of a flit word, 4 to 15 as the decode key. A single higher bit is read as the
bit that the table's field `phase` names, for the operation of that phase. -/
def tableCells (par : Params) (nbits w : Nat) : Cells :=
  if 2 ^ nbits ≤ w then []
  else if w < 4 then [1, concat (concat w 0 par.VCW) 0 par.W, 0]
  else if w < 16 then [0, w, 0]
  else if w = 2 ^ 4 then [3, 5]
  else if w = 2 ^ 6 then [3, 6]
  else if w = 2 ^ 7 then [3, 7]
  else if w = 2 ^ 8 then [3, 8]
  else if w = 2 ^ 9 then [3, 9]
  else if w = 2 ^ 10 then [3, 11]
  else if w = 2 ^ 11 then [3, 14]
  else if w = 2 ^ 12 then [3, 16]
  else if w = 2 ^ 13 then [3, 17]
  else []

/-- The instruction the decoder reads from a word of spec/opcode_table.json, in a router with the
reference parameters `CFG_A` (they fix the width of the flit word). -/
def decodeTableWord (nbits w : Nat) : Option Instr :=
  match decode Params.cfgA (tableCells Params.cfgA nbits w) with
  | .ok i => some i
  | .error _ => none

end Sys2Proof
end

