-- ==== Sys2Proof/Machine/Router.lean ====
section
/-! DEFINITION. The records the state is made of: the router's own state (10_state.md R20), the
values that live inside one tick (R31), the environment's record (46_router_tick.md R191), the
output record (R192), the fault record (60_exceptions.md R201), and the values all of them have
after reset (R46). -/

namespace Sys2Proof

namespace Machine

/-- The fault codes F1 to F10 (60_exceptions.md R201). -/
inductive Code where
  | queueOverflow
  | queueUnderflow
  | creditAvailOverflow
  | creditOwedOverflow
  | storageRwConflict
  | configZeroDepth
  | configBadTable
  | configBadIdentity
  | badVc
  | outDestUndefined
deriving DecidableEq, Repr, Inhabited

/-- The number `n` of a fault code `F<n>` (60_exceptions.md R201). -/
def Code.number (c : Code) : Nat :=
  match c with
  | .queueOverflow => 1
  | .queueUnderflow => 2
  | .creditAvailOverflow => 3
  | .creditOwedOverflow => 4
  | .storageRwConflict => 5
  | .configZeroDepth => 6
  | .configBadTable => 7
  | .configBadIdentity => 8
  | .badVc => 9
  | .outDestUndefined => 10

/-- A fault record `(code, info)` (10_state.md R30). -/
structure FaultRec where
  code : Code
  info : Nat
deriving DecidableEq, Repr, Inhabited

/-- The `RouterState` of 10_state.md R20. `isLocal` and `cfg` are read only when `MODE = LUT`;
`arbOut` and `arbVc` hold 0 for an arbiter of one requester, which the spec gives no pointer. -/
structure Router where
  /-- `q[p][v]`, oldest flit first (R21). -/
  q : Grid (List Flit)
  /-- `ca[k][v]`, credits available (R22). -/
  ca : Grid Nat
  /-- `co[p][v]`, credits owed (R23). -/
  co : Grid Nat
  /-- `out_dest[p][v]`, the destination mask (R24). -/
  outDest : Grid (Option Mask)
  /-- `is_local[p][v]` (R25). -/
  isLocal : Grid (Option Mask)
  /-- `igp[k][v]`, is_get_new_packet (R26). -/
  igp : Grid Bool
  /-- `arb_out[k].ptr` (R27). -/
  arbOut : List Nat
  /-- `arb_vc[p].ptr` (R28). -/
  arbVc : List Nat
  /-- `eq[k]`, the egress staging queue, oldest flit first (R29). -/
  eq : List (List Flit)
  /-- `fault` (R30). -/
  fault : Option FaultRec
  /-- `cfg.my_id`, `cfg.LUT_L`, `cfg.LUT_R` (R41 to R44). -/
  cfg : Cfg
deriving DecidableEq, Repr, Inhabited

/-- The output record of a tick (46_router_tick.md R192). -/
structure Out where
  flit : List (Option Flit)
  delivered : List Bool
  credit : Grid (Option (BitVec 1))
  inTaken : List Bool
  creditTaken : Grid Bool
deriving DecidableEq, Repr, Inhabited

/-- The environment record of a tick (46_router_tick.md R191). -/
structure Env where
  inFlit : List (Option Flit)
  inCredit : Grid (Option (BitVec 1))
  outReady : List Bool
  creditReady : Grid Bool
deriving DecidableEq, Repr, Inhabited

/-- The values that exist only inside one tick (10_state.md R31), with the results of the
operations that the spec writes as local variables: `claimed` of MCAST.FORCE, the pushes F5 asks
about (`pushed`), the flit copies of XBAR (`cp`), the result of a single ARB.PICK (`winner`), and
the output record being made. -/
structure TickVals where
  inValid : List Bool
  vc : List (Option Nat)
  f : List (Option Flit)
  fr : List (Option Flit)
  dm : List Mask
  req : Grid Bool
  ok : List Bool
  req2 : Grid Bool
  win : List Mask
  sel : List (Option Nat)
  claimed : List Bool
  full : List Bool
  grant : Grid Bool
  pushed : Grid Bool
  cp : List (Option Flit)
  winner : Mask
  out : Out
deriving DecidableEq, Repr, Inhabited

end Machine

/-- What the router holds after a fatal fault, its `fault` field apart: "unspecified and must not be
relied on" (60_exceptions.md R209, 93_implementation_defined.md U6). FREE VALUE, one for each router
instance `i` and draw number `n`, log entry 7. -/
opaque Config.afterFault (i n : Nat) : Machine.Router

namespace Machine

/-! ### Reading the router's arrays -/

/-- `q[p][v]`. -/
def Router.qAt (r : Router) (p v : Nat) : List Flit := cell [] r.q p v

/-- `ca[k][v]`. -/
def Router.caAt (r : Router) (k v : Nat) : Nat := cell 0 r.ca k v

/-- `co[p][v]`. -/
def Router.coAt (r : Router) (p v : Nat) : Nat := cell 0 r.co p v

/-- `out_dest[p][v]`. -/
def Router.outDestAt (r : Router) (p v : Nat) : Option Mask := cell none r.outDest p v

/-- `is_local[p][v]`. -/
def Router.isLocalAt (r : Router) (p v : Nat) : Option Mask := cell none r.isLocal p v

/-- `igp[k][v]`. -/
def Router.igpAt (r : Router) (k v : Nat) : Bool := cell true r.igp k v

/-- `arb_out[k].ptr`. -/
def Router.arbOutAt (r : Router) (k : Nat) : Nat := entry 0 r.arbOut k

/-- `arb_vc[p].ptr`. -/
def Router.arbVcAt (r : Router) (p : Nat) : Nat := entry 0 r.arbVc p

/-- `eq[k]`. -/
def Router.eqAt (r : Router) (k : Nat) : List Flit := entry [] r.eq k

/-! ### Reading the environment's and the tick's arrays -/

/-- `env.in_flit[p]`. -/
def Env.flitAt (e : Env) (p : Nat) : Option Flit := entry none e.inFlit p

/-- `env.in_credit[k][v]`. -/
def Env.creditAt (e : Env) (k v : Nat) : Option (BitVec 1) := cell none e.inCredit k v

/-- `env.out_ready[k]`. -/
def Env.readyAt (e : Env) (k : Nat) : Bool := entry true e.outReady k

/-- `env.credit_ready[p][v]`. -/
def Env.creditReadyAt (e : Env) (p v : Nat) : Bool := cell true e.creditReady p v

/-- `vc[p]` where `in_valid[p]`, and nothing otherwise: `vc[p]` is "not defined" for a port with no
valid flit (45_ingress_vcselect.md R183). -/
def TickVals.vcAt (t : TickVals) (p : Nat) : Option Nat :=
  if entry false t.inValid p then entry none t.vc p else none

/-- `f[p]`. -/
def TickVals.fAt (t : TickVals) (p : Nat) : Option Flit := entry none t.f p

/-- `fr[p]`. -/
def TickVals.frAt (t : TickVals) (p : Nat) : Option Flit := entry none t.fr p

/-- `dm[p]`. -/
def TickVals.dmAt (t : TickVals) (p : Nat) : Mask := entry 0 t.dm p

/-- `req[i][k]`. -/
def TickVals.reqAt (t : TickVals) (i k : Nat) : Bool := cell false t.req i k

/-- `req2[i][k]`. -/
def TickVals.req2At (t : TickVals) (i k : Nat) : Bool := cell false t.req2 i k

/-- `win[k]`. -/
def TickVals.winAt (t : TickVals) (k : Nat) : Mask := entry 0 t.win k

/-- `sel[k]`. -/
def TickVals.selAt (t : TickVals) (k : Nat) : Option Nat := entry none t.sel k

/-- `full[i]`. -/
def TickVals.fullAt (t : TickVals) (i : Nat) : Bool := entry false t.full i

/-- `grant[i][k]`. -/
def TickVals.grantAt (t : TickVals) (i k : Nat) : Bool := cell false t.grant i k

/-- Whether INGRESS.RX pushed into `q[p][v]` in this tick (42_arbitration.md R139). -/
def TickVals.pushedAt (t : TickVals) (p v : Nat) : Bool := cell false t.pushed p v

/-! ### Values at reset, between ticks, and drawn -/

/-- An output record with nothing offered and nothing taken. -/
def Out.idle (par : Params) : Out :=
  { flit := tab par.N fun _ => none
    delivered := tab par.N fun _ => false
    credit := tab2 par.N par.V fun _ _ => none
    inTaken := tab par.N fun _ => false
    creditTaken := tab2 par.N par.V fun _ _ => false }

/-- The tick's values before its first phase: none of them is carried over (10_state.md R31). -/
def TickVals.idle (par : Params) : TickVals :=
  { inValid := tab par.N fun _ => false
    vc := tab par.N fun _ => none
    f := tab par.N fun _ => none
    fr := tab par.N fun _ => none
    dm := tab par.N fun _ => 0
    req := tab2 par.N par.N fun _ _ => false
    ok := tab par.N fun _ => false
    req2 := tab2 par.N par.N fun _ _ => false
    win := tab par.N fun _ => 0
    sel := tab par.N fun _ => none
    claimed := tab par.N fun _ => false
    full := tab par.N fun _ => false
    grant := tab2 par.N par.N fun _ _ => false
    pushed := tab2 par.N par.V fun _ _ => false
    cp := tab par.N fun _ => none
    winner := 0
    out := Out.idle par }

/-- The empty environment: nothing offered, everything ready (the default of 30_encoding.md R87). -/
def Env.idle (par : Params) : Env :=
  { inFlit := tab par.N fun _ => none
    inCredit := tab2 par.N par.V fun _ _ => none
    outReady := tab par.N fun _ => true
    creditReady := tab2 par.N par.V fun _ _ => true }

/-- A flit cut to the widths of the flit word (30_encoding.md R71). -/
def clipFlit (par : Params) (f : Flit) : Flit :=
  { pos := f.pos, vc := f.vc % 2 ^ par.VCW, payload := f.payload % 2 ^ par.W }

/-- The environment record of draw `n` of instance `i`: free in every field (46_router_tick.md
R191). -/
def Env.draw (par : Params) (i n : Nat) : Env :=
  { inFlit := tab par.N fun p => (Config.inFlit i n p).map (clipFlit par)
    inCredit := tab2 par.N par.V (Config.inCredit i n)
    outReady := tab par.N (Config.outReady i n)
    creditReady := tab2 par.N par.V (Config.creditReady i n) }

/-- The latches `cfg.*` loaded from the configuration inputs when reset ends (10_state.md R41 to
R44): `my_id` has `RIDW` bits, each table its size, each entry `N` bits. In `MODE = SR` there are no
configuration values (00_scope.md R9). -/
def latchCfg (par : Params) (c : Cfg) : Cfg :=
  if par.isLut then
    { myId := c.myId % 2 ^ par.RIDW
      lutL := tab par.NLD fun j => entry 0 c.lutL j % 2 ^ par.N
      lutR := tab par.NRD fun g => entry 0 c.lutR g % 2 ^ par.N }
  else { myId := 0, lutL := [], lutR := [] }

/-- `TableWellFormed(cfg)` (60_exceptions.md R208). -/
def tableRuleHolds (par : Params) (c : Cfg) : Bool :=
  match par.tableRule with
  | none => true
  | some n => Config.tableWellFormed n c

/-- The configuration fault RESET finds, in the order F6, F8, F7 (70_reset_and_hazards.md R230).
`TableWellFormed` is a parameter RESET checks in `MODE = LUT` only (00_scope.md R6; log entry 11). -/
def configFault (par : Params) (c : Cfg) : Option FaultRec :=
  if par.B = 0 then some ⟨.configZeroDepth, 0⟩
  else if par.isLut && decide (par.NRD ≤ c.myId) then some ⟨.configBadIdentity, c.myId⟩
  else if par.isLut && !tableRuleHolds par c then some ⟨.configBadTable, 0⟩
  else none

/-- The router after RESET with the configuration inputs `c` (10_state.md R46,
70_reset_and_hazards.md R230). With a configuration fault F6 to F8 the other fields hold these values
too, as the pseudocode of R230 assigns them: DEDUCED, log entry 25, against the reading of
60_exceptions.md R209 and 93_implementation_defined.md U6 that leaves them unspecified. -/
def Router.atReset (par : Params) (c : Cfg) : Router :=
  { q := tab2 par.N par.V fun _ _ => []
    ca := tab2 par.N par.V fun _ _ => par.B
    co := tab2 par.N par.V fun _ _ => 0
    outDest := tab2 par.N par.V fun _ _ => none
    isLocal := tab2 par.N par.V fun _ _ => none
    igp := tab2 par.N par.V fun _ _ => true
    arbOut := tab par.N fun _ => 0
    arbVc := tab par.N fun _ => 0
    eq := tab par.N fun _ => []
    fault := configFault par (latchCfg par c)
    cfg := latchCfg par c }

end Machine

end Sys2Proof
end

