-- ==== Sys2Proof/Machine/State.lean ====
section
/-! DEFINITION. The state of the model, the reasons a step stops, and the state after reset. -/

namespace Sys2Proof.Machine

/-- Everything the model holds between two steps. `par` is what the instance is built with, `r` is
the spec's `RouterState`, `tv` the values inside a tick; the rest is the router's surroundings:
what the peers and the configuration inputs present for the next tick, whether RESET is applied
before it, the output record of the last tick, which of several router instances this is and the
number of environment draws so far, and the operation record a driver asks for instead of a tick. -/
structure State where
  par : Params
  r : Router
  tv : TickVals
  env : Env
  rst : Bool
  cfgIn : Cfg
  out : Option Out
  inst : Nat
  draws : Nat
  sel : Option Cells
deriving DecidableEq, Repr, Inhabited

/-- The reason a step stops for good. -/
inductive Fault where
  /-- Raised by every operation of the router but RESET on a router whose `fault` is `some`: "no
  further tick is taken" (60_exceptions.md R209). Safe: the spec ends the run there. -/
  | aborted (code : Code) (info : Nat)
deriving DecidableEq, Repr

/-- The reasons a step has no meaning. -/
inductive Refusal where
  /-- Raised by an arm of `exec` whose instruction has no meaning yet; no arm is left. Safe. -/
  | notModelled (mnemonic : String)
  /-- Raised by a step and by RESET on parameters outside 00_scope.md R6 to R8: "such a router is
  not constructed" (93_implementation_defined.md U21). Safe. -/
  | notBuilt
  /-- Raised by a network of routers whose links break 46_router_tick.md R195 or
  70_reset_and_hazards.md R233 (d), a loop of channels without latency among them; no instruction
  raises it. Safe. -/
  | notTied
  /-- Raised by a step whose record is no operation. Safe. -/
  | undecodable (e : DecodeError)
  /-- Raised by an operation whose operands name no port, VC or value of the router. Safe. -/
  | illFormed
  /-- Raised by CREDIT.DEC, alone or in GRANT.COMMIT, on a counter that holds 0, which the guard of
  43_credit_flow.md R152 excludes; no tick reaches it (log entry 9). Safe. -/
  | creditDecAtZero (k v : Nat)
  /-- Raised by GRANT.COMMIT or XBAR for a granted input with no selected VC or no peeked flit,
  which in_valid excludes; no tick reaches it (log entry 9). Safe. -/
  | grantWithoutFlit (i : Nat)
  /-- Raised by XBAR for a push on a full staging queue, which REQ.BUILD's term (d) excludes; no tick
  reaches it (log entry 9). Safe. -/
  | stagingFull (k : Nat)
  /-- Raised by HDR.REWRITE.LUT, alone or in XBAR, while `is_local` is undefined; ROUTE.LUT.MCAST
  wrote it in the same tick, so no tick reaches it (log entry 9). Safe. -/
  | isLocalUndefined (i : Nat)
deriving DecidableEq, Repr

/-- The machine right after reset, as RESET leaves the router (10_state.md R46). The spec gives the
parameters no value: they are those of its reference configuration `CFG_A` (log entry 1). -/
def State.reset : State :=
  { par := Params.cfgA
    r := Router.atReset Params.cfgA { myId := 0, lutL := [], lutR := [] }
    tv := TickVals.idle Params.cfgA
    env := Env.idle Params.cfgA
    rst := false
    cfgIn := { myId := 0, lutL := [], lutR := [] }
    out := none
    inst := 0
    draws := 0
    sel := none }

end Sys2Proof.Machine
end

