-- ==== Sys2Proof/Machine/Operands.lean ====
section
/-! DEFINITION. The fields of a flit and of a header payload, written from 30_encoding.md R70 to
R80, the table read of 20_memory.md R56, and the linear index of R54. -/

namespace Sys2Proof.Machine

/-- `isHeader(f)`: HEAD or SNGL (R74). -/
def isHeader (f : Flit) : Bool :=
  match f.pos with
  | .body => false
  | .tail => false
  | .head => true
  | .sngl => true

/-- `isTerminal(f)`: TAIL or SNGL (R74). -/
def isTerminal (f : Flit) : Bool :=
  match f.pos with
  | .body => false
  | .tail => true
  | .head => false
  | .sngl => true

/-- `isContinuation(f)`: BODY or TAIL (R74). -/
def isContinuation (f : Flit) : Bool := !isHeader f

/-- The linear index `p*V + v` of a (port, VC) pair (R54). -/
def pairIndex (par : Params) (p v : Nat) : Nat := p * par.V + v

/-! ### The source-routing header (R76, R77) -/

/-- `route`, the low `RW` bits of the payload. -/
def routeField (par : Params) (x : Payload) : Nat := field x 0 par.RW

/-- The descriptor of the nearest hop, `route[DW-1:0]`. -/
def descriptor (par : Params) (route : Nat) : Nat := field route 0 par.DW

/-- `local`, the low `NL` bits of a descriptor. -/
def descLocal (par : Params) (d : Nat) : Mask := field d 0 par.NL

/-- `rsel`, the `RSELW` bits of a descriptor above `local`. -/
def descRsel (par : Params) (d : Nat) : Nat := field d par.NL par.RSELW

/-- The opaque bits `payload[W-1:RW]`. -/
def srOpaque (par : Params) (x : Payload) : Nat := field x par.RW (par.W - par.RW)

/-! ### The table-routing header (R78 to R80) -/

/-- `mflag`, bit `MF` of the payload. -/
def mflag (par : Params) (x : Payload) : Bool := x.testBit par.MF

/-- `lidx`, the tier-local index. -/
def lidx (par : Params) (x : Payload) : Nat := field x 0 par.LIDW

/-- `ridx`, the tier-remote index. -/
def ridx (par : Params) (x : Payload) : Nat := field x par.LIDW par.RIDW

/-- `lvec`, one bit per local-tier destination. -/
def lvec (par : Params) (x : Payload) : Nat := field x 0 par.NLD

/-- `gvec`, one bit per remote-tier group. -/
def gvec (par : Params) (x : Payload) : Nat := field x par.NLD par.NRD

/-- The payload with `lvec` and `gvec` replaced, "other bits kept" (44_crossbar_egress.md R168). -/
def withVectors (par : Params) (x : Payload) (g l : Nat) : Payload :=
  concat (concat (field x (par.NLD + par.NRD) (par.W - (par.NLD + par.NRD))) g par.NRD) l par.NLD

/-- Whether a flit is a table-routing multicast header: `MODE = LUT`, HEAD or SNGL, flag set. -/
def isMcastHeader (par : Params) (f : Flit) : Bool :=
  par.isLut && isHeader f && mflag par f.payload

/-- The decode key `K = {m, pos[1], pos[0], mf}` of a peeked flit (R84). -/
def routeKey (par : Params) (f : Flit) : BitVec 4 :=
  makeKey par.isLut (isHeader f) (isTerminal f) (par.isLut && mflag par f.payload)

/-- `LutRead(T, i)`: entry `i`, and the all-zero mask past the end (20_memory.md R56). -/
def lutRead (t : List Mask) (i : Nat) : Mask := entry 0 t i

end Sys2Proof.Machine
end

