-- ==== Sys2Proof/Machine/Flags.lean ====
section
/-! DEFINITION. The Boolean state that conditions later operations (10_state.md R34). The hardware
has no condition-code register. -/

namespace Sys2Proof.Machine

/-- `ca[k][v] != 0`, read by REQ.BUILD. -/
def hasCredit (r : Router) (k v : Nat) : Bool := r.caAt k v != 0

/-- `QLen(q[p][v]) > 0`, read by VC.SELECT. -/
def vcNonempty (r : Router) (p v : Nat) : Bool := decide (0 < (r.qAt p v).length)

/-- `QLen(q[p][v]) = B`, read by INGRESS.RX. -/
def queueFull (par : Params) (r : Router) (p v : Nat) : Bool := decide (par.B ≤ (r.qAt p v).length)

/-- `QLen(eq[k]) < E`, read by REQ.BUILD. -/
def stagingFree (par : Params) (r : Router) (k : Nat) : Bool := decide ((r.eqAt k).length < par.E)

/-- `co[p][v] > 0`, read by CREDIT.TX. -/
def owesCredit (r : Router) (p v : Nat) : Bool := decide (0 < r.coAt p v)

/-- Whether egress port `k` admits flit `f` on VC `v`: free for a new packet, or `f` continues one
(42_arbitration.md R130 (c)). -/
def packetRule (r : Router) (k v : Nat) (f : Flit) : Bool := r.igpAt k v || isContinuation f

/-- `fault != none`, read at the start of every tick. -/
def isFaulted (r : Router) : Bool := r.fault.isSome

end Sys2Proof.Machine
end

