-- ==== Sys2Proof/Machine/Ops.lean ====
section
/-! DEFINITION. The shared operations: the results of a phase, replacing one part of the state,
entering the fault state (60_exceptions.md R209), the queue primitives (20_memory.md R51), and
running a phase as an operation of its own. -/

namespace Sys2Proof.Machine

/-- Why a phase does not complete: a fatal fault (R209), or operands it has no meaning for. -/
inductive Stop where
  | raise (code : Code) (info : Nat)
  | refuse (reason : Refusal)
deriving DecidableEq, Repr

/-- The result of a phase: the state after it, or why it did not complete. -/
abbrev Res := Except Stop State

/-- The state `s`, unless the phase stops. -/
def unlessStop (o : Option Stop) (s : State) : Res :=
  match o with
  | some e => .error e
  | none => .ok s

/-- The phases in order, each on the state the earlier ones left (20_memory.md R60), up to the first
that stops (60_exceptions.md R209). -/
def runPhases : List (State → Res) → State → Res
  | [], s => .ok s
  | op :: rest, s =>
    match op s with
    | .ok t => runPhases rest t
    | .error e => .error e

/-! ### Replacing one part of the state -/

/-- `s` with another router. -/
def State.withRouter (s : State) (r : Router) : State := { s with r := r }

/-- `s` with other tick values. -/
def State.withTv (s : State) (tv : TickVals) : State := { s with tv := tv }

/-- `s` with another environment record. -/
def State.withEnv (s : State) (env : Env) : State := { s with env := env }

/-- `s` with another operation asked for. -/
def State.withSel (s : State) (sel : Option Cells) : State := { s with sel := sel }

/-- `s` with the output record of a completed tick, or none. -/
def State.withOut (s : State) (out : Option Out) : State := { s with out := out }

/-- `s` with a new draw of everything the surroundings present: the environment record, the
configuration inputs and whether RESET comes next (46_router_tick.md R191, 70_reset_and_hazards.md
R231). -/
def State.nextInputs (s : State) : State :=
  { s with
    env := Env.draw s.par s.inst s.draws
    rst := Config.resetApplied s.inst s.draws
    cfgIn := Config.cfgIn s.inst s.draws
    draws := s.draws + 1 }

/-! ### Faults -/

/-- `raise Fatal(code, info)` (R209): the fault is recorded, the tick ends with no output record and
no value of it is kept; what else the router holds is unspecified. -/
def State.raiseFatal (s : State) (code : Code) (info : Nat) : State :=
  State.nextInputs
    { s with
      r := { Config.afterFault s.inst s.draws with fault := some ⟨code, info⟩ }
      tv := TickVals.idle s.par
      out := none }

/-- The only way out of the fault state (R211): the router's state replaced by its value at reset
(70_reset_and_hazards.md R230). There is no return to where the fault arose. -/
def State.afterReset (s : State) : State :=
  State.nextInputs
    { s with r := Router.atReset s.par s.cfgIn, tv := TickVals.idle s.par, out := none }

/-- The outcome of an operation that was applied to `s`. -/
def settle (s : State) (x : Res) : Host.Outcome State Fault Refusal :=
  match x with
  | .ok t => .next t
  | .error (.raise code info) => .next (s.raiseFatal code info)
  | .error (.refuse reason) => .refused reason

/-- An operation of the router: it is applied only while no fault is recorded
(46_router_tick.md R190). -/
def runOp (op : State → Res) (s : State) : Host.Outcome State Fault Refusal :=
  match s.r.fault with
  | some e => .fault (.aborted e.code e.info)
  | none => settle s (op s)

/-- An operation of the router with operands, which must name something it has. -/
def runChecked (i : Instr) (op : State → Res) (s : State) : Host.Outcome State Fault Refusal :=
  if i.wellFormed s.par then runOp op s else .refused .illFormed

/-! ### Queues (R51) -/

/-- `QPush(Q, f)`: `f` becomes the newest. -/
def qPush (q : List Flit) (f : Flit) : List Flit := q ++ [f]

/-- `QFront(Q)`: the oldest flit, if there is one. -/
def qFront (q : List Flit) : Option Flit := q.head?

/-- `QPop(Q)`: without the oldest flit. -/
def qPop (q : List Flit) : List Flit := q.tail

/-! ### Credit counters (00_scope.md R13: "no counter ever wraps") -/

/-- A counter raised by `n`, if it stays within the buffer depth. -/
def counterAdd (par : Params) (c n : Nat) : Option Nat := if c + n ≤ par.B then some (c + n) else none

/-- A counter lowered by `n`, if it holds that much. -/
def counterSub (c n : Nat) : Option Nat := if n ≤ c then some (c - n) else none

end Sys2Proof.Machine
end

