-- ==== Sys2Proof/Machine/Message.lean ====
section
/-! DEFINITION. The messages the hardware decodes: a flit of each position tag on an ingress channel
and a credit message on a downstream channel (30_encoding.md R70 to R75, R81). A peer presents a
message and touches no router state: "ingress/egress peers only communicate via the flit and
credit-return message interfaces" (00_scope.md R17). INGRESS.RX and CREDIT.RX take it. -/

namespace Sys2Proof.Machine

/-- The flit offered on ingress port `p` for the coming tick: `env.in_flit[p] = some f` (R87). -/
def offerFlit (p : Nat) (f : Flit) (s : State) : Host.Outcome State Fault Refusal :=
  if flitFits s.par p f.vc f.payload then
    .next (s.withEnv { s.env with inFlit := s.env.inFlit.set p (some f) })
  else .refused .illFormed

/-- FLIT.BODY: a flit with position tag BODY (R73). -/
def execFlitBody (p vc : Nat) (payload : Payload) (s : State) : Host.Outcome State Fault Refusal :=
  offerFlit p { pos := .body, vc := vc, payload := payload } s

/-- FLIT.TAIL: a flit with position tag TAIL (R73). -/
def execFlitTail (p vc : Nat) (payload : Payload) (s : State) : Host.Outcome State Fault Refusal :=
  offerFlit p { pos := .tail, vc := vc, payload := payload } s

/-- FLIT.HEAD: a flit with position tag HEAD (R73). -/
def execFlitHead (p vc : Nat) (payload : Payload) (s : State) : Host.Outcome State Fault Refusal :=
  offerFlit p { pos := .head, vc := vc, payload := payload } s

/-- FLIT.SNGL: a flit with position tag SNGL (R73). -/
def execFlitSngl (p vc : Nat) (payload : Payload) (s : State) : Host.Outcome State Fault Refusal :=
  offerFlit p { pos := .sngl, vc := vc, payload := payload } s

/-- CREDIT.MSG: a credit message offered by the receiver of egress port `k` for VC `v`, one bit
`amount` (R81): `env.in_credit[k][v] = some amount` (R87). -/
def execCreditMsg (k v : Nat) (amount : BitVec 1) (s : State) : Host.Outcome State Fault Refusal :=
  if (Instr.creditMsg k v amount).wellFormed s.par then
    .next (s.withEnv { s.env with inCredit := setCell s.env.inCredit k v (some amount) })
  else .refused .illFormed

end Sys2Proof.Machine
end

