-- ==== Sys2Proof/Machine/Arbiter.lean ====
section
/-! DEFINITION. ARB.PICK, the rotating-priority arbiter (40_priority_arbiter.md R100 to R106). -/

namespace Sys2Proof.Machine

/-- The winner of ARB.PICK among `n` requesters: "the first index in the cyclic order ptr, ptr+1,
..., n-1, 0, ..., ptr-1 with valid[w] = 1" (R101), none when no requester is valid. -/
def pick (n ptr : Nat) (valid : Mask) : Option Nat :=
  (List.range n).findSome? fun d =>
    if valid.testBit ((ptr + d) % n) then some ((ptr + d) % n) else none

/-- The winner as the one-hot mask the operation returns, 0 for none (R100). -/
def pickMask (n ptr : Nat) (valid : Mask) : Mask :=
  match pick n ptr valid with
  | some w => onehot n w
  | none => 0

/-- `ptr` after the operation: `(w + 1) mod n`, and unmoved when no requester is valid (R103). -/
def pickPtr (n ptr : Nat) (valid : Mask) : Nat :=
  match pick n ptr valid with
  | some w => (w + 1) % n
  | none => ptr

/-- ARB.PICK on an arbiter of the router (R105). -/
def arbPick (a : ArbId) (valid : Mask) (s : State) : Res :=
  match a with
  | .out k =>
    .ok ((s.withTv { s.tv with winner := pickMask s.par.N (s.r.arbOutAt k) valid }).withRouter
      { s.r with arbOut := s.r.arbOut.set k (pickPtr s.par.N (s.r.arbOutAt k) valid) })
  | .vc p =>
    .ok ((s.withTv { s.tv with winner := pickMask s.par.V (s.r.arbVcAt p) valid }).withRouter
      { s.r with arbVc := s.r.arbVc.set p (pickPtr s.par.V (s.r.arbVcAt p) valid) })

/-- ARB.PICK. -/
def execArbPick (a : ArbId) (valid : Mask) (s : State) : Host.Outcome State Fault Refusal :=
  runChecked (.arbPick a valid) (arbPick a valid) s

end Sys2Proof.Machine
end

