-- ==== Sys2Proof/Machine/Arbitration.lean ====
section
/-! DEFINITION. The Arbitration Matrix Builder and the grant protocol: REQ.BUILD, MCAST.WITHDRAW,
OUT.ARB, MCAST.FORCE, GRANT.FINAL, GRANT.COMMIT (42_arbitration.md R130 to R144). -/

namespace Sys2Proof.Machine

/-- `req[i][k]`: terms (a) credit, (b) destination, (c) packet rule, (d) staging not full (R130). -/
def request (s : State) (i k : Nat) : Bool :=
  match s.tv.vcAt i, s.tv.fAt i with
  | some v, some f =>
    hasCredit s.r k v && (s.tv.dmAt i).testBit k && packetRule s.r k v f && stagingFree s.par s.r k
  | _, _ => false

/-- REQ.BUILD (P6). -/
def reqBuild (s : State) : Res :=
  .ok (s.withTv { s.tv with req := tab2 s.par.N s.par.N (request s) })

/-- `ok[i]`: every destination of input `i` is requested (R132). -/
def allRequested (s : State) (i : Nat) : Bool :=
  allBelow s.par.N fun k => !(s.tv.dmAt i).testBit k || s.tv.reqAt i k

/-- MCAST.WITHDRAW (P7). -/
def mcastWithdraw (s : State) : Res :=
  .ok (s.withTv
    { s.tv with
      ok := tab s.par.N (allRequested s)
      req2 := tab2 s.par.N s.par.N fun i k => s.tv.reqAt i k && allRequested s i })

/-- `col`: the inputs still requesting output `k` (R134). -/
def column (s : State) (k : Nat) : Mask := maskOf s.par.N fun i => s.tv.req2At i k

/-- OUT.ARB (P8): one pick per egress port. -/
def outArb (s : State) : Res :=
  .ok ((s.withRouter
    { s.r with
      arbOut := tab s.par.N fun k => pickPtr s.par.N (s.r.arbOutAt k) (column s k) }).withTv
    { s.tv with win := tab s.par.N fun k => pickMask s.par.N (s.r.arbOutAt k) (column s k) })

/-- The input a pick names (R136: `win[k] = 0 ? none : some idx(win[k])`). -/
def winner (s : State) (k : Nat) : Option Nat :=
  (List.range s.par.N).find? fun i => (s.tv.winAt k).testBit i

/-- Input `i` is a forcer: valid, multicast, and picked on a local leg (R136). -/
def isForcer (s : State) (i : Nat) : Bool :=
  (s.tv.vcAt i).isSome && decide (2 ≤ popcount s.par.N (s.tv.dmAt i)) &&
    anyBelow s.par.NL fun k => (s.tv.dmAt i).testBit k && s.tv.winAt k == onehot s.par.N i

/-- The two per-output values of MCAST.FORCE's loop: `sel[k]` and `claimed[k]`. -/
structure Forced where
  sel : List (Option Nat)
  claimed : List Bool
deriving DecidableEq, Repr

/-- Before the loop: the independent picks, nothing claimed (R136). -/
def forceStart (s : State) : Forced :=
  { sel := tab s.par.N (winner s), claimed := tab s.par.N fun _ => false }

/-- `valid_all` for input `i`: each of its outputs requested and not yet claimed (R136). -/
def forceValid (s : State) (x : Forced) (i : Nat) : Bool :=
  allBelow s.par.N fun k =>
    !(s.tv.dmAt i).testBit k || (s.tv.req2At i k && !entry false x.claimed k)

/-- The loop's body for input `i`: a forcer whose outputs are all valid and unclaimed takes them
(R136). -/
def forceInput (s : State) (x : Forced) (i : Nat) : Forced :=
  if isForcer s i && forceValid s x i then
    { sel := tab s.par.N fun k => if (s.tv.dmAt i).testBit k then some i else entry none x.sel k
      claimed := tab s.par.N fun k => (s.tv.dmAt i).testBit k || entry false x.claimed k }
  else x

/-- The loop over inputs `0, .., n - 1`, "ascending, sequential" (R136). -/
def forceLoop (s : State) : Nat → Forced
  | 0 => forceStart s
  | n + 1 => forceInput s (forceLoop s n) n

/-- MCAST.FORCE (P9). -/
def mcastForce (s : State) : Res :=
  .ok (s.withTv
    { s.tv with sel := (forceLoop s s.par.N).sel, claimed := (forceLoop s s.par.N).claimed })

/-- `full[i]`: input `i` is selected on all of its destinations, and has one (R138). -/
def grantedWhole (s : State) (i : Nat) : Bool :=
  (s.tv.vcAt i).isSome && s.tv.dmAt i != 0 &&
    allBelow s.par.N fun k => !(s.tv.dmAt i).testBit k || s.tv.selAt k == some i

/-- GRANT.FINAL (P9). -/
def grantFinal (s : State) : Res :=
  .ok (s.withTv
    { s.tv with
      full := tab s.par.N (grantedWhole s)
      grant := tab2 s.par.N s.par.N fun i k => grantedWhole s i && (s.tv.dmAt i).testBit k })

/-- Whether GRANT.COMMIT pops `q[i][v]` (R139). -/
def commits (s : State) (i v : Nat) : Bool := s.tv.fullAt i && s.tv.vcAt i == some v

/-- Whether GRANT.COMMIT moves a flit of input `i` to `(k, v)` (R139). -/
def commitsTo (s : State) (i k v : Nat) : Bool := commits s i v && s.tv.grantAt i k

/-- How many flits GRANT.COMMIT moves to `(k, v)`: one at most in a tick (R138). -/
def moved (s : State) (k v : Nat) : Nat := (List.range s.par.N).countP fun i => commitsTo s i k v

/-- The last input whose flit GRANT.COMMIT moves to `(k, v)`: the only one in a tick (R138). -/
def lastMover (s : State) (k v : Nat) : Option Nat :=
  (List.range s.par.N).reverse.find? fun i => commitsTo s i k v

/-- What stops the commit of input `i`: F5, then F2, then F4 (R139, 60_exceptions.md R210). -/
def commitStop (s : State) (i : Nat) : Option Stop :=
  if s.tv.fullAt i then
    match s.tv.vcAt i, s.tv.fAt i with
    | some v, some _ =>
      if s.par.rwForbidden && s.tv.pushedAt i v then
        some (.raise .storageRwConflict (pairIndex s.par i v))
      else if (qFront (s.r.qAt i v)).isNone then
        some (.raise .queueUnderflow (pairIndex s.par i v))
      else if (counterAdd s.par (s.r.coAt i v) 1).isNone then
        some (.raise .creditOwedOverflow (pairIndex s.par i v))
      else none
    | _, _ => some (.refuse (.grantWithoutFlit i))
  else none

/-- A CREDIT.DEC that finds no credit, which R140 (d) excludes. -/
def decStop (s : State) (k v : Nat) : Option Stop :=
  match counterSub (s.r.caAt k v) (moved s k v) with
  | some _ => none
  | none => some (.refuse (.creditDecAtZero k v))

/-- `igp[k][v]` after the commit: whether the flit moved to `(k, v)` is terminal (R139, R141). -/
def igpAfter (s : State) (k v : Nat) : Bool :=
  match lastMover s k v with
  | some i => ((s.tv.fAt i).map isTerminal).getD (s.r.igpAt k v)
  | none => s.r.igpAt k v

/-- GRANT.COMMIT (P10): each granted input is popped once and owes one credit (CREDIT.OWE); each
granted output is charged one credit (CREDIT.DEC) and follows its packet (R139). Run by itself with a
counter at 0 for a granted leg, which R140 (d) excludes, it looks for F5, F2, F4 and a granted input
with no flit at every input before it refuses the CREDIT.DEC, even where the leg is of a lower input:
DESIGN CHOICE, log entry 9. -/
def grantCommit (s : State) : Res :=
  unlessStop ((firstOf s.par.N (commitStop s)).or (firstOf2 s.par.N s.par.V (decStop s)))
    (s.withRouter
      { s.r with
        q := tab2 s.par.N s.par.V fun i v =>
          if commits s i v then qPop (s.r.qAt i v) else s.r.qAt i v
        co := tab2 s.par.N s.par.V fun i v =>
          if commits s i v then (counterAdd s.par (s.r.coAt i v) 1).getD (s.r.coAt i v)
          else s.r.coAt i v
        ca := tab2 s.par.N s.par.V fun k v =>
          (counterSub (s.r.caAt k v) (moved s k v)).getD (s.r.caAt k v)
        igp := tab2 s.par.N s.par.V (igpAfter s) })

/-- REQ.BUILD. -/
def execReqBuild (s : State) : Host.Outcome State Fault Refusal := runOp reqBuild s

/-- MCAST.WITHDRAW. -/
def execMcastWithdraw (s : State) : Host.Outcome State Fault Refusal := runOp mcastWithdraw s

/-- OUT.ARB. -/
def execOutArb (s : State) : Host.Outcome State Fault Refusal := runOp outArb s

/-- MCAST.FORCE. -/
def execMcastForce (s : State) : Host.Outcome State Fault Refusal := runOp mcastForce s

/-- GRANT.FINAL. -/
def execGrantFinal (s : State) : Host.Outcome State Fault Refusal := runOp grantFinal s

/-- GRANT.COMMIT. -/
def execGrantCommit (s : State) : Host.Outcome State Fault Refusal := runOp grantCommit s

end Sys2Proof.Machine
end

