-- ==== Sys2Proof/Machine/Credit.lean ====
section
/-! DEFINITION. The credit counters: CREDIT.RX, CREDIT.DEC, CREDIT.OWE, CREDIT.TX
(43_credit_flow.md). -/

namespace Sys2Proof.Machine

/-- `ca[k][v]` after the credit message offered for `(k, v)`, none where it would exceed `B` (R150).
No message leaves the counter. -/
def creditAfter (s : State) (k v : Nat) : Option Nat :=
  match s.env.creditAt k v with
  | none => some (s.r.caAt k v)
  | some amount => counterAdd s.par (s.r.caAt k v) amount.toNat

/-- F3 at `(k, v)` (R150). -/
def creditRxStop (s : State) (k v : Nat) : Option Stop :=
  match creditAfter s k v with
  | some _ => none
  | none => some (.raise .creditAvailOverflow (pairIndex s.par k v))

/-- CREDIT.RX (P1): every offered message is taken and added (R150). -/
def creditRx (s : State) : Res :=
  unlessStop (firstOf2 s.par.N s.par.V (creditRxStop s))
    (((s.withRouter
      { s.r with ca := tab2 s.par.N s.par.V fun k v => (creditAfter s k v).getD (s.r.caAt k v) }).withEnv
      { s.env with inCredit := tab2 s.par.N s.par.V fun _ _ => none }).withTv
      { s.tv with
        out := { s.tv.out with
          creditTaken := tab2 s.par.N s.par.V fun k v => (s.env.creditAt k v).isSome } })

/-- CREDIT.DEC(k, v): `ca[k][v] <- ca[k][v] - 1`, which the grant guarantees is possible (R152). Run by
itself it asks for no grant of `(k, v)`: DESIGN CHOICE, log entry 27. -/
def creditDec (k v : Nat) (s : State) : Res :=
  match counterSub (s.r.caAt k v) 1 with
  | some c => .ok (s.withRouter { s.r with ca := setCell s.r.ca k v c })
  | none => .error (.refuse (.creditDecAtZero k v))

/-- CREDIT.OWE(i, v): `co[i][v] <- co[i][v] + 1`, F4 where it would exceed `B` (R153). Run by itself it
asks for neither `full[i]` nor `v = vc[i]`: DESIGN CHOICE, log entry 27. -/
def creditOwe (i v : Nat) (s : State) : Res :=
  match counterAdd s.par (s.r.coAt i v) 1 with
  | some c => .ok (s.withRouter { s.r with co := setCell s.r.co i v c })
  | none => .error (.raise .creditOwedOverflow (pairIndex s.par i v))

/-- CREDIT.TX (P13): one message offered for every pair that owes one, the counter lowered by one
where it is accepted (R155). -/
def creditTx (s : State) : Res :=
  .ok ((s.withRouter
    { s.r with
      co := tab2 s.par.N s.par.V fun p v =>
        if owesCredit s.r p v && s.env.creditReadyAt p v then s.r.coAt p v - 1
        else s.r.coAt p v }).withTv
    { s.tv with
      out := { s.tv.out with
        credit := tab2 s.par.N s.par.V fun p v => if owesCredit s.r p v then some 1 else none } })

/-- CREDIT.RX. -/
def execCreditRx (s : State) : Host.Outcome State Fault Refusal := runOp creditRx s

/-- CREDIT.DEC. -/
def execCreditDec (k v : Nat) (s : State) : Host.Outcome State Fault Refusal :=
  runChecked (.creditDec k v) (creditDec k v) s

/-- CREDIT.OWE. -/
def execCreditOwe (i v : Nat) (s : State) : Host.Outcome State Fault Refusal :=
  runChecked (.creditOwe i v) (creditOwe i v) s

/-- CREDIT.TX. -/
def execCreditTx (s : State) : Host.Outcome State Fault Refusal := runOp creditTx s

end Sys2Proof.Machine
end

