-- ==== Sys2Proof/Machine/Crossbar.lean ====
section
/-! DEFINITION. XBAR, HDR.REWRITE.LUT and EGRESS.TX (44_crossbar_egress.md R165 to R171). -/

namespace Sys2Proof.Machine

/-- The local-tier destinations whose table entry names output `k` (R168). -/
def localReach (par : Params) (cfg : Cfg) (k : Nat) : Mask :=
  maskOf par.NLD fun j => (lutRead cfg.lutL j).testBit k

/-- The groups other than this router's own whose table entry names output `k` (R168). -/
def remoteReach (par : Params) (cfg : Cfg) (k : Nat) : Mask :=
  maskOf par.NRD fun g => g != cfg.myId && (lutRead cfg.lutR g).testBit k

/-- HDR.REWRITE.LUT on a payload, for the copy that leaves through output `k`; `loc` is the input's
`is_local` mask (R168). -/
def rewritePayload (par : Params) (cfg : Cfg) (loc : Mask) (k : Nat) (x : Payload) : Payload :=
  if loc.testBit k then
    withVectors par x (onehot par.NRD cfg.myId) (lvec par x &&& localReach par cfg k)
  else withVectors par x (gvec par x &&& remoteReach par cfg k) (lvec par x)

/-- The copy of flit `g`, peeked at ingress port `i`, for output `k`: rewritten when it is a
multicast header, unchanged otherwise (R166, R167). -/
def copyFor (s : State) (i k : Nat) (g : Flit) : Except Stop Flit :=
  if isMcastHeader s.par g then
    match (s.tv.vcAt i).bind (s.r.isLocalAt i) with
    | some loc => .ok { g with payload := rewritePayload s.par s.r.cfg loc k g.payload }
    | none => .error (.refuse (.isLocalUndefined i))
  else .ok g

/-- HDR.REWRITE.LUT for input `i` and output `k`: the rewritten copy of the input's flit. A flit
that is no multicast header is not rewritten (R169 (a)). Run by itself it asks for no grant of `k` to
`i`: DESIGN CHOICE, log entry 27. -/
def hdrRewriteLut (i k : Nat) (s : State) : Res :=
  match s.tv.frAt i with
  | none => .ok s
  | some g =>
    if isMcastHeader s.par g then
      match copyFor s i k g with
      | .ok g' => .ok (s.withTv { s.tv with cp := s.tv.cp.set k (some g') })
      | .error e => .error e
    else .ok s

/-- The input granted output `k`: the only one in a tick (42_arbitration.md R138). -/
def grantedInput (s : State) (k : Nat) : Option Nat :=
  (List.range s.par.N).find? fun i => s.tv.grantAt i k

/-- The copy XBAR makes for output `k`, if an input is granted it (R166). -/
def xbarCopy (s : State) (k : Nat) : Option (Except Stop Flit) :=
  match grantedInput s k with
  | none => none
  | some i =>
    match s.tv.frAt i with
    | some g => some (copyFor s i k g)
    | none => some (.error (.refuse (.grantWithoutFlit i)))

/-- The flit XBAR pushes into `eq[k]`. -/
def xbarFlit (s : State) (k : Nat) : Option Flit :=
  match xbarCopy s k with
  | some (.ok g) => some g
  | _ => none

/-- What stops XBAR at output `k`; none of it arises in a tick (R166: "Exceptions: none"). -/
def xbarStop (s : State) (k : Nat) : Option Stop :=
  match xbarCopy s k with
  | none => none
  | some (.error e) => some e
  | some (.ok _) => if stagingFree s.par s.r k then none else some (.refuse (.stagingFull k))

/-- XBAR (P11): one copy into the staging queue of every granted output; the others keep theirs as
they are (R166). -/
def xbar (s : State) : Res :=
  unlessStop (firstOf s.par.N (xbarStop s))
    ((s.withRouter
      { s.r with
        eq := tab s.par.N fun k =>
          match xbarFlit s k with
          | some g => qPush (s.r.eqAt k) g
          | none => s.r.eqAt k }).withTv
      { s.tv with cp := tab s.par.N (xbarFlit s) })

/-- Whether the front of `eq[k]` is accepted downstream in this tick (R170). -/
def delivers (s : State) (k : Nat) : Bool := (qFront (s.r.eqAt k)).isSome && s.env.readyAt k

/-- EGRESS.TX (P12): the front of every staging queue is offered, and popped when accepted; a
refused flit stays and is offered again (R170). -/
def egressTx (s : State) : Res :=
  .ok ((s.withRouter
    { s.r with
      eq := tab s.par.N fun k => if delivers s k then qPop (s.r.eqAt k) else s.r.eqAt k }).withTv
    { s.tv with
      out := { s.tv.out with
        flit := tab s.par.N fun k => qFront (s.r.eqAt k)
        delivered := tab s.par.N (delivers s) } })

/-- XBAR. -/
def execXbar (s : State) : Host.Outcome State Fault Refusal := runOp xbar s

/-- HDR.REWRITE.LUT. -/
def execHdrRewriteLut (i k : Nat) (s : State) : Host.Outcome State Fault Refusal :=
  runChecked (.hdrRewriteLut i k) (hdrRewriteLut i k) s

/-- EGRESS.TX. -/
def execEgressTx (s : State) : Host.Outcome State Fault Refusal := runOp egressTx s

end Sys2Proof.Machine
end

