-- ==== Sys2Proof/Machine/Ingress.lean ====
section
/-! DEFINITION. INGRESS.RX, VC.SELECT and PEEK (45_ingress_vcselect.md R180 to R184). -/

namespace Sys2Proof.Machine

/-- F9 or F1 for the flit offered on ingress port `p`, F9 first (R180, 60_exceptions.md R210). -/
def ingressRxStop (s : State) (p : Nat) : Option Stop :=
  match s.env.flitAt p with
  | none => none
  | some f =>
    if s.par.V ≤ f.vc then some (.raise .badVc p)
    else if queueFull s.par s.r p f.vc then some (.raise .queueOverflow (pairIndex s.par p f.vc))
    else none

/-- The flit offered for `q[p][v]`, if there is one. -/
def arrival (s : State) (p v : Nat) : Option Flit :=
  match s.env.flitAt p with
  | some f => if f.vc = v then some f else none
  | none => none

/-- INGRESS.RX (P2): every offered flit is taken and pushed into its queue, whole (R180). -/
def ingressRx (s : State) : Res :=
  unlessStop (firstOf s.par.N (ingressRxStop s))
    (((s.withRouter
      { s.r with
        q := tab2 s.par.N s.par.V fun p v =>
          match arrival s p v with
          | some f => qPush (s.r.qAt p v) f
          | none => s.r.qAt p v }).withEnv
      { s.env with inFlit := tab s.par.N fun _ => none }).withTv
      { s.tv with
        pushed := tab2 s.par.N s.par.V fun p v => (arrival s p v).isSome
        out := { s.tv.out with inTaken := tab s.par.N fun p => (s.env.flitAt p).isSome } })

/-- `nonempty`: bit `v` is set when `q[p][v]` holds a flit (R182). -/
def nonemptyMask (s : State) (p : Nat) : Mask := maskOf s.par.V (vcNonempty s.r p)

/-- VC.SELECT (P3): one rotating-priority pick among the non-empty VCs of each port (R182). -/
def vcSelect (s : State) : Res :=
  .ok ((s.withRouter
    { s.r with
      arbVc := tab s.par.N fun p => pickPtr s.par.V (s.r.arbVcAt p) (nonemptyMask s p) }).withTv
    { s.tv with
      inValid := tab s.par.N fun p => nonemptyMask s p != 0
      vc := tab s.par.N fun p => pick s.par.V (s.r.arbVcAt p) (nonemptyMask s p) })

/-- F2: a peek at an empty queue (20_memory.md R52), which VC.SELECT excludes (R184). -/
def peekStop (s : State) (p : Nat) : Option Stop :=
  match s.tv.vcAt p with
  | none => none
  | some v =>
    match qFront (s.r.qAt p v) with
    | some _ => none
    | none => some (.raise .queueUnderflow (pairIndex s.par p v))

/-- PEEK (P4): a copy of the front flit of the chosen queue (R184). -/
def peek (s : State) : Res :=
  unlessStop (firstOf s.par.N (peekStop s))
    (s.withTv
      { s.tv with
        f := tab s.par.N fun p =>
          match s.tv.vcAt p with
          | some v => qFront (s.r.qAt p v)
          | none => none })

/-- INGRESS.RX. -/
def execIngressRx (s : State) : Host.Outcome State Fault Refusal := runOp ingressRx s

/-- VC.SELECT. -/
def execVcSelect (s : State) : Host.Outcome State Fault Refusal := runOp vcSelect s

/-- PEEK. -/
def execPeek (s : State) : Host.Outcome State Fault Refusal := runOp peek s

end Sys2Proof.Machine
end

