-- ==== Sys2Proof/Machine/Route.lean ====
section
/-! DEFINITION. The Route Resolver: ROUTE.SR, ROUTE.LUT.UCAST, ROUTE.LUT.MCAST, ROUTE.HOLD
(41_route_resolver.md). -/

namespace Sys2Proof.Machine

/-- What a route operation produces for an ingress port: the mask in use, the flit that will
traverse the crossbar, and what it writes to `out_dest` and `is_local` (none: not written). -/
structure Routed where
  dm : Mask
  fr : Flit
  dest : Option Mask
  loc : Option Mask
deriving DecidableEq, Repr

/-- The mask of a route field whose first descriptor is in use: the local bits, and the remote bit
when the rest is not zero and the selector names a port (R111, R112). -/
def srMask (par : Params) (route : Nat) : Mask :=
  descLocal par (descriptor par route) |||
    (if route >>> par.DW ≠ 0 ∧ descRsel par (descriptor par route) < par.NR then
      onehot par.N (par.NL + descRsel par (descriptor par route))
    else 0)

/-- The payload forwarded: the route field without its first descriptor, opaque bits in place
(R111). -/
def srForward (par : Params) (x : Payload) : Payload :=
  concat (srOpaque par x) (routeField par x >>> par.DW) par.RW

/-- ROUTE.SR on a flit (R111). -/
def routedSr (par : Params) (f : Flit) : Routed :=
  { dm := srMask par (routeField par f.payload)
    fr := { f with payload := srForward par f.payload }
    dest := some (srMask par (routeField par f.payload))
    loc := none }

/-- The mask of a unicast header: the local-tier entry in this router's own group, the remote-tier
entry of any other (R114). -/
def ucastMask (par : Params) (cfg : Cfg) (x : Payload) : Mask :=
  if ridx par x = cfg.myId then lutRead cfg.lutL (lidx par x) else lutRead cfg.lutR (ridx par x)

/-- ROUTE.LUT.UCAST on a flit (R114): the header is not changed. -/
def routedUcast (par : Params) (cfg : Cfg) (f : Flit) : Routed :=
  { dm := ucastMask par cfg f.payload
    fr := f
    dest := some (ucastMask par cfg f.payload)
    loc := some (if ridx par f.payload = cfg.myId then ucastMask par cfg f.payload else 0) }

/-- `lmask`: the local-tier entries requested, when this router's group is (R116). -/
def mcastLocalMask (par : Params) (cfg : Cfg) (x : Payload) : Mask :=
  if (gvec par x).testBit cfg.myId then
    orOver par.NLD (fun j => (lvec par x).testBit j) (lutRead cfg.lutL)
  else 0

/-- `rmask`: the remote-tier entries of the other groups requested (R116). -/
def mcastRemoteMask (par : Params) (cfg : Cfg) (x : Payload) : Mask :=
  orOver par.NRD (fun g => (gvec par x).testBit g && g != cfg.myId) (lutRead cfg.lutR)

/-- ROUTE.LUT.MCAST on a flit (R116): the header is rewritten per output later. -/
def routedMcast (par : Params) (cfg : Cfg) (f : Flit) : Routed :=
  { dm := mcastLocalMask par cfg f.payload ||| mcastRemoteMask par cfg f.payload
    fr := f
    dest := some (mcastLocalMask par cfg f.payload ||| mcastRemoteMask par cfg f.payload)
    loc := some (mcastLocalMask par cfg f.payload) }

/-- ROUTE.HOLD on a flit whose queue's stored mask is `m` (R118): nothing is written. -/
def routedHold (m : Mask) (f : Flit) : Routed := { dm := m, fr := f, dest := none, loc := none }

/-- The result of route operation `op` for flit `f` at the front of `q[p][v]`: F10 for a
continuation flit while the stored mask is undefined (R118). -/
def routed (s : State) (op : RouteOp) (p v : Nat) (f : Flit) : Except Stop Routed :=
  match op with
  | .sr => .ok (routedSr s.par f)
  | .ucast => .ok (routedUcast s.par s.r.cfg f)
  | .mcast => .ok (routedMcast s.par s.r.cfg f)
  | .hold =>
    match s.r.outDestAt p v with
    | some m => .ok (routedHold m f)
    | none => .error (.raise .outDestUndefined (pairIndex s.par p v))

/-- The selected VC and the peeked flit of ingress port `p`, when it has a valid flit. -/
def peeked (s : State) (p : Nat) : Option (Nat × Flit) :=
  match s.tv.vcAt p, s.tv.fAt p with
  | some v, some f => some (v, f)
  | _, _ => none

/-- The state with the result of a route operation on `(p, v)` written (R110). -/
def State.writeRouted (s : State) (p v : Nat) (x : Routed) : State :=
  (s.withRouter
    { s.r with
      outDest :=
        match x.dest with
        | some m => setCell s.r.outDest p v (some m)
        | none => s.r.outDest
      isLocal :=
        match x.loc with
        | some m => setCell s.r.isLocal p v (some m)
        | none => s.r.isLocal }).withTv
    { s.tv with dm := s.tv.dm.set p x.dm, fr := s.tv.fr.set p (some x.fr) }

/-- Route operation `op` on ingress port `p`. It acts when the key of the peeked flit selects it
(30_encoding.md R84); it leaves the state as it is on a port whose flit selects another operation,
and sets `dm[p]` to 0 on a port with no valid flit (R110). -/
def routePort (op : RouteOp) (p : Nat) (s : State) : Res :=
  match peeked s p with
  | none => .ok (s.withTv { s.tv with dm := s.tv.dm.set p 0, fr := s.tv.fr.set p none })
  | some (v, f) =>
    if keyOp (routeKey s.par f) = op then
      match routed s op p v f with
      | .ok x => .ok (s.writeRouted p v x)
      | .error e => .error e
    else .ok s

/-- The result of the route operation that the key of port `p`'s flit selects, with the VC it is
for; none for a port with no valid flit. -/
def portRouted (s : State) (p : Nat) : Option (Nat × Except Stop Routed) :=
  match peeked s p with
  | none => none
  | some (v, f) => some (v, routed s (keyOp (routeKey s.par f)) p v f)

/-- F10 at ingress port `p`. -/
def routeStop (s : State) (p : Nat) : Option Stop :=
  match portRouted s p with
  | some (_, .error e) => some e
  | _ => none

/-- What port `p`'s route operation writes to its arrays, if it has one. -/
def portResult (s : State) (p : Nat) : Option (Nat × Routed) :=
  match portRouted s p with
  | some (v, .ok x) => some (v, x)
  | _ => none

/-- The mask in a state array after the route operation of port `p` wrote `w` to its VC's entry. -/
def afterWrite (res : Option (Nat × Routed)) (w : Routed → Option Mask) (v : Nat)
    (old : Option Mask) : Option Mask :=
  match res with
  | some (v', x) => if v' = v then (w x).or old else old
  | none => old

/-- Phase P5 (46_router_tick.md R190): every ingress port at once. -/
def routeAll (s : State) : Res :=
  unlessStop (firstOf s.par.N (routeStop s))
    ((s.withRouter
      { s.r with
        outDest := tab2 s.par.N s.par.V fun p v =>
          afterWrite (portResult s p) Routed.dest v (s.r.outDestAt p v)
        isLocal := tab2 s.par.N s.par.V fun p v =>
          afterWrite (portResult s p) Routed.loc v (s.r.isLocalAt p v) }).withTv
      { s.tv with
        dm := tab s.par.N fun p => ((portResult s p).map fun x => x.2.dm).getD 0
        fr := tab s.par.N fun p => (portResult s p).map fun x => x.2.fr })

/-- ROUTE.SR. -/
def execRouteSr (p : Nat) (s : State) : Host.Outcome State Fault Refusal :=
  runChecked (.routeSr p) (routePort .sr p) s

/-- ROUTE.LUT.UCAST. -/
def execRouteLutUcast (p : Nat) (s : State) : Host.Outcome State Fault Refusal :=
  runChecked (.routeLutUcast p) (routePort .ucast p) s

/-- ROUTE.LUT.MCAST. -/
def execRouteLutMcast (p : Nat) (s : State) : Host.Outcome State Fault Refusal :=
  runChecked (.routeLutMcast p) (routePort .mcast p) s

/-- ROUTE.HOLD. -/
def execRouteHold (p : Nat) (s : State) : Host.Outcome State Fault Refusal :=
  runChecked (.routeHold p) (routePort .hold p) s

end Sys2Proof.Machine
end

