-- ==== Sys2Proof/Machine/Tick.lean ====
section
/-! DEFINITION. TICK (46_router_tick.md R190) and RESET (70_reset_and_hazards.md R230). -/

namespace Sys2Proof.Machine

/-- The phases P1 to P13 in their order, "a strict phase order that must not be reordered" (R190). -/
def phases : List (State → Res) :=
  [ creditRx, ingressRx, vcSelect, peek, routeAll, reqBuild, mcastWithdraw, outArb, mcastForce,
    grantFinal, grantCommit, xbar, egressTx, creditTx ]

/-- A tick starts with none of the values of an earlier one (10_state.md R31). -/
def beginTick (s : State) : State := s.withTv (TickVals.idle s.par)

/-- A tick ends with its output record (R192), none of its inner values, and what the environment
presents for the next. -/
def finishTick (s : State) : State :=
  ((s.withOut (some s.tv.out)).withTv (TickVals.idle s.par)).nextInputs

/-- TICK: the phases in order, on a fresh set of tick values (R190). -/
def tick (s : State) : Res :=
  match runPhases phases (beginTick s) with
  | .ok t => .ok (finishTick t)
  | .error e => .error e

/-- TICK. -/
def execTick (s : State) : Host.Outcome State Fault Refusal := runOp tick s

/-- RESET: every field of the router's state at its reset value, the configuration latched, a
configuration fault recorded; it is total, and the one operation a faulted router accepts (R230,
60_exceptions.md R211). Parameters no router can be built with are refused. -/
def execReset (s : State) : Host.Outcome State Fault Refusal :=
  if s.par.ok then .next s.afterReset else .refused .notBuilt

end Sys2Proof.Machine
end

