-- ==== Sys2Proof/Machine/Dispatch.lean ====
section
/-! DEFINITION. One arm per operation or message. -/

namespace Sys2Proof.Machine

def exec (i : Instr) (s : State) : Host.Outcome State Fault Refusal :=
  match i with
  | .routeSr p => Sys2Proof.Machine.execRouteSr p s
  | .routeLutUcast p => Sys2Proof.Machine.execRouteLutUcast p s
  | .routeLutMcast p => Sys2Proof.Machine.execRouteLutMcast p s
  | .routeHold p => Sys2Proof.Machine.execRouteHold p s
  | .flitBody p vc payload => Sys2Proof.Machine.execFlitBody p vc payload s
  | .flitTail p vc payload => Sys2Proof.Machine.execFlitTail p vc payload s
  | .flitHead p vc payload => Sys2Proof.Machine.execFlitHead p vc payload s
  | .flitSngl p vc payload => Sys2Proof.Machine.execFlitSngl p vc payload s
  | .creditMsg k v amount => Sys2Proof.Machine.execCreditMsg k v amount s
  | .reset => Sys2Proof.Machine.execReset s
  | .tick => Sys2Proof.Machine.execTick s
  | .creditRx => Sys2Proof.Machine.execCreditRx s
  | .ingressRx => Sys2Proof.Machine.execIngressRx s
  | .vcSelect => Sys2Proof.Machine.execVcSelect s
  | .peek => Sys2Proof.Machine.execPeek s
  | .reqBuild => Sys2Proof.Machine.execReqBuild s
  | .mcastWithdraw => Sys2Proof.Machine.execMcastWithdraw s
  | .outArb => Sys2Proof.Machine.execOutArb s
  | .mcastForce => Sys2Proof.Machine.execMcastForce s
  | .grantFinal => Sys2Proof.Machine.execGrantFinal s
  | .grantCommit => Sys2Proof.Machine.execGrantCommit s
  | .creditDec k v => Sys2Proof.Machine.execCreditDec k v s
  | .creditOwe p v => Sys2Proof.Machine.execCreditOwe p v s
  | .xbar => Sys2Proof.Machine.execXbar s
  | .hdrRewriteLut p k => Sys2Proof.Machine.execHdrRewriteLut p k s
  | .egressTx => Sys2Proof.Machine.execEgressTx s
  | .creditTx => Sys2Proof.Machine.execCreditTx s
  | .arbPick a valid => Sys2Proof.Machine.execArbPick a valid s

end Sys2Proof.Machine
end

