-- ==== Sys2Proof/Machine/Fetch.lean ====
section
/-! DEFINITION. What the next step is. The hardware has no program counter and no fetch (10_state.md
R40): every step is a tick, or a RESET applied between two ticks (70_reset_and_hazards.md R231). An
operation record in `sel` asks for one operation or message instead (log entry 4). -/

namespace Sys2Proof.Machine

/-- The operation of the next step, or why there is none. -/
def nextOperation (s : State) : Except Refusal Instr :=
  match s.sel with
  | none => .ok (if s.rst then .reset else .tick)
  | some cells =>
    match decode s.par cells with
    | .error e => .error (.undecodable e)
    | .ok i => if i.wellFormed s.par then .ok i else .error .illFormed

end Sys2Proof.Machine
end

