-- ==== Sys2Proof/Machine/Step.lean ====
section
/-! DEFINITION. One step of the machine. -/

namespace Sys2Proof.Machine

/-- One step: the operation asked for, applied to the state without the request. A router whose
parameters break 00_scope.md R6 to R8 is not built and takes no step. -/
def step (s : State) : Host.Outcome State Fault Refusal :=
  if s.par.ok then
    match nextOperation s with
    | .ok i => exec i (s.withSel none)
    | .error reason => .refused reason
  else .refused .notBuilt

/-- The state in which the next step runs the operation of a word of spec/opcode_table.json. -/
def State.withFetchWord (s : State) (nbits w : Nat) : State :=
  s.withSel (some (tableCells s.par nbits w))

end Sys2Proof.Machine
end

