-- ==== Sys2Proof/Machine/Stimulus.lean ====
section
/-! DEFINITION. The stimulus script of the spec (30_encoding.md R87, R88): the items of one line
build the environment record of one tick, and the shorthands for headers and packets. -/

namespace Sys2Proof.Machine

/-- An input item of a script line (R87). -/
inductive Item where
  /-- `IN p POS v payload`. -/
  | inp (p : Nat) (pos : Pos) (v : Nat) (payload : Payload)
  /-- `CRED k v`. -/
  | cred (k v : Nat)
  /-- `CRED0 k v`. -/
  | cred0 (k v : Nat)
  /-- `NRDY k`. -/
  | nrdy (k : Nat)
  /-- `NCRDY p v`. -/
  | ncrdy (p v : Nat)
deriving DecidableEq, Repr

/-- The environment record with one item's field set (R87). -/
def Env.put (e : Env) (x : Item) : Env :=
  match x with
  | .inp p pos v payload =>
    { e with inFlit := e.inFlit.set p (some { pos := pos, vc := v, payload := payload }) }
  | .cred k v => { e with inCredit := setCell e.inCredit k v (some 1) }
  | .cred0 k v => { e with inCredit := setCell e.inCredit k v (some 0) }
  | .nrdy k => { e with outReady := e.outReady.set k false }
  | .ncrdy p v => { e with creditReady := setCell e.creditReady p v false }

/-- The environment record of a script line: "Anything not mentioned is none (inputs) or true (ready
bits)" (R87). -/
def Env.ofLine (par : Params) (items : List Item) : Env := items.foldl Env.put (Env.idle par)

/-- The state in which the next tick meets the environment of a script line. -/
def State.onLine (s : State) (items : List Item) : State := s.withEnv (Env.ofLine s.par items)

/-- `SRROUTE(d0, d1, ...)`: the route field of the descriptors, nearest hop first (R88). -/
def srRoute (par : Params) : List Nat → Nat
  | [] => 0
  | d :: rest => concat (srRoute par rest) d par.DW

/-- `UC(ridx, lidx)`: a unicast header payload (R88). -/
def ucHeader (par : Params) (ridx lidx : Nat) : Payload := concat ridx lidx par.LIDW

/-- `MC(gvec, lvec)`: a multicast header payload (R88). -/
def mcHeader (par : Params) (gvec lvec : Nat) : Payload :=
  2 ^ par.MF + concat gvec lvec par.NLD

/-- `PKT p v hdr b1 .. t`: the items of a packet, one a tick: a SNGL when the header is alone, else
HEAD, the BODY flits and the TAIL (R88). -/
def packet (p v : Nat) (hdr : Payload) : List Payload → List Item
  | [] => [.inp p .sngl v hdr]
  | b :: rest => .inp p .head v hdr :: go b rest
where
  go (b : Payload) : List Payload → List Item
    | [] => [.inp p .tail v b]
    | c :: rest => .inp p .body v b :: go c rest

end Sys2Proof.Machine
end

