-- ==== Sys2Proof/Safety.lean ====
section
/-! DEFINITION. What a state of the router is bound to (10_state.md R48 and the widths of R20), what
the environment owes the router (70_reset_and_hazards.md R236, R237, R238), the frames of
operations, and what a run without fault is. -/

namespace Sys2Proof.Machine

/-- An array of `n` rows of `m` entries. -/
def Shaped {α : Type} (g : Grid α) (n m : Nat) : Prop := g.length = n ∧ ∀ row ∈ g, row.length = m

/-- A flit on virtual channel `v`, its payload of `W` bits (30_encoding.md R70). -/
def FlitOn (par : Params) (v : Nat) (f : Flit) : Prop := f.vc = v ∧ f.payload < 2 ^ par.W

/-- A flit on some virtual channel of the router, its payload of `W` bits. -/
def FlitOk (par : Params) (f : Flit) : Prop := f.vc < par.V ∧ f.payload < 2 ^ par.W

/-- The latched configuration of a `MODE = LUT` router (10_state.md R42 to R44): `my_id` names a
group, the tables have their sizes and `N`-bit entries. -/
def CfgOk (par : Params) (c : Cfg) : Prop :=
  par.isLut = true →
    c.myId < par.NRD ∧ c.lutL.length = par.NLD ∧ c.lutR.length = par.NRD ∧
      (∀ m ∈ c.lutL, m < 2 ^ par.N) ∧ (∀ m ∈ c.lutR, m < 2 ^ par.N)

/-- The bounds of a router's state: R48 (a), the widths and index ranges of R20 to R29, and that a
queue holds only flits of its own virtual channel. -/
structure RouterOk (par : Params) (r : Router) : Prop where
  qShape : Shaped r.q par.N par.V
  caShape : Shaped r.ca par.N par.V
  coShape : Shaped r.co par.N par.V
  outDestShape : Shaped r.outDest par.N par.V
  isLocalShape : Shaped r.isLocal par.N par.V
  igpShape : Shaped r.igp par.N par.V
  arbOutShape : r.arbOut.length = par.N
  arbVcShape : r.arbVc.length = par.N
  eqShape : r.eq.length = par.N
  qBound : ∀ p < par.N, ∀ v < par.V, (r.qAt p v).length ≤ par.B
  qFlits : ∀ p < par.N, ∀ v < par.V, ∀ f ∈ r.qAt p v, FlitOn par v f
  caBound : ∀ k < par.N, ∀ v < par.V, r.caAt k v ≤ par.B
  coBound : ∀ p < par.N, ∀ v < par.V, r.coAt p v ≤ par.B
  outDestBound : ∀ p < par.N, ∀ v < par.V, ∀ m, r.outDestAt p v = some m → m < 2 ^ par.N
  isLocalBound : ∀ p < par.N, ∀ v < par.V, ∀ m, r.isLocalAt p v = some m → m < 2 ^ par.N
  arbOutBound : ∀ k < par.N, r.arbOutAt k < par.N
  arbVcBound : ∀ p < par.N, r.arbVcAt p < par.V
  eqBound : ∀ k < par.N, (r.eqAt k).length ≤ par.E
  eqFlits : ∀ k < par.N, ∀ f ∈ r.eqAt k, FlitOk par f
  cfgOk : CfgOk par r.cfg

/-- The bounds of the tick's values: VCs, flits and masks within their ranges. -/
structure TickOk (par : Params) (t : TickVals) : Prop where
  dmShape : t.dm.length = par.N
  frShape : t.fr.length = par.N
  cpShape : t.cp.length = par.N
  vcBound : ∀ p v, t.vcAt p = some v → v < par.V
  fOk : ∀ p f, t.fAt p = some f → FlitOk par f
  frOk : ∀ p f, t.frAt p = some f → FlitOk par f
  dmBound : ∀ p, t.dmAt p < 2 ^ par.N

/-- The environment record has its shape, and offers flits of the flit word's widths
(30_encoding.md R71). -/
structure EnvOk (par : Params) (e : Env) : Prop where
  flitShape : e.inFlit.length = par.N
  creditShape : Shaped e.inCredit par.N par.V
  flitFits : ∀ p f, e.flitAt p = some f → f.vc < 2 ^ par.VCW ∧ f.payload < 2 ^ par.W

/-- The invariant of the model. After a fault nothing but the fault record is bound
(60_exceptions.md R209). -/
def InBounds (s : State) : Prop :=
  (s.r.fault = none → RouterOk s.par s.r) ∧ TickOk s.par s.tv ∧ EnvOk s.par s.env

/-! ### Obligations of the environment -/

/-- The credits an upstream sender holds for every `(p, v)` mirror the router: what it does not hold
is in the queue or owed to it (43_credit_flow.md R154, R158; 70_reset_and_hazards.md R236). -/
def UpstreamMirror (s : State) (held : Nat → Nat → Nat) : Prop :=
  ∀ p < s.par.N, ∀ v < s.par.V, held p v + (s.r.qAt p v).length + s.r.coAt p v = s.par.B

/-- R236: a flit is offered on a VC of the router, and only by a sender that holds a credit for it. -/
def SendersObey (s : State) (held : Nat → Nat → Nat) : Prop :=
  ∀ p < s.par.N, ∀ f, s.env.flitAt p = some f → f.vc < s.par.V ∧ 1 ≤ held p f.vc

/-- How many flits of VC `v` a list holds. -/
def countVc (v : Nat) (l : List Flit) : Nat := l.countP fun f => f.vc == v

/-- The flits a downstream receiver was given and has not yet returned a credit for: what the router
has no credit for is staged or with the receiver (43_credit_flow.md R157). -/
def DownstreamMirror (s : State) (due : Nat → Nat → Nat) : Prop :=
  ∀ k < s.par.N, ∀ v < s.par.V, s.r.caAt k v + countVc v (s.r.eqAt k) + due k v = s.par.B

/-- The value of an offered credit message, 0 when there is none (R150). -/
def amountAt (e : Env) (k v : Nat) : Nat :=
  match e.creditAt k v with
  | some a => a.toNat
  | none => 0

/-- R238: a credit is returned only for a flit that was delivered and not yet credited. -/
def ReceiversHonest (s : State) (due : Nat → Nat → Nat) : Prop :=
  ∀ k < s.par.N, ∀ v < s.par.V, amountAt s.env k v ≤ due k v

/-- The part of R237 that the hardware can be hurt by without a fault being raised earlier: while no
mask is stored for `(p, v)`, its queue does not begin with a continuation flit. -/
def FrontsOk (s : State) : Prop :=
  ∀ p < s.par.N, ∀ v < s.par.V, s.r.outDestAt p v = none →
    ∀ f, (s.r.qAt p v).head? = some f → isHeader f = true

/-- R237 at an empty queue with no stored mask: the first flit to arrive is a header. -/
def FirstIsHeader (s : State) : Prop :=
  ∀ p < s.par.N, ∀ f, s.env.flitAt p = some f → s.r.qAt p f.vc = [] →
    s.r.outDestAt p f.vc = none → isHeader f = true

/-- The packet order of R237 along a queue: headers and continuation flits as `opn`, whether a packet is
open before the first flit, and the terminal flits on the way ask for. -/
def inPacketOrder : (opn : Bool) → List Flit → Bool
  | _, [] => true
  | opn, f :: rest => (isHeader f != opn) && inPacketOrder (!isTerminal f) rest

/-- R237: the flit a sender offers continues the packet order of its queue, where `opn p v` says that
the queue's last granted flit left a packet open. -/
def SendersKeepPacketOrder (s : State) (opn : Nat → Nat → Bool) : Prop :=
  ∀ p < s.par.N, ∀ f, s.env.flitAt p = some f →
    inPacketOrder (opn p f.vc) (s.r.qAt p f.vc ++ [f]) = true

/-- An open packet of input `(p, v)` has output `k` among its destinations. -/
def Holds (s : State) (opn : Nat → Nat → Bool) (p v k : Nat) : Prop :=
  opn p v = true ∧ ∃ m, s.r.outDestAt p v = some m ∧ m.testBit k = true

/-- The packets in flight (42_arbitration.md R141, R142), `opn p v` saying that a header of `(p, v)` was
granted and its packet's terminal flit was not: every queue goes on in packet order, an open packet
has its mask stored, and the packet flag of `(k, v)` is false exactly while one open packet, and no
other, holds it. -/
structure PacketsOk (s : State) (opn : Nat → Nat → Bool) : Prop where
  order : ∀ p < s.par.N, ∀ v < s.par.V, inPacketOrder (opn p v) (s.r.qAt p v) = true
  masked : ∀ p < s.par.N, ∀ v < s.par.V, opn p v = true → s.r.outDestAt p v ≠ none
  held : ∀ k < s.par.N, ∀ v < s.par.V,
    (s.r.igpAt k v = false ↔ ∃ p < s.par.N, Holds s opn p v k)
  alone : ∀ k < s.par.N, ∀ v < s.par.V, ∀ p < s.par.N, ∀ p' < s.par.N,
    Holds s opn p v k → Holds s opn p' v k → p = p'

/-! ### Frames and runs -/

/-- An operation of the router left everything but the router, the tick's values and the environment
record as it was. -/
def SameOutside (s t : State) : Prop :=
  t.par = s.par ∧ t.rst = s.rst ∧ t.cfgIn = s.cfgIn ∧ t.out = s.out ∧ t.inst = s.inst ∧
    t.draws = s.draws ∧ t.sel = s.sel

/-- An operation wrote the tick's values alone. -/
def OnlyTickValues (s t : State) : Prop := SameOutside s t ∧ t.r = s.r ∧ t.env = s.env

/-- The fault `(code, info)` was raised: it is recorded, the tick's values are gone and there is no
output record (60_exceptions.md R209). -/
def Raised (t : State) (code : Code) (info : Nat) : Prop :=
  t.r.fault = some ⟨code, info⟩ ∧ t.tv = TickVals.idle t.par ∧ t.out = none

/-- A safe run of the ticks number `0` to `n`: tick number `j` meets the environment record `envs j` and
completes with no fault recorded (60_exceptions.md R209: "any claim about a run has 'no fault' as a
premise or as part of its conclusion"). -/
def SafeRun (envs : Nat → Env) (run : Nat → State) (n : Nat) : Prop :=
  ∀ j ≤ n, exec .tick ((run j).withEnv (envs j)) = .next (run (j + 1)) ∧ (run (j + 1)).r.fault = none

/-- The grants of GRANT.COMMIT as the earlier phases of a tick leave them (42_arbitration.md R138,
R140): a granted input has a flit of a non-empty queue, room for one more owed credit, no storage
conflict, and every output granted at most once, with a credit. -/
structure GrantsReady (s : State) : Prop where
  ready : ∀ i < s.par.N, s.tv.fullAt i = true → ∃ v f, s.tv.vcAt i = some v ∧
    s.tv.fAt i = some f ∧ v < s.par.V ∧ s.r.qAt i v ≠ [] ∧ s.r.coAt i v + 1 ≤ s.par.B ∧
    (s.par.rwForbidden = true → s.tv.pushedAt i v = false) ∧
    ∀ k < s.par.N, s.tv.grantAt i k = true → 1 ≤ s.r.caAt k v
  once : ∀ i < s.par.N, ∀ j < s.par.N, ∀ k < s.par.N, s.tv.fullAt i = true →
    s.tv.fullAt j = true → s.tv.grantAt i k = true → s.tv.grantAt j k = true → i = j

/-- The instructions in order, up to the first that does not answer a next state. -/
def execAll : List Instr → State → Host.Outcome State Fault Refusal
  | [], s => .next s
  | i :: rest, s =>
    match exec i s with
    | .next t => execAll rest t
    | .fault e => .fault e
    | .refused e => .refused e

/-- The operations of one tick, one by one, in the order of 30_encoding.md R85: in phase P5 every port
is offered the four route operations, of which its key selects one. -/
def tickScript (par : Params) : List Instr :=
  [.creditRx, .ingressRx, .vcSelect, .peek] ++
    (List.range par.N).flatMap
      (fun p => [.routeSr p, .routeLutUcast p, .routeLutMcast p, .routeHold p]) ++
    [.reqBuild, .mcastWithdraw, .outArb, .mcastForce, .grantFinal, .grantCommit, .xbar, .egressTx,
      .creditTx]

/-! ### What a tick took and gave, read from its output record -/

/-- Whether a credit for `(p, v)` was accepted upstream in the tick whose output record is `o` and
environment `e` (R192: "accepted iff offered and env.credit_ready"). -/
def creditAccepted (o : Out) (e : Env) (p v : Nat) : Nat :=
  ((cell none o.credit p v).isSome && e.creditReadyAt p v).toNat

/-- Whether a flit of VC `v` was delivered at egress port `k` (R192). -/
def deliveredOn (o : Out) (k v : Nat) : Nat :=
  (entry false o.delivered k && ((entry none o.flit k).map fun f => f.vc == v).getD false).toNat

end Sys2Proof.Machine
end

