-- ==== Sys2Proof/Certificates/Slice0/Obligations.lean ====
section
/-! DEFINITION. The statements for the provers. Each docstring names the rule of the spec, and the
decision of the spec or the log entry of the model that it rests on. -/

open Sys2Proof Sys2Proof.Machine

/-! ### Encodings -/

/-- Decoding the record of any operation or message of the router gives it back, with every operand
at every value its encoding admits: 30_encoding.md R71 (flit word), R81, R84. The cells of the record
are the model's choice (log entry 4). -/
def Obligations.DecodeEncodeRoundTrip : Prop :=
  ∀ (par : Params) (i : Instr), i.wellFormed par = true → decode par (encode par i) = .ok i

/-- The flit word of R71 and the flit determine each other: every flit of the format's widths has an
`FW`-bit word that reads back as it, and every `FW`-bit word is the word of the flit it reads as. The
layout is the spec's decision D4, the tag numbers D5. -/
def Obligations.FlitWordIsABijection : Prop :=
  ∀ par : Params,
    (∀ f : Flit, f.vc < 2 ^ par.VCW → f.payload < 2 ^ par.W →
      packFlit par f < 2 ^ par.FW ∧ unpackFlit par (packFlit par f) = f) ∧
    (∀ w < 2 ^ par.FW,
      packFlit par (unpackFlit par w) = w ∧ (unpackFlit par w).vc < 2 ^ par.VCW ∧
        (unpackFlit par w).payload < 2 ^ par.W)

/-- The key of a flit selects the operation R84 names: a continuation flit is held in either mode, a
header is source-routed in `MODE = SR`, and in `MODE = LUT` its flag tells unicast from multicast.
The key is the spec's decision D4. -/
def Obligations.KeySelectsTheRouteOperation : Prop :=
  ∀ (par : Params) (f : Flit),
    keyOp (routeKey par f) =
      if f.pos = .body ∨ f.pos = .tail then .hold
      else if par.isLut = false then .sr
      else if f.payload.testBit par.MF then .mcast
      else .ucast

/-- Words written out from the encodings: flit words of 95_test_vectors.md section 1, keys of R84, a
credit message, each decoded. -/
def Obligations.WrittenWordsDecode : Prop :=
  decode Params.cfgA [1, 0x4A001, 2] = .ok (.flitHead 2 0 0xA001) ∧
    decode Params.cfgA [1, 0x300C1, 2] = .ok (.flitTail 2 1 0x00C1) ∧
    decode Params.cfgA [1, 0x10001, 1] = .ok (.flitBody 1 1 0x0001) ∧
    decode Params.cfgB [1, 0x60004, 3] = .ok (.flitSngl 3 0 0x0004) ∧
    decode Params.cfgA [0, 0b0110, 3] = .ok (.routeSr 3) ∧
    decode Params.cfgB [0, 0b1110, 0] = .ok (.routeLutUcast 0) ∧
    decode Params.cfgB [0, 0b1101, 1] = .ok (.routeLutMcast 1) ∧
    decode Params.cfgB [0, 0b1011, 1] = .ok (.routeHold 1) ∧
    decode Params.cfgA [2, 1, 3, 0] = .ok (.creditMsg 3 0 1)

/-! ### Steps -/

/-- When an operation is asked for and its record decodes to a well-formed instruction, the step is
`exec` of it on the state without the request. The request is the model's (log entry 4). -/
def Obligations.StepRunsTheDecodedInstruction : Prop :=
  ∀ (s : State) (cells : Cells) (i : Instr), s.par.ok = true → s.sel = some cells →
    decode s.par cells = .ok i → i.wellFormed s.par = true → step s = exec i (s.withSel none)

/-- When nothing is asked for, a step is a tick, or the RESET that the surroundings apply between two
ticks (70_reset_and_hazards.md R231, decision D24; log entry 3). -/
def Obligations.StepWithoutRequestTicksOrResets : Prop :=
  ∀ s : State, s.par.ok = true → s.sel = none →
    step s = if s.rst then exec .reset s else exec .tick s

/-! ### RESET and faults -/

/-- RESET gives every field its value of 10_state.md R46, latches the configuration inputs, and
records the first configuration fault in the order F6, F8, F7 (70_reset_and_hazards.md R230), in any
state of a router that can be built, a faulted one too. Inputs of the widths of 30_encoding.md R82 are
latched as they are (10_state.md R42 to R44). Several of the values are the spec's decisions (D13, D14,
D20, D24). F7 is of `MODE = LUT` alone (00_scope.md R6, read with R230 in log entry 11). The model's
choices among the clauses: `t.tv` empty (log entry 10), `latchCfg`'s cut of wider inputs (log entry
14), `cfg` empty in `MODE = SR` (log entry 15), `t.out` none (log entry 17), the other fields' values
beside a configuration fault (log entry 25). The predicate behind F7 is free (log entry 12), so no
concrete state is known to raise it. -/
def Obligations.ResetGivesTheResetState : Prop :=
  ∀ s : State, s.par.ok = true → ∃ t, exec .reset s = .next t ∧
    (∀ p < s.par.N, ∀ v < s.par.V,
      t.r.qAt p v = [] ∧ t.r.caAt p v = s.par.B ∧ t.r.coAt p v = 0 ∧ t.r.igpAt p v = true ∧
        t.r.outDestAt p v = none ∧ t.r.isLocalAt p v = none) ∧
    (∀ k < s.par.N, t.r.arbOutAt k = 0 ∧ t.r.arbVcAt k = 0 ∧ t.r.eqAt k = []) ∧
    t.r.cfg = latchCfg s.par s.cfgIn ∧
    (s.par.isLut = true →
      (s.cfgIn.myId < 2 ^ s.par.RIDW → t.r.cfg.myId = s.cfgIn.myId) ∧
      t.r.cfg.lutL.length = s.par.NLD ∧ t.r.cfg.lutR.length = s.par.NRD ∧
      (∀ j < s.par.NLD, s.cfgIn.lutL.getD j 0 < 2 ^ s.par.N →
        t.r.cfg.lutL.getD j 0 = s.cfgIn.lutL.getD j 0) ∧
      ∀ g < s.par.NRD, s.cfgIn.lutR.getD g 0 < 2 ^ s.par.N →
        t.r.cfg.lutR.getD g 0 = s.cfgIn.lutR.getD g 0) ∧
    (s.par.isLut = false → t.r.cfg = { myId := 0, lutL := [], lutR := [] }) ∧
    t.r.fault =
      (if s.par.B = 0 then some ⟨.configZeroDepth, 0⟩
      else if s.par.isLut = true ∧ s.par.NRD ≤ t.r.cfg.myId then
        some ⟨.configBadIdentity, t.r.cfg.myId⟩
      else if s.par.isLut = true ∧ tableRuleHolds s.par t.r.cfg = false then some ⟨.configBadTable, 0⟩
      else none) ∧
    t.par = s.par ∧ t.inst = s.inst ∧ t.out = none ∧ t.tv = TickVals.idle s.par

/-- A recorded fault is terminal (60_exceptions.md R209, R211): no operation of the router acts on a
faulted router, and what does answer a next state is RESET, or a message of a peer, which leaves the
router as it is (that a message can still be offered is log entry 6). -/
def Obligations.OnlyResetLeavesTheFaultState : Prop :=
  ∀ (i : Instr) (s t : State) (e : FaultRec), s.r.fault = some e → exec i s = .next t →
    i = .reset ∨
      ((∃ p v x, i = .flitBody p v x ∨ i = .flitTail p v x ∨ i = .flitHead p v x ∨
          i = .flitSngl p v x) ∨
        ∃ k v a, i = .creditMsg k v a) ∧ t.r = s.r

/-- A tick on a faulted router is no step: the run has been aborted (46_router_tick.md R190). -/
def Obligations.FaultedRouterTakesNoTick : Prop :=
  ∀ (s : State) (e : FaultRec), s.r.fault = some e →
    exec .tick s = .fault (.aborted e.code e.info)

/-- The latched configuration is constant between resets (10_state.md R41, R64, R251), whatever the
configuration inputs become: every instruction but RESET that raises no fault keeps it, and the
parameters. -/
def Obligations.ConfigurationIsReadOnceAtReset : Prop :=
  ∀ (i : Instr) (s t : State), i ≠ .reset → exec i s = .next t →
    t.par = s.par ∧ (t.r.fault = none → t.r.cfg = s.r.cfg)

/-! ### Messages -/

/-- A flit message of each position tag presents that flit on the ingress channel of its port and
changes nothing else (30_encoding.md R70, R73, R87). That a message is presented, and not stored by
itself, is read from R17 (log entry 6). -/
def Obligations.FlitMessageIsOffered : Prop :=
  ∀ (s : State) (p vc : Nat) (x : Payload), s.env.inFlit.length = s.par.N → p < s.par.N →
    vc < 2 ^ s.par.VCW → x < 2 ^ s.par.W → ∀ (i : Instr) (pos : Pos),
    (i = .flitBody p vc x ∧ pos = .body) ∨ (i = .flitTail p vc x ∧ pos = .tail) ∨
      (i = .flitHead p vc x ∧ pos = .head) ∨ (i = .flitSngl p vc x ∧ pos = .sngl) →
    ∃ t, exec i s = .next t ∧ t.env.flitAt p = some ⟨pos, vc, x⟩ ∧
      (∀ p', p' ≠ p → t.env.flitAt p' = s.env.flitAt p') ∧
      t.env = { s.env with inFlit := t.env.inFlit } ∧ t.r = s.r ∧ t.tv = s.tv ∧ SameOutside s t

/-- A credit message presents its bit on the credit channel of its pair and changes nothing else
(30_encoding.md R81, R87; log entry 6). -/
def Obligations.CreditMessageIsOffered : Prop :=
  ∀ (s : State) (k v : Nat) (a : BitVec 1), Shaped s.env.inCredit s.par.N s.par.V →
    k < s.par.N → v < s.par.V →
    ∃ t, exec (.creditMsg k v a) s = .next t ∧ t.env.creditAt k v = some a ∧
      (∀ k' v', (k', v') ≠ (k, v) → t.env.creditAt k' v' = s.env.creditAt k' v') ∧
      t.env = { s.env with inCredit := t.env.inCredit } ∧ t.r = s.r ∧ t.tv = s.tv ∧ SameOutside s t

/-! ### Credit counters -/

/-- CREDIT.RX adds the amount of every offered message, when none would take its counter past `B`
(43_credit_flow.md R150), and takes the messages; nothing else changes. That it takes them
without condition is decision D25. -/
def Obligations.CreditRxAddsEveryAmount : Prop :=
  ∀ s : State, s.r.fault = none →
    (∀ k < s.par.N, ∀ v < s.par.V, ∀ a, s.env.creditAt k v = some a →
      s.r.caAt k v + a.toNat ≤ s.par.B) →
    ∃ t, exec .creditRx s = .next t ∧
      (∀ k < s.par.N, ∀ v < s.par.V,
        t.r.caAt k v = s.r.caAt k v + amountAt s.env k v ∧ t.env.creditAt k v = none ∧
          cell false t.tv.out.creditTaken k v = (s.env.creditAt k v).isSome) ∧
      t.r = { s.r with ca := t.r.ca } ∧ t.env = { s.env with inCredit := t.env.inCredit } ∧
      t.tv = { s.tv with out := { s.tv.out with creditTaken := t.tv.out.creditTaken } } ∧
      SameOutside s t

/-- CREDIT.RX raises F3 for the first pair, in ascending index, whose counter the message would take
past `B` (43_credit_flow.md R150; the order is decision D20, 60_exceptions.md R210). -/
def Obligations.CreditRxFaultsOnOverflow : Prop :=
  ∀ (s : State) (k v : Nat) (a : BitVec 1), s.r.fault = none → k < s.par.N → v < s.par.V →
    s.env.creditAt k v = some a → s.par.B < s.r.caAt k v + a.toNat →
    (∀ k' < s.par.N, ∀ v' < s.par.V, k' < k ∨ (k' = k ∧ v' < v) → ∀ a',
      s.env.creditAt k' v' = some a' → s.r.caAt k' v' + a'.toNat ≤ s.par.B) →
    ∃ t, exec .creditRx s = .next t ∧ Raised t .creditAvailOverflow (k * s.par.V + v)

/-- CREDIT.DEC lowers the one counter by one (43_credit_flow.md R152); on a counter that holds 0, which
the rule excludes, the model has no meaning (log entry 9). That it acts on a pair no input is granted
is the model's (log entry 27). -/
def Obligations.CreditDecLowersOneCounter : Prop :=
  ∀ (s : State) (k v : Nat), s.r.fault = none → Shaped s.r.ca s.par.N s.par.V →
    k < s.par.N → v < s.par.V →
    (1 ≤ s.r.caAt k v → ∃ t, exec (.creditDec k v) s = .next t ∧
      t.r.caAt k v + 1 = s.r.caAt k v ∧
      (∀ k' v', (k', v') ≠ (k, v) → t.r.caAt k' v' = s.r.caAt k' v') ∧
      t.r = { s.r with ca := t.r.ca } ∧ t.tv = s.tv ∧ t.env = s.env ∧ SameOutside s t) ∧
    (s.r.caAt k v = 0 → exec (.creditDec k v) s = .refused (.creditDecAtZero k v))

/-- CREDIT.OWE raises the one counter by one, and raises F4 where it would pass `B`
(43_credit_flow.md R153). That it acts without `full[i]` and on a VC other than `vc[i]` is the model's
(log entry 27). -/
def Obligations.CreditOweRaisesOneCounter : Prop :=
  ∀ (s : State) (i v : Nat), s.r.fault = none → Shaped s.r.co s.par.N s.par.V →
    i < s.par.N → v < s.par.V →
    (s.r.coAt i v + 1 ≤ s.par.B → ∃ t, exec (.creditOwe i v) s = .next t ∧
      t.r.coAt i v = s.r.coAt i v + 1 ∧
      (∀ i' v', (i', v') ≠ (i, v) → t.r.coAt i' v' = s.r.coAt i' v') ∧
      t.r = { s.r with co := t.r.co } ∧ t.tv = s.tv ∧ t.env = s.env ∧ SameOutside s t) ∧
    (s.par.B < s.r.coAt i v + 1 → ∃ t, exec (.creditOwe i v) s = .next t ∧
      Raised t .creditOwedOverflow (i * s.par.V + v))

/-- CREDIT.TX offers one credit for every pair that owes one and lowers its counter by one where the
offer is accepted (43_credit_flow.md R155); a refused offer leaves it (R156). -/
def Obligations.CreditTxReturnsOneCreditEach : Prop :=
  ∀ s : State, s.r.fault = none → ∃ t, exec .creditTx s = .next t ∧
    (∀ p < s.par.N, ∀ v < s.par.V,
      (0 < s.r.coAt p v → cell none t.tv.out.credit p v = some 1 ∧
        (s.env.creditReadyAt p v = true → t.r.coAt p v + 1 = s.r.coAt p v) ∧
        (s.env.creditReadyAt p v = false → t.r.coAt p v = s.r.coAt p v)) ∧
      (s.r.coAt p v = 0 → cell none t.tv.out.credit p v = none ∧ t.r.coAt p v = 0)) ∧
    t.r = { s.r with co := t.r.co } ∧ t.env = s.env ∧
    t.tv = { s.tv with out := { s.tv.out with credit := t.tv.out.credit } } ∧ SameOutside s t

/-! ### Ingress -/

/-- INGRESS.RX pushes every offered flit, whole, as the newest of the queue its VC names, when that
queue exists and is not full (45_ingress_vcselect.md R180); no other queue changes. That it takes
every flit is decision D25. -/
def Obligations.IngressRxQueuesEveryFlit : Prop :=
  ∀ s : State, s.r.fault = none →
    (∀ p < s.par.N, ∀ f, s.env.flitAt p = some f →
      f.vc < s.par.V ∧ (s.r.qAt p f.vc).length < s.par.B) →
    ∃ t, exec .ingressRx s = .next t ∧
      (∀ p < s.par.N, ∀ v < s.par.V,
        (∀ f, s.env.flitAt p = some f → f.vc = v →
          t.r.qAt p v = s.r.qAt p v ++ [f] ∧ t.tv.pushedAt p v = true) ∧
        ((∀ f, s.env.flitAt p = some f → f.vc ≠ v) →
          t.r.qAt p v = s.r.qAt p v ∧ t.tv.pushedAt p v = false)) ∧
      (∀ p < s.par.N, t.env.flitAt p = none ∧
        entry false t.tv.out.inTaken p = (s.env.flitAt p).isSome) ∧
      t.r = { s.r with q := t.r.q } ∧ t.env = { s.env with inFlit := t.env.inFlit } ∧
      t.tv = { s.tv with
        pushed := t.tv.pushed, out := { s.tv.out with inTaken := t.tv.out.inTaken } } ∧
      SameOutside s t

/-- INGRESS.RX raises, for the first port with a bad flit, F9 when its VC names no queue and F1 when
the queue is full (45_ingress_vcselect.md R180; F9 is decision D6, the order D20). That a queue of more
than `B` flits, which R180 does not speak of, counts as full is the model's (log entry 16). -/
def Obligations.IngressRxFaultsOnBadFlit : Prop :=
  ∀ (s : State) (p : Nat) (f : Flit), s.r.fault = none → p < s.par.N →
    s.env.flitAt p = some f →
    (∀ p' < p, ∀ f', s.env.flitAt p' = some f' →
      f'.vc < s.par.V ∧ (s.r.qAt p' f'.vc).length < s.par.B) →
    (s.par.V ≤ f.vc → ∃ t, exec .ingressRx s = .next t ∧ Raised t .badVc p) ∧
    (f.vc < s.par.V → s.par.B ≤ (s.r.qAt p f.vc).length →
      ∃ t, exec .ingressRx s = .next t ∧ Raised t .queueOverflow (p * s.par.V + f.vc))

/-- VC.SELECT picks, for every port with a non-empty queue, a VC whose queue is not empty, by the
rotating pick from the port's pointer, which moves past it; a port with none is not valid and keeps
its pointer (45_ingress_vcselect.md R182). The pick is decision D13. -/
def Obligations.VcSelectPicksANonEmptyQueue : Prop :=
  ∀ s : State, s.r.fault = none → (∀ p < s.par.N, s.r.arbVcAt p < s.par.V) →
    ∃ t, exec .vcSelect s = .next t ∧
      (∀ p < s.par.N,
        (∀ v, t.tv.vcAt p = some v →
          v < s.par.V ∧ s.r.qAt p v ≠ [] ∧ t.r.arbVcAt p = (v + 1) % s.par.V ∧
            ∀ u < s.par.V, s.r.qAt p u ≠ [] →
              (v + s.par.V - s.r.arbVcAt p) % s.par.V ≤ (u + s.par.V - s.r.arbVcAt p) % s.par.V) ∧
        (t.tv.vcAt p = none →
          (∀ v < s.par.V, s.r.qAt p v = []) ∧ t.r.arbVcAt p = s.r.arbVcAt p) ∧
        entry false t.tv.inValid p = (t.tv.vcAt p).isSome) ∧
      t.r = { s.r with arbVc := t.r.arbVc } ∧ t.env = s.env ∧
      t.tv = { s.tv with inValid := t.tv.inValid, vc := t.tv.vc } ∧ SameOutside s t

/-- PEEK copies the front flit of the queue VC.SELECT chose, and changes no queue
(45_ingress_vcselect.md R184). -/
def Obligations.PeekCopiesTheFrontFlit : Prop :=
  ∀ s : State, s.r.fault = none →
    (∀ p < s.par.N, ∀ v, s.tv.vcAt p = some v → s.r.qAt p v ≠ []) →
    ∃ t, exec .peek s = .next t ∧
      (∀ p < s.par.N, ∀ v, s.tv.vcAt p = some v → t.tv.fAt p = (s.r.qAt p v).head?) ∧
      t.tv = { s.tv with f := t.tv.f } ∧ OnlyTickValues s t

/-! ### The arbiter -/

/-- The contract of the arbiter (40_priority_arbiter.md R100): the winner mask is zero exactly when no
requester is valid, and otherwise has exactly one bit, that of a valid requester; the pointer, its
only state, stays in `0..n-1`. -/
def Obligations.ArbiterPicksOneValidRequester : Prop :=
  ∀ (n ptr : Nat) (valid : Mask), 1 ≤ n → valid < 2 ^ n →
    (pickMask n ptr valid = 0 ↔ valid = 0) ∧
    (valid ≠ 0 → ∃ w < n, pick n ptr valid = some w ∧ valid.testBit w = true ∧
      pickMask n ptr valid = 2 ^ w) ∧
    (ptr < n → pickPtr n ptr valid < n)

/-- Fairness of the arbiter (40_priority_arbiter.md R104): among `n` requesters, one that stays valid is
granted within any `n` consecutive picks, whatever the others do and wherever the pointer starts. -/
def Obligations.ArbiterServesAWaitingRequester : Prop :=
  ∀ (n w : Nat) (valid ptr : Nat → Nat), w < n → ptr 0 < n →
    (∀ j, (valid j).testBit w = true) → (∀ j, ptr (j + 1) = pickPtr n (ptr j) (valid j)) →
    ∃ j < n, pick n (ptr j) (valid j) = some w

/-- ARB.PICK on an arbiter of the router: the winner is the first valid requester in the cyclic order
from its pointer, which moves to the one after it; with no valid requester the pointer stays
(40_priority_arbiter.md R101, R103; the search order is decision D14). No other pointer moves. -/
def Obligations.ArbPickRotatesItsPointer : Prop :=
  ∀ (s : State) (a : ArbId) (valid : Mask), s.r.fault = none → a.wellFormed s.par valid = true →
    s.r.arbOut.length = s.par.N → s.r.arbVc.length = s.par.N →
    ∃ t, exec (.arbPick a valid) s = .next t ∧
      (∀ k, a = .out k →
        (valid = 0 → t.tv.winner = 0 ∧ t.r.arbOutAt k = s.r.arbOutAt k) ∧
        (s.r.arbOutAt k < s.par.N → valid ≠ 0 → ∃ d < s.par.N, ∃ w < s.par.N,
          w = (s.r.arbOutAt k + d) % s.par.N ∧ valid.testBit w = true ∧
            (∀ d' < d, valid.testBit ((s.r.arbOutAt k + d') % s.par.N) = false) ∧
            t.tv.winner = 2 ^ w ∧ t.r.arbOutAt k = (w + 1) % s.par.N) ∧
        (∀ k', k' ≠ k → t.r.arbOutAt k' = s.r.arbOutAt k') ∧
        t.r = { s.r with arbOut := t.r.arbOut }) ∧
      (∀ p, a = .vc p →
        (valid = 0 → t.tv.winner = 0 ∧ t.r.arbVcAt p = s.r.arbVcAt p) ∧
        (s.r.arbVcAt p < s.par.V → valid ≠ 0 → ∃ d < s.par.V, ∃ w < s.par.V,
          w = (s.r.arbVcAt p + d) % s.par.V ∧ valid.testBit w = true ∧
            (∀ d' < d, valid.testBit ((s.r.arbVcAt p + d') % s.par.V) = false) ∧
            t.tv.winner = 2 ^ w ∧ t.r.arbVcAt p = (w + 1) % s.par.V) ∧
        (∀ p', p' ≠ p → t.r.arbVcAt p' = s.r.arbVcAt p') ∧
        t.r = { s.r with arbVc := t.r.arbVc }) ∧
      t.tv = { s.tv with winner := t.tv.winner } ∧ t.env = s.env ∧ SameOutside s t

/-! ### The route resolver -/

/-- ROUTE.SR on a source-routed header (41_route_resolver.md R111, R112): the mask has the descriptor's
local bits, and the selected remote port's bit when the rest of the route is not zero and the
selector names a port; the forwarded copy loses its first descriptor and keeps its opaque bits. The
field layout is decision D7, the selector past the end D8. -/
def Obligations.RouteSrResolvesTheFirstDescriptor : Prop :=
  ∀ (s : State) (p v : Nat) (f : Flit), s.r.fault = none → s.par.ok = true →
    s.par.isLut = false → TickOk s.par s.tv → Shaped s.r.outDest s.par.N s.par.V →
    p < s.par.N → s.tv.vcAt p = some v → s.tv.fAt p = some f → isHeader f = true →
    ∃ t, exec (.routeSr p) s = .next t ∧
      (∀ k, (t.tv.dmAt p).testBit k =
        ((decide (k < s.par.NL) && f.payload.testBit k) ||
          (decide (field f.payload s.par.DW (s.par.RW - s.par.DW) ≠ 0) &&
            decide (field f.payload s.par.NL s.par.RSELW < s.par.NR) &&
            decide (k = s.par.NL + field f.payload s.par.NL s.par.RSELW)))) ∧
      (∃ x, t.tv.frAt p = some { f with payload := x } ∧ x < 2 ^ s.par.W ∧
        ∀ b < s.par.W, x.testBit b =
          if b < s.par.RW then decide (b + s.par.DW < s.par.RW) && f.payload.testBit (b + s.par.DW)
          else f.payload.testBit b) ∧
      t.r.outDestAt p v = some (t.tv.dmAt p) ∧
      (∀ p' v', (p', v') ≠ (p, v) → t.r.outDestAt p' v' = s.r.outDestAt p' v') ∧
      (∀ p', p' ≠ p → t.tv.dmAt p' = s.tv.dmAt p' ∧ t.tv.frAt p' = s.tv.frAt p') ∧
      t.r = { s.r with outDest := t.r.outDest } ∧
      t.tv = { s.tv with dm := t.tv.dm, fr := t.tv.fr } ∧ t.env = s.env ∧ SameOutside s t

/-- Round trip of source routing (41_route_resolver.md R113): at hop `h + 1` the route field is the
original one less its first `h` descriptors, the opaque bits are as they were, and the mask computed
there is that of the shifted original route. -/
def Obligations.SourceRouteSurvivesItsHops : Prop :=
  ∀ (par : Params) (x : Payload) (h : Nat), par.RW ≤ par.W → x < 2 ^ par.W →
    routeField par ((srForward par)^[h] x) = routeField par x >>> (h * par.DW) ∧
    srOpaque par ((srForward par)^[h] x) = srOpaque par x ∧
    srMask par (routeField par ((srForward par)^[h] x)) =
      srMask par (routeField par x >>> (h * par.DW))

/-- ROUTE.LUT.UCAST on a unicast header (41_route_resolver.md R114, R115): the local-tier entry in this
router's own group, the remote-tier entry of another group, the zero mask past a table's end; the
header is not changed. The layout is decision D9, the read past the end D10, `is_local` D12. -/
def Obligations.RouteUcastReadsOneTable : Prop :=
  ∀ (s : State) (p v : Nat) (f : Flit), s.r.fault = none → s.par.isLut = true →
    TickOk s.par s.tv → Shaped s.r.outDest s.par.N s.par.V →
    Shaped s.r.isLocal s.par.N s.par.V → p < s.par.N →
    s.tv.vcAt p = some v → s.tv.fAt p = some f → isHeader f = true →
    f.payload.testBit s.par.MF = false →
    ∃ t, exec (.routeLutUcast p) s = .next t ∧
      t.tv.dmAt p =
        (if field f.payload s.par.LIDW s.par.RIDW = s.r.cfg.myId then
          s.r.cfg.lutL.getD (field f.payload 0 s.par.LIDW) 0
        else s.r.cfg.lutR.getD (field f.payload s.par.LIDW s.par.RIDW) 0) ∧
      t.tv.frAt p = some f ∧ t.r.outDestAt p v = some (t.tv.dmAt p) ∧
      t.r.isLocalAt p v =
        some (if field f.payload s.par.LIDW s.par.RIDW = s.r.cfg.myId then t.tv.dmAt p else 0) ∧
      (∀ p' v', (p', v') ≠ (p, v) →
        t.r.outDestAt p' v' = s.r.outDestAt p' v' ∧ t.r.isLocalAt p' v' = s.r.isLocalAt p' v') ∧
      (∀ p', p' ≠ p → t.tv.dmAt p' = s.tv.dmAt p' ∧ t.tv.frAt p' = s.tv.frAt p') ∧
      t.r = { s.r with outDest := t.r.outDest, isLocal := t.r.isLocal } ∧
      t.tv = { s.tv with dm := t.tv.dm, fr := t.tv.fr } ∧ t.env = s.env ∧ SameOutside s t

/-- ROUTE.LUT.MCAST on a multicast header (41_route_resolver.md R116, R117): an output is in the mask
when a requested local destination's entry names it and this router's group is requested, or when
the entry of another requested group names it; `is_local` holds the first part; the flit is not yet
rewritten. The formula is decision D11, the layout D9 and D32. -/
def Obligations.RouteMcastUnitesTableEntries : Prop :=
  ∀ (s : State) (p v : Nat) (f : Flit), s.r.fault = none → s.par.isLut = true →
    TickOk s.par s.tv → Shaped s.r.outDest s.par.N s.par.V →
    Shaped s.r.isLocal s.par.N s.par.V → p < s.par.N →
    s.tv.vcAt p = some v → s.tv.fAt p = some f → isHeader f = true →
    f.payload.testBit s.par.MF = true →
    ∃ t loc, exec (.routeLutMcast p) s = .next t ∧
      t.r.isLocalAt p v = some loc ∧
      (∀ k, loc.testBit k = true ↔
        s.r.cfg.myId < s.par.NRD ∧ f.payload.testBit (s.par.NLD + s.r.cfg.myId) = true ∧
          ∃ j < s.par.NLD, f.payload.testBit j = true ∧
            (s.r.cfg.lutL.getD j 0).testBit k = true) ∧
      (∀ k, (t.tv.dmAt p).testBit k = true ↔
        loc.testBit k = true ∨
          ∃ g < s.par.NRD, g ≠ s.r.cfg.myId ∧ f.payload.testBit (s.par.NLD + g) = true ∧
            (s.r.cfg.lutR.getD g 0).testBit k = true) ∧
      t.tv.frAt p = some f ∧ t.r.outDestAt p v = some (t.tv.dmAt p) ∧
      (∀ p' v', (p', v') ≠ (p, v) →
        t.r.outDestAt p' v' = s.r.outDestAt p' v' ∧ t.r.isLocalAt p' v' = s.r.isLocalAt p' v') ∧
      (∀ p', p' ≠ p → t.tv.dmAt p' = s.tv.dmAt p' ∧ t.tv.frAt p' = s.tv.frAt p') ∧
      t.r = { s.r with outDest := t.r.outDest, isLocal := t.r.isLocal } ∧
      t.tv = { s.tv with dm := t.tv.dm, fr := t.tv.fr } ∧ t.env = s.env ∧ SameOutside s t

/-- ROUTE.HOLD on a continuation flit (41_route_resolver.md R118): the stored mask of its queue is
reused and the flit forwarded untouched, nothing stored; while no mask is stored it raises F10
(decision D21). -/
def Obligations.RouteHoldReusesTheStoredMask : Prop :=
  ∀ (s : State) (p v : Nat) (f : Flit), s.r.fault = none → TickOk s.par s.tv → p < s.par.N →
    s.tv.vcAt p = some v → s.tv.fAt p = some f → isContinuation f = true →
    (∀ m, s.r.outDestAt p v = some m → ∃ t, exec (.routeHold p) s = .next t ∧
      t.tv.dmAt p = m ∧ t.tv.frAt p = some f ∧
      (∀ p', p' ≠ p → t.tv.dmAt p' = s.tv.dmAt p' ∧ t.tv.frAt p' = s.tv.frAt p') ∧
      t.tv = { s.tv with dm := t.tv.dm, fr := t.tv.fr } ∧ OnlyTickValues s t) ∧
    (s.r.outDestAt p v = none → ∃ t, exec (.routeHold p) s = .next t ∧
      Raised t .outDestUndefined (p * s.par.V + v))

/-- A route operation that the key of a port's flit does not select leaves the state as it is
(30_encoding.md R84; that an unselected operation has no effect is log entry 8). -/
def Obligations.UnselectedRouteHasNoEffect : Prop :=
  ∀ (s : State) (p v : Nat) (f : Flit) (op : RouteOp), s.r.fault = none → p < s.par.N →
    s.tv.vcAt p = some v → s.tv.fAt p = some f → keyOp (routeKey s.par f) ≠ op →
    exec (op.instr p) s = .next s

/-- A route operation on a port with no valid flit sets the port's mask to the zero mask
(41_route_resolver.md R110) and writes no state; that it clears the port's forwarded flit too is log
entry 8. -/
def Obligations.RouteWithoutFlitClearsTheMask : Prop :=
  ∀ (s : State) (p : Nat) (op : RouteOp), s.r.fault = none → p < s.par.N →
    (s.tv.vcAt p = none ∨ s.tv.fAt p = none) →
    ∃ t, exec (op.instr p) s = .next t ∧ t.tv.dmAt p = 0 ∧ t.tv.frAt p = none ∧
      (∀ p', p' ≠ p → t.tv.dmAt p' = s.tv.dmAt p' ∧ t.tv.frAt p' = s.tv.frAt p') ∧
      t.tv = { s.tv with dm := t.tv.dm, fr := t.tv.fr } ∧ OnlyTickValues s t

/-! ### Arbitration -/

/-- REQ.BUILD requests exactly the legs that meet terms (a) to (d) (42_arbitration.md R130; term (d) in
every variant is decision D18). -/
def Obligations.ReqBuildGatesEveryLeg : Prop :=
  ∀ s : State, s.r.fault = none → ∃ t, exec .reqBuild s = .next t ∧
    (∀ i < s.par.N, ∀ k < s.par.N,
      (t.tv.reqAt i k = true ↔
        ∃ v f, s.tv.vcAt i = some v ∧ s.tv.fAt i = some f ∧ s.r.caAt k v ≠ 0 ∧
          (s.tv.dmAt i).testBit k = true ∧ (s.r.igpAt k v = true ∨ isContinuation f = true) ∧
          (s.r.eqAt k).length < s.par.E)) ∧
    t.tv = { s.tv with req := t.tv.req } ∧ OnlyTickValues s t

/-- MCAST.WITHDRAW keeps the requests of an input all of whose destinations are requested, and
withdraws every other input whole (42_arbitration.md R132; for every input, decision D16). -/
def Obligations.WithdrawIsAllOrNothing : Prop :=
  ∀ s : State, s.r.fault = none → (∀ i < s.par.N, s.tv.dmAt i < 2 ^ s.par.N) →
    ∃ t, exec .mcastWithdraw s = .next t ∧
      (∀ i < s.par.N,
        ((∀ k, (s.tv.dmAt i).testBit k = true → s.tv.reqAt i k = true) →
          entry false t.tv.ok i = true ∧ ∀ k < s.par.N, t.tv.req2At i k = s.tv.reqAt i k) ∧
        ((∃ k, (s.tv.dmAt i).testBit k = true ∧ s.tv.reqAt i k = false) →
          entry false t.tv.ok i = false ∧ ∀ k < s.par.N, t.tv.req2At i k = false)) ∧
      t.tv = { s.tv with ok := t.tv.ok, req2 := t.tv.req2 } ∧ OnlyTickValues s t

/-- OUT.ARB makes one pick per egress port, over the inputs still requesting it, with that port's own
arbiter (42_arbitration.md R134). -/
def Obligations.OutArbPicksOneInputPerOutput : Prop :=
  ∀ s : State, s.r.fault = none → (∀ k < s.par.N, s.r.arbOutAt k < s.par.N) →
    ∃ t, exec .outArb s = .next t ∧
      (∀ k < s.par.N,
        ((∀ i < s.par.N, s.tv.req2At i k = false) →
          t.tv.winAt k = 0 ∧ t.r.arbOutAt k = s.r.arbOutAt k) ∧
        ((∃ i < s.par.N, s.tv.req2At i k = true) →
          ∃ w < s.par.N, s.tv.req2At w k = true ∧ t.tv.winAt k = 2 ^ w ∧
            t.r.arbOutAt k = (w + 1) % s.par.N ∧
            ∀ i < s.par.N, s.tv.req2At i k = true →
              (w + s.par.N - s.r.arbOutAt k) % s.par.N ≤
                (i + s.par.N - s.r.arbOutAt k) % s.par.N)) ∧
      t.r = { s.r with arbOut := t.r.arbOut } ∧ t.tv = { s.tv with win := t.tv.win } ∧
      t.env = s.env ∧ SameOutside s t

/-- MCAST.FORCE (42_arbitration.md R136): what no forcer takes keeps its independent pick; what is taken
belongs to a multicast input that was picked on a local leg and had all its legs valid, on all of its
destinations; a forcer with all its legs valid takes all of its outputs, or is turned away by a lower
forcer that holds one of them; the lowest forcer of those that share an output is never turned away.
The reading is decision D17. -/
def Obligations.ForcersTakeAllTheirOutputs : Prop :=
  ∀ s : State, s.r.fault = none →
    (∀ i < s.par.N, s.tv.dmAt i < 2 ^ s.par.N) →
    ∃ t, exec .mcastForce s = .next t ∧
      (∀ k < s.par.N, entry false t.tv.claimed k = false → t.tv.selAt k = winner s k) ∧
      (∀ k < s.par.N, entry false t.tv.claimed k = true →
        ∃ i < s.par.N, (s.tv.dmAt i).testBit k = true ∧ isForcer s i = true ∧
          ∀ k', (s.tv.dmAt i).testBit k' = true → s.tv.req2At i k' = true ∧
            t.tv.selAt k' = some i ∧ entry false t.tv.claimed k' = true) ∧
      (∀ i < s.par.N, isForcer s i = true →
        (∀ k, (s.tv.dmAt i).testBit k = true → s.tv.req2At i k = true) →
        (∀ k, (s.tv.dmAt i).testBit k = true → t.tv.selAt k = some i) ∨
        ∃ j < i, isForcer s j = true ∧ ∃ k, (s.tv.dmAt i).testBit k = true ∧
          (s.tv.dmAt j).testBit k = true ∧ entry false t.tv.claimed k = true ∧
          t.tv.selAt k = some j) ∧
      (∀ i < s.par.N, isForcer s i = true →
        (∀ k, (s.tv.dmAt i).testBit k = true → s.tv.req2At i k = true) →
        (∀ j < i, isForcer s j = true →
          ∀ k, ¬((s.tv.dmAt i).testBit k = true ∧ (s.tv.dmAt j).testBit k = true)) →
        ∀ k, (s.tv.dmAt i).testBit k = true → t.tv.selAt k = some i) ∧
      t.tv = { s.tv with sel := t.tv.sel, claimed := t.tv.claimed } ∧ OnlyTickValues s t

/-- GRANT.FINAL (42_arbitration.md R138): an input is granted on all of its destinations or on none, and
every output has at most one granted input. -/
def Obligations.GrantsAreAllOrNothing : Prop :=
  ∀ s : State, s.r.fault = none → (∀ i < s.par.N, s.tv.dmAt i < 2 ^ s.par.N) →
    ∃ t, exec .grantFinal s = .next t ∧
      (∀ i < s.par.N,
        (t.tv.fullAt i = true ↔
          (s.tv.vcAt i).isSome = true ∧ s.tv.dmAt i ≠ 0 ∧
            ∀ k, (s.tv.dmAt i).testBit k = true → s.tv.selAt k = some i) ∧
        ∀ k < s.par.N,
          (t.tv.grantAt i k = true ↔ t.tv.fullAt i = true ∧ (s.tv.dmAt i).testBit k = true)) ∧
      (∀ i < s.par.N, ∀ j < s.par.N, ∀ k < s.par.N, t.tv.grantAt i k = true →
        t.tv.grantAt j k = true → i = j) ∧
      t.tv = { s.tv with full := t.tv.full, grant := t.tv.grant } ∧ OnlyTickValues s t

/-- GRANT.COMMIT (42_arbitration.md R139): a granted input is popped once, whatever its fan-out, and owes
one credit; every output it is granted is charged one credit of its VC and its packet flag becomes
whether the flit is terminal; nothing else of the router changes. -/
def Obligations.GrantCommitMovesGrantedFlits : Prop :=
  ∀ s : State, s.r.fault = none → GrantsReady s →
    ∃ t, exec .grantCommit s = .next t ∧
      (∀ i < s.par.N, ∀ v < s.par.V,
        (s.tv.fullAt i = true → s.tv.vcAt i = some v →
          t.r.qAt i v = (s.r.qAt i v).tail ∧ t.r.coAt i v = s.r.coAt i v + 1) ∧
        (s.tv.fullAt i = false ∨ s.tv.vcAt i ≠ some v →
          t.r.qAt i v = s.r.qAt i v ∧ t.r.coAt i v = s.r.coAt i v)) ∧
      (∀ k < s.par.N, ∀ v < s.par.V,
        (∀ i < s.par.N, ∀ f, s.tv.fullAt i = true → s.tv.grantAt i k = true →
          s.tv.vcAt i = some v → s.tv.fAt i = some f →
          t.r.caAt k v + 1 = s.r.caAt k v ∧ t.r.igpAt k v = isTerminal f) ∧
        ((∀ i < s.par.N, s.tv.fullAt i = true → s.tv.grantAt i k = true →
            s.tv.vcAt i ≠ some v) →
          t.r.caAt k v = s.r.caAt k v ∧ t.r.igpAt k v = s.r.igpAt k v)) ∧
      t.r = { s.r with q := t.r.q, co := t.r.co, ca := t.r.ca, igp := t.r.igp } ∧
      t.tv = s.tv ∧ t.env = s.env ∧ SameOutside s t

/-- GRANT.COMMIT raises F4 when the first input that cannot be committed would owe more than `B`
credits (43_credit_flow.md R153), and F5 before it when the storage forbids a push and a pop in one
tick and a flit was pushed into the queue (42_arbitration.md R139; the order is decision D20). That
either comes before the refusal of a lower input's leg on a counter at 0, which R140 (d) excludes, is
the model's (log entry 9). -/
def Obligations.GrantCommitFaults : Prop :=
  ∀ (s : State) (i v : Nat) (f : Flit), s.r.fault = none → i < s.par.N →
    s.tv.fullAt i = true → s.tv.vcAt i = some v → s.tv.fAt i = some f → s.r.qAt i v ≠ [] →
    (∀ j < i, s.tv.fullAt j = true → ∃ v' f', s.tv.vcAt j = some v' ∧ s.tv.fAt j = some f' ∧
      s.r.qAt j v' ≠ [] ∧ s.r.coAt j v' + 1 ≤ s.par.B ∧
      (s.par.rwForbidden = true → s.tv.pushedAt j v' = false)) →
    (s.par.rwForbidden = true → s.tv.pushedAt i v = true →
      ∃ t, exec .grantCommit s = .next t ∧ Raised t .storageRwConflict (i * s.par.V + v)) ∧
    (s.par.rwForbidden = false ∨ s.tv.pushedAt i v = false → s.par.B < s.r.coAt i v + 1 →
      ∃ t, exec .grantCommit s = .next t ∧ Raised t .creditOwedOverflow (i * s.par.V + v))

/-! ### Crossbar and egress -/

/-- XBAR (44_crossbar_egress.md R166, R167) pushes into the staging queue of every granted output the
flit of its input: a multicast header of table routing rewritten for that output, every other flit as
it is; the other outputs keep their staging queues (decision D18). -/
def Obligations.XbarStagesOneCopyPerGrant : Prop :=
  ∀ s : State, s.r.fault = none →
    (∀ i < s.par.N, ∀ k < s.par.N, s.tv.grantAt i k = true →
      (s.r.eqAt k).length < s.par.E ∧ ∃ g, s.tv.frAt i = some g ∧
        (isMcastHeader s.par g = true →
          ∃ v loc, s.tv.vcAt i = some v ∧ s.r.isLocalAt i v = some loc)) →
    (∀ i < s.par.N, ∀ j < s.par.N, ∀ k < s.par.N, s.tv.grantAt i k = true →
      s.tv.grantAt j k = true → i = j) →
    ∃ t, exec .xbar s = .next t ∧
      (∀ k < s.par.N,
        (∀ i < s.par.N, ∀ g, s.tv.grantAt i k = true → s.tv.frAt i = some g →
          (isMcastHeader s.par g = false → t.r.eqAt k = s.r.eqAt k ++ [g]) ∧
          (isMcastHeader s.par g = true → ∀ v loc, s.tv.vcAt i = some v →
            s.r.isLocalAt i v = some loc →
            t.r.eqAt k = s.r.eqAt k ++
              [{ g with payload := rewritePayload s.par s.r.cfg loc k g.payload }])) ∧
        ((∀ i < s.par.N, s.tv.grantAt i k = false) → t.r.eqAt k = s.r.eqAt k)) ∧
      t.r = { s.r with eq := t.r.eq } ∧ t.tv = { s.tv with cp := t.tv.cp } ∧ t.env = s.env ∧
      SameOutside s t

/-- HDR.REWRITE.LUT (44_crossbar_egress.md R168) on the multicast header of input `i` for output `k`, bit
by bit: on a local leg the requested local destinations reached through `k` and this router's own
group alone; on a remote leg the local vector whole and the other requested groups reached through
`k`; every other bit kept. The formula is decision D12. That it acts without a grant of `k` to `i` is the
model's (log entry 27). -/
def Obligations.HdrRewriteKeepsWhatGoesThroughTheOutput : Prop :=
  ∀ (s : State) (i k v : Nat) (g : Flit) (loc : Mask), s.r.fault = none → s.par.ok = true →
    TickOk s.par s.tv → i < s.par.N → k < s.par.N → s.par.isLut = true →
    s.tv.frAt i = some g → isHeader g = true → g.payload.testBit s.par.MF = true →
    s.tv.vcAt i = some v → s.r.isLocalAt i v = some loc →
    ∃ t x, exec (.hdrRewriteLut i k) s = .next t ∧
      entry none t.tv.cp k = some { g with payload := x } ∧ x < 2 ^ s.par.W ∧
      (∀ j < s.par.NLD, x.testBit j =
        (g.payload.testBit j &&
          (!loc.testBit k || (s.r.cfg.lutL.getD j 0).testBit k))) ∧
      (∀ h < s.par.NRD, x.testBit (s.par.NLD + h) =
        if loc.testBit k then decide (h = s.r.cfg.myId)
        else g.payload.testBit (s.par.NLD + h) && decide (h ≠ s.r.cfg.myId) &&
          (s.r.cfg.lutR.getD h 0).testBit k) ∧
      (∀ b, s.par.NLD + s.par.NRD ≤ b → x.testBit b = g.payload.testBit b) ∧
      (∀ k', k' ≠ k → entry none t.tv.cp k' = entry none s.tv.cp k') ∧
      t.tv = { s.tv with cp := t.tv.cp } ∧ OnlyTickValues s t

/-- What the crossbar does not rewrite (44_crossbar_egress.md R167, R169 (a)): a flit of `MODE = SR`, a
continuation flit and a unicast header. That HDR.REWRITE.LUT run by itself on such a flit, or on a port
with none, leaves the state as it is, is log entry 8. -/
def Obligations.HdrRewriteLeavesOtherFlitsAlone : Prop :=
  ∀ (s : State) (i k : Nat), s.r.fault = none → i < s.par.N → k < s.par.N →
    (∀ g, s.tv.frAt i = some g →
      s.par.isLut = false ∨ isHeader g = false ∨ g.payload.testBit s.par.MF = false) →
    exec (.hdrRewriteLut i k) s = .next s

/-- EGRESS.TX offers the front of every staging queue and pops it where the send succeeds; a refused
flit stays in front, and an empty queue offers nothing (44_crossbar_egress.md R170; its place in the
tick is decision D15). -/
def Obligations.EgressTxOffersTheFront : Prop :=
  ∀ s : State, s.r.fault = none → ∃ t, exec .egressTx s = .next t ∧
    (∀ k < s.par.N,
      entry none t.tv.out.flit k = (s.r.eqAt k).head? ∧
      (s.r.eqAt k ≠ [] → s.env.readyAt k = true →
        entry false t.tv.out.delivered k = true ∧ t.r.eqAt k = (s.r.eqAt k).tail) ∧
      (s.r.eqAt k = [] ∨ s.env.readyAt k = false →
        entry false t.tv.out.delivered k = false ∧ t.r.eqAt k = s.r.eqAt k)) ∧
    t.r = { s.r with eq := t.r.eq } ∧ t.env = s.env ∧
    t.tv = { s.tv with
      out := { s.tv.out with flit := t.tv.out.flit, delivered := t.tv.out.delivered } } ∧
    SameOutside s t

/-! ### The tick -/

/-- A tick does not depend on what an earlier one left in the tick's values (10_state.md R31): they are
"recomputed from scratch in every tick". -/
def Obligations.TickCarriesNoInnerValueOver : Prop :=
  ∀ (s t : State) (x : TickVals), exec .tick s = .next t →
    exec .tick (s.withTv x) = .next t ∧ t.tv = TickVals.idle s.par

/-- The operations of a tick one by one, in the order of 46_router_tick.md R190, are the tick: when all
of them run on fresh tick values without a fault, the tick is what they leave, and its end. In phase
P5 every port is offered the four route operations in turn. That they can run one by one is the
model's (log entry 4), and so is what a route operation does that the key does not select, or on a port
with no valid flit (log entry 8). -/
def Obligations.TickIsItsOperationsInOrder : Prop :=
  ∀ s u : State, s.par.ok = true → InBounds s → s.r.fault = none →
    execAll (tickScript s.par) (s.withTv (TickVals.idle s.par)) = .next u → u.r.fault = none →
    exec .tick s = .next (finishTick u)

/-- TICK is total (46_router_tick.md R193): on every router within its bounds, which R193 does not ask
for (log entry 13), it answers a next state, completed with an output record or with one of the faults
a tick can raise (60_exceptions.md R201, R204; decisions D6, D20, D21, D23); a queue underflow (F2) is
never one of them (R202), and nothing is refused. -/
def Obligations.TickIsTotal : Prop :=
  ∀ s : State, s.par.ok = true → InBounds s → s.r.fault = none →
    ∃ t, exec .tick s = .next t ∧
      ((t.r.fault = none ∧ t.out ≠ none) ∨
        ∃ e, t.r.fault = some e ∧ t.out = none ∧
          (e.code = .creditAvailOverflow ∨ e.code = .badVc ∨ e.code = .queueOverflow ∨
            e.code = .outDestUndefined ∨
            (e.code = .storageRwConflict ∧ s.par.rwForbidden = true) ∨
            e.code = .creditOwedOverflow))

/-- The first fault of a tick is the one reported (60_exceptions.md R210, decision D20): an overflowing
credit beats everything a tick can do with the flits, and of several the first pair in ascending index
is reported. -/
def Obligations.CreditOverflowIsReportedFirst : Prop :=
  ∀ (s : State) (k v : Nat) (a : BitVec 1), s.r.fault = none → k < s.par.N → v < s.par.V →
    s.env.creditAt k v = some a → s.par.B < s.r.caAt k v + a.toNat →
    (∀ k' < s.par.N, ∀ v' < s.par.V, k' < k ∨ (k' = k ∧ v' < v) →
      s.r.caAt k' v' + amountAt s.env k' v' ≤ s.par.B) →
    ∃ t, exec .tick s = .next t ∧ Raised t .creditAvailOverflow (k * s.par.V + v)

/-- The order of faults across the phases of a tick (60_exceptions.md R210, decision D20). With no
overflowing credit, the first port with a bad flit is reported, F9 or F1, before F10; when phases P1 to
P4 complete, the first port whose front flit continues a packet with no mask stored, F10, before F5 and
F4; when phases P1 to P9 complete, the first granted input that cannot be committed, F5 before F4. -/
def Obligations.TickReportsTheFirstFault : Prop :=
  ∀ s : State, s.par.ok = true → InBounds s → s.r.fault = none →
    (∀ p f, p < s.par.N → s.env.flitAt p = some f →
      (∀ k < s.par.N, ∀ v < s.par.V, s.r.caAt k v + amountAt s.env k v ≤ s.par.B) →
      (∀ p' < p, ∀ f', s.env.flitAt p' = some f' →
        f'.vc < s.par.V ∧ (s.r.qAt p' f'.vc).length < s.par.B) →
      (s.par.V ≤ f.vc → ∃ t, exec .tick s = .next t ∧ Raised t .badVc p) ∧
      (f.vc < s.par.V → (s.r.qAt p f.vc).length = s.par.B →
        ∃ t, exec .tick s = .next t ∧ Raised t .queueOverflow (p * s.par.V + f.vc))) ∧
    (∀ u p v f, runPhases (phases.take 4) (beginTick s) = .ok u → p < s.par.N →
      u.tv.vcAt p = some v → u.tv.fAt p = some f → isContinuation f = true →
      u.r.outDestAt p v = none →
      (∀ p' < p, ∀ v' f', u.tv.vcAt p' = some v' → u.tv.fAt p' = some f' →
        isContinuation f' = true → u.r.outDestAt p' v' ≠ none) →
      ∃ t, exec .tick s = .next t ∧ Raised t .outDestUndefined (p * s.par.V + v)) ∧
    (∀ u i v, runPhases (phases.take 10) (beginTick s) = .ok u → i < s.par.N →
      u.tv.fullAt i = true → u.tv.vcAt i = some v →
      (∀ j < i, ∀ v', u.tv.fullAt j = true → u.tv.vcAt j = some v' →
        u.r.coAt j v' + 1 ≤ s.par.B ∧
          (s.par.rwForbidden = true → u.tv.pushedAt j v' = false)) →
      (s.par.rwForbidden = true → u.tv.pushedAt i v = true →
        ∃ t, exec .tick s = .next t ∧ Raised t .storageRwConflict (i * s.par.V + v)) ∧
      (s.par.rwForbidden = false ∨ u.tv.pushedAt i v = false → s.par.B < u.r.coAt i v + 1 →
        ∃ t, exec .tick s = .next t ∧ Raised t .creditOwedOverflow (i * s.par.V + v)))

/-- Credit conservation (43_credit_flow.md R157), one tick at a time and with no value of the inside of
a tick: for every egress (port, VC), the credits held, the flits staged (44_crossbar_egress.md R166)
and the flits delivered (R170) add up to what they were before and the credits received. -/
def Obligations.TickConservesEgressCredits : Prop :=
  ∀ (s t : State) (o : Out), s.par.ok = true → InBounds s → exec .tick s = .next t →
    t.r.fault = none → t.out = some o → ∀ k < s.par.N, ∀ v < s.par.V,
    t.r.caAt k v + countVc v (t.r.eqAt k) + deliveredOn o k v =
      s.r.caAt k v + countVc v (s.r.eqAt k) + amountAt s.env k v

/-- The mirror law of the ingress side (43_credit_flow.md R157): for every ingress (port, VC), the flits
queued, the credits owed and the credit accepted upstream add up to what they were before and the
flit that arrived. -/
def Obligations.TickConservesIngressCredits : Prop :=
  ∀ (s t : State) (o : Out), s.par.ok = true → InBounds s → exec .tick s = .next t →
    t.r.fault = none → t.out = some o → ∀ p < s.par.N, ∀ v < s.par.V,
    (t.r.qAt p v).length + t.r.coAt p v + creditAccepted o s.env p v =
      (s.r.qAt p v).length + s.r.coAt p v +
        (((s.env.flitAt p).map fun f => f.vc == v).getD false).toNat

/-- Obedient peers never make the router fault (70_reset_and_hazards.md R236, R238; 43_credit_flow.md
R154): when every sender offers only flits it holds a credit for, on a VC that exists, the first flit
of a queue with no stored mask being a header, every receiver returns only credits it owes, and the
storage allows a push and a pop in one tick, a tick completes without a fault, and the premises hold
again of the state after it, with the peers' counts moved by what the tick took and gave. -/
def Obligations.ObedientPeersNeverFault : Prop :=
  ∀ (s : State) (held due : Nat → Nat → Nat), s.par.ok = true → s.par.rwForbidden = false →
    InBounds s → s.r.fault = none → UpstreamMirror s held → DownstreamMirror s due →
    FrontsOk s → SendersObey s held → FirstIsHeader s → ReceiversHonest s due →
    ∃ t o, exec .tick s = .next t ∧ t.r.fault = none ∧ t.out = some o ∧
      UpstreamMirror t
        (fun p v => held p v - (((s.env.flitAt p).map fun f => f.vc == v).getD false).toNat +
          creditAccepted o s.env p v) ∧
      DownstreamMirror t (fun k v => due k v - amountAt s.env k v + deliveredOn o k v) ∧
      FrontsOk t

/-- Grants of a tick (42_arbitration.md R138, R61): after the phases up to the final grants, an input is
granted on all of its destinations or on none, no output is granted twice, and every granted leg had
a credit, was a destination, met the packet rule and had a free staging slot. -/
def Obligations.GrantedLegsWereAdmissible : Prop :=
  ∀ s u : State, s.par.ok = true → InBounds s → s.r.fault = none →
    runPhases (phases.take 10) (beginTick s) = .ok u →
    (∀ i < u.par.N,
      (∀ k < u.par.N, u.tv.grantAt i k = (u.tv.dmAt i).testBit k) ∨
        (∀ k < u.par.N, u.tv.grantAt i k = false)) ∧
    (∀ i < u.par.N, ∀ j < u.par.N, ∀ k < u.par.N, u.tv.grantAt i k = true →
      u.tv.grantAt j k = true → i = j) ∧
    (∀ i < u.par.N, ∀ k < u.par.N, u.tv.grantAt i k = true →
      ∃ v f, u.tv.vcAt i = some v ∧ u.tv.fAt i = some f ∧ u.r.caAt k v ≠ 0 ∧
        (u.r.igpAt k v = true ∨ isContinuation f = true) ∧ (u.r.eqAt k).length < u.par.E)

/-- A header that resolves to the all-zero mask stalls its queue (41_route_resolver.md R120): it is not
popped, and no fault comes of it. -/
def Obligations.ZeroMaskStallsItsQueue : Prop :=
  ∀ (s t : State) (p v : Nat) (f : Flit), s.par.ok = true → InBounds s → p < s.par.N → v < s.par.V →
    (s.r.qAt p v).head? = some f → isHeader f = true →
    (s.par.isLut = false → srMask s.par (routeField s.par f.payload) = 0) →
    (s.par.isLut = true → f.payload.testBit s.par.MF = false →
      ucastMask s.par s.r.cfg f.payload = 0) →
    (s.par.isLut = true → f.payload.testBit s.par.MF = true →
      mcastLocalMask s.par s.r.cfg f.payload = 0 ∧
        mcastRemoteMask s.par s.r.cfg f.payload = 0) →
    exec .tick s = .next t → t.r.fault = none →
    t.r.qAt p v = s.r.qAt p v ++
      (match s.env.flitAt p with
      | some g => if g.vc = v then [g] else []
      | none => [])

/-- The work of a tick is bounded (46_router_tick.md R194) and keeps order: every input queue is the old
one with at most the arriving flit appended and at most its front removed, at most one queue of a
port being popped; every staging queue is the old one with at most one flit appended and its front
removed exactly when it was delivered. -/
def Obligations.TickMovesAtMostOneFlitPerPort : Prop :=
  ∀ (s t : State) (o : Out), s.par.ok = true → InBounds s → exec .tick s = .next t →
    t.r.fault = none → t.out = some o →
    (∀ p < s.par.N, ∃ v, ∀ u < s.par.V,
      (u ≠ v → t.r.qAt p u = s.r.qAt p u ++ (arrival s p u).toList) ∧
      (t.r.qAt p u = s.r.qAt p u ++ (arrival s p u).toList ∨
        t.r.qAt p u = (s.r.qAt p u ++ (arrival s p u).toList).tail)) ∧
    (∀ k < s.par.N, ∃ new : List Flit, new.length ≤ 1 ∧
      entry none o.flit k = (s.r.eqAt k ++ new).head? ∧
      t.r.eqAt k =
        if entry false o.delivered k then (s.r.eqAt k ++ new).tail else s.r.eqAt k ++ new)

/-- An idle router is a fixed point of TICK under the empty environment (70_reset_and_hazards.md R232):
with empty queues and staging and nothing owed, a tick offers nothing and leaves the router as it
is, whatever the readiness of the channels. -/
def Obligations.IdleRouterIsAFixedPoint : Prop :=
  ∀ s : State, s.par.ok = true → InBounds s → s.r.fault = none →
    (∀ p < s.par.N, ∀ v < s.par.V, s.r.qAt p v = [] ∧ s.r.coAt p v = 0) →
    (∀ k < s.par.N, s.r.eqAt k = []) →
    (∀ p < s.par.N, s.env.flitAt p = none) →
    (∀ k < s.par.N, ∀ v < s.par.V, s.env.creditAt k v = none) →
    ∃ t o, exec .tick s = .next t ∧ t.r = s.r ∧ t.out = some o ∧
      (∀ k < s.par.N, entry none o.flit k = none) ∧
      ∀ p < s.par.N, ∀ v < s.par.V, cell none o.credit p v = none

/-- The packet flag follows the state machine of 42_arbitration.md R141 through a whole tick: it changes
only at an output that was granted a flit of its VC, and then is whether that flit was terminal; a
header is granted only where the flag was true. -/
def Obligations.PacketFlagFollowsTheGrantedFlit : Prop :=
  ∀ s t u : State, s.par.ok = true → InBounds s → s.r.fault = none →
    runPhases (phases.take 10) (beginTick s) = .ok u → exec .tick s = .next t →
    t.r.fault = none → ∀ k < s.par.N, ∀ v < s.par.V,
    (∀ i < s.par.N, ∀ f, u.tv.grantAt i k = true → u.tv.vcAt i = some v →
      u.tv.fAt i = some f →
      t.r.igpAt k v = isTerminal f ∧ (isHeader f = true → s.r.igpAt k v = true)) ∧
    ((∀ i < s.par.N, u.tv.grantAt i k = true → u.tv.vcAt i ≠ some v) →
      t.r.igpAt k v = s.r.igpAt k v)

/-- Packet atomicity (42_arbitration.md R142) at the grants of a tick, under the packet order of
70_reset_and_hazards.md R237: a header is granted an output VC only while no open packet holds it, and
a continuation flit only of the one open packet that holds it. -/
def Obligations.OnlyTheOpenPacketContinues : Prop :=
  ∀ (s u : State) (opn : Nat → Nat → Bool), s.par.ok = true → InBounds s → s.r.fault = none →
    PacketsOk s opn → SendersKeepPacketOrder s opn →
    runPhases (phases.take 10) (beginTick s) = .ok u →
    ∀ k < s.par.N, ∀ i < s.par.N, ∀ v f, u.tv.grantAt i k = true → u.tv.vcAt i = some v →
      u.tv.fAt i = some f →
      (isHeader f = true → s.r.igpAt k v = true ∧ ∀ p < s.par.N, ¬ Holds s opn p v k) ∧
      (isContinuation f = true → s.r.igpAt k v = false ∧ Holds s opn i v k ∧
        ∀ p < s.par.N, Holds s opn p v k → p = i)

/-- The packets in flight stay in order through a tick (42_arbitration.md R141, R142), under the packet
order of 70_reset_and_hazards.md R237: between a HEAD and its TAIL one packet alone holds an output VC.
A packet is open after the tick when the flit that left its queue is not terminal, and as before when
none left. -/
def Obligations.TickKeepsPacketsApart : Prop :=
  ∀ (s t u : State) (opn : Nat → Nat → Bool), s.par.ok = true → InBounds s →
    PacketsOk s opn → SendersKeepPacketOrder s opn →
    runPhases (phases.take 10) (beginTick s) = .ok u → exec .tick s = .next t →
    t.r.fault = none →
    ∃ opn', PacketsOk t opn' ∧
      ∀ p < s.par.N, ∀ v < s.par.V,
        (∀ f, u.tv.fullAt p = true → u.tv.vcAt p = some v → u.tv.fAt p = some f →
          opn' p v = !isTerminal f) ∧
        (u.tv.fullAt p = false ∨ u.tv.vcAt p ≠ some v → opn' p v = opn p v)

/-- An owed credit is returned within finite ticks (43_credit_flow.md R156 (e)): in a run without fault, a
credit for the pair is offered and accepted at the latest in the first tick in which the upstream
peer's channel is ready. That there is such a tick is the peer's obligation
(70_reset_and_hazards.md R240, decision D31). -/
def Obligations.OwedCreditIsReturned : Prop :=
  ∀ (envs : Nat → Env) (run : Nat → State) (p v n : Nat), p < (run 0).par.N → v < (run 0).par.V →
    0 < (run 0).r.coAt p v → SafeRun envs run n → (envs n).creditReadyAt p v = true →
    ∃ j ≤ n, ∃ o, (run (j + 1)).out = some o ∧ creditAccepted o (envs j) p v = 1

/-! ### The invariant -/

/-- Every step keeps the bounds of the state (10_state.md R48 (a), the widths of R20 to R29): counters
and queues within their capacities, masks, VCs and pointers within their ranges, every queue holding
flits of its own VC; and the arrays keep their size. -/
def Obligations.EveryStepKeepsTheInvariant : Prop :=
  ∀ s t : State, InBounds s → step s = .next t → InBounds t

/-- The bounds hold right after reset, and the packets are in order with none open. -/
def Obligations.ResetMeetsTheInvariant : Prop :=
  InBounds State.reset ∧ PacketsOk State.reset fun _ _ => false
end

