-- ==== Sys2Proof/Laws/Bits.lean ====
section
/-! SUPPORT. The lemmas of the helpers in Machine/Bits.lean: arrays read what they were built from,
a written entry is read back, searches answer when something is found, and bit fields bit by bit. -/

namespace Sys2Proof

/-! ### Arrays -/

@[simp] theorem length_tab {α : Type} (n : Nat) (f : Nat → α) : (tab n f).length = n := by
  simp [tab]

theorem entry_tab {α : Type} (n : Nat) (f : Nat → α) (d : α) (i : Nat) :
    entry d (tab n f) i = if i < n then f i else d := by
  by_cases h : i < n <;> simp [entry, tab, List.getD, h]

@[simp] theorem entry_tab_of_lt {α : Type} {n i : Nat} (f : Nat → α) (d : α) (h : i < n) :
    entry d (tab n f) i = f i := by
  rw [entry_tab, if_pos h]

theorem mem_tab {α : Type} {n : Nat} {f : Nat → α} {x : α} :
    x ∈ tab n f ↔ ∃ i < n, f i = x := by
  simp [tab]

theorem cell_tab2 {α : Type} (n m : Nat) (f : Nat → Nat → α) (d : α) (i j : Nat) :
    cell d (tab2 n m f) i j = if i < n ∧ j < m then f i j else d := by
  unfold cell tab2
  rw [entry_tab]
  by_cases hi : i < n
  · simp only [hi, if_true, entry_tab, true_and]
  · simp [hi, entry]

@[simp] theorem cell_tab2_of_lt {α : Type} {n m i j : Nat} (f : Nat → Nat → α) (d : α)
    (hi : i < n) (hj : j < m) : cell d (tab2 n m f) i j = f i j := by
  rw [cell_tab2, if_pos ⟨hi, hj⟩]

theorem entry_set {α : Type} (l : List α) (i j : Nat) (x d : α) :
    entry d (l.set i x) j = if i = j ∧ i < l.length then x else entry d l j := by
  simp only [entry, List.getD, List.getElem?_set]
  by_cases h : i = j
  · subst h
    by_cases hl : i < l.length <;> simp [hl]
  · simp [h]

theorem entry_of_length_le {α : Type} {l : List α} {i : Nat} (d : α) (h : l.length ≤ i) :
    entry d l i = d := by
  simp [entry, h]

theorem entry_mem {α : Type} {l : List α} {i : Nat} (d : α) (h : i < l.length) :
    entry d l i ∈ l := by
  simp [entry, h]

theorem cell_setCell {α : Type} (d : α) (g : Grid α) (i j i' j' : Nat) (x : α) :
    cell d (setCell g i j x) i' j' =
      if i = i' ∧ j = j' ∧ i < g.length ∧ j < (entry [] g i).length then x
      else cell d g i' j' := by
  unfold cell setCell
  rw [entry_set]
  by_cases h : i = i' ∧ i < g.length
  · obtain ⟨rfl, hl⟩ := h
    simp only [hl, and_self, if_true, entry_set, true_and]
  · have : ¬(i = i' ∧ j = j' ∧ i < g.length ∧ j < (entry [] g i).length) := by tauto
    rw [if_neg h, if_neg this]

theorem cell_setCell_of_ne {α : Type} (d : α) (g : Grid α) {i j i' j' : Nat} (x : α)
    (h : i ≠ i' ∨ j ≠ j') : cell d (setCell g i j x) i' j' = cell d g i' j' := by
  rw [cell_setCell, if_neg]; tauto

/-! ### Searches -/

theorem firstOf_eq_none {β : Type} {n : Nat} {f : Nat → Option β} :
    firstOf n f = none ↔ ∀ i < n, f i = none := by
  simp [firstOf]

theorem firstOf2_eq_none {β : Type} {n m : Nat} {f : Nat → Nat → Option β} :
    firstOf2 n m f = none ↔ ∀ i < n, ∀ j < m, f i j = none := by
  simp [firstOf2, firstOf_eq_none]

theorem exists_of_firstOf {β : Type} {n : Nat} {f : Nat → Option β} {b : β}
    (h : firstOf n f = some b) : ∃ i < n, f i = some b ∧ ∀ j < i, f j = none := by
  induction n with
  | zero => simp [firstOf] at h
  | succ n ih =>
    simp only [firstOf, List.range_succ, List.findSome?_append] at h
    rcases hf : (List.range n).findSome? f with _ | c
    · rw [hf] at h
      simp only [Option.none_or, List.findSome?_cons, List.findSome?_nil] at h
      refine ⟨n, Nat.lt_succ_self n, ?_, fun j hj => firstOf_eq_none.1 hf j hj⟩
      cases hn : f n <;> simp_all
    · rw [hf] at h
      simp only [Option.some_or, Option.some.injEq] at h
      subst h
      obtain ⟨i, hi, h1, h2⟩ := ih hf
      exact ⟨i, by omega, h1, h2⟩

theorem exists_of_firstOf2 {β : Type} {n m : Nat} {f : Nat → Nat → Option β} {b : β}
    (h : firstOf2 n m f = some b) : ∃ i < n, ∃ j < m, f i j = some b := by
  obtain ⟨i, hi, h1, -⟩ := exists_of_firstOf h
  obtain ⟨j, hj, h2, -⟩ := exists_of_firstOf h1
  exact ⟨i, hi, j, hj, h2⟩

theorem allBelow_iff {n : Nat} {f : Nat → Bool} : allBelow n f = true ↔ ∀ i < n, f i = true := by
  simp [allBelow]

theorem anyBelow_iff {n : Nat} {f : Nat → Bool} : anyBelow n f = true ↔ ∃ i < n, f i = true := by
  simp [anyBelow]

/-! ### Widths -/

theorem le_two_pow_clog2 (n : Nat) : n ≤ 2 ^ clog2 n := by
  unfold clog2
  rcases h : (List.range n).find? fun w => decide (n ≤ 2 ^ w) with _ | w
  · rw [List.find?_eq_none] at h
    cases n with
    | zero => simp
    | succ n =>
      have := h n (by simp)
      simp only [decide_eq_true_eq, not_le] at this
      exact absurd (Nat.lt_two_pow_self (n := n)) (by omega)
  · have := List.find?_some h
    simpa using this

theorem one_le_iw (n : Nat) : 1 ≤ iw n := Nat.le_max_left ..

theorem le_two_pow_iw (n : Nat) : n ≤ 2 ^ iw n :=
  (le_two_pow_clog2 n).trans (Nat.pow_le_pow_right (by decide) (Nat.le_max_right ..))

/-! ### Bit fields -/

theorem field_lt (v lo w : Nat) : field v lo w < 2 ^ w := Nat.mod_lt _ (Nat.two_pow_pos w)

theorem testBit_field (v lo w i : Nat) :
    (field v lo w).testBit i = (decide (i < w) && v.testBit (lo + i)) := by
  simp [field, Nat.testBit_mod_two_pow, Nat.testBit_shiftRight]

theorem testBit_concat (hi lo w i : Nat) :
    (concat hi lo w).testBit i = if i < w then lo.testBit i else hi.testBit (i - w) := by
  unfold concat
  rw [Nat.testBit_two_pow_mul_add _ (Nat.mod_lt _ (Nat.two_pow_pos w))]
  by_cases h : i < w <;> simp [h, Nat.testBit_mod_two_pow]

theorem concat_lt {hi lo w n : Nat} (h : hi < 2 ^ n) : concat hi lo w < 2 ^ (w + n) := by
  unfold concat
  have h1 : lo % 2 ^ w < 2 ^ w := Nat.mod_lt _ (Nat.two_pow_pos w)
  have h2 : 2 ^ w * (hi + 1) ≤ 2 ^ w * 2 ^ n := Nat.mul_le_mul_left _ h
  rw [Nat.pow_add]
  rw [Nat.mul_add] at h2
  omega

theorem field_concat_low (hi lo w : Nat) : field (concat hi lo w) 0 w = lo % 2 ^ w := by
  simp [field, concat]

theorem field_concat_high (hi lo w n : Nat) : field (concat hi lo w) w n = hi % 2 ^ n := by
  unfold field concat
  rw [Nat.shiftRight_eq_div_pow, Nat.mul_add_div (Nat.two_pow_pos w),
    Nat.div_eq_of_lt (Nat.mod_lt _ (Nat.two_pow_pos w)), Nat.add_zero]

theorem concat_field (v w : Nat) : concat (v >>> w) v w = v := by
  unfold concat
  rw [Nat.shiftRight_eq_div_pow]
  exact Nat.div_add_mod v (2 ^ w)

/-! ### Masks -/

theorem testBit_maskOf (n : Nat) (f : Nat → Bool) (i : Nat) :
    (maskOf n f).testBit i = (decide (i < n) && f i) := by
  induction n with
  | zero => simp [maskOf]
  | succ n ih =>
    rw [maskOf, testBit_concat, ih]
    by_cases h : i < n
    · simp [h, Nat.lt_succ_of_lt h]
    · by_cases h' : i = n
      · subst h'; cases f i <;> simp
      · have h1 : ¬i < n + 1 := by omega
        obtain ⟨d, hd⟩ : ∃ d, i - n = d + 1 := ⟨i - n - 1, by omega⟩
        cases f n <;> simp [h, h1, hd, Nat.testBit_succ]

theorem maskOf_lt (n : Nat) (f : Nat → Bool) : maskOf n f < 2 ^ n :=
  Nat.lt_pow_two_of_testBit _ fun i hi => by simp [testBit_maskOf, Nat.not_lt.2 hi]

theorem testBit_orOver (n : Nat) (sel : Nat → Bool) (f : Nat → Mask) (i : Nat) :
    (orOver n sel f).testBit i = anyBelow n fun j => sel j && (f j).testBit i := by
  induction n with
  | zero => simp [orOver, anyBelow]
  | succ n ih =>
    rw [orOver, Nat.testBit_or, ih]
    cases h : sel n <;> simp [anyBelow, List.range_succ, h]

theorem orOver_lt {n w : Nat} {sel : Nat → Bool} {f : Nat → Mask} (h : ∀ j, f j < 2 ^ w) :
    orOver n sel f < 2 ^ w := by
  induction n with
  | zero => simp [orOver]
  | succ n ih =>
    rw [orOver]
    refine Nat.or_lt_two_pow ih ?_
    split
    · exact h n
    · exact Nat.two_pow_pos w

theorem testBit_onehot (n i k : Nat) :
    (onehot n i).testBit k = (decide (i < n) && decide (i = k)) := by
  unfold onehot
  by_cases h : i < n <;> simp [h, Nat.testBit_two_pow]

theorem onehot_lt (n i : Nat) : onehot n i < 2 ^ n := by
  unfold onehot
  split
  · exact Nat.pow_lt_pow_right (by decide) (by assumption)
  · exact Nat.two_pow_pos n

theorem onehot_ne_zero {n i : Nat} (h : i < n) : onehot n i ≠ 0 := by
  simp [onehot, h]

end Sys2Proof
end

