-- ==== Sys2Proof/Laws/Check.lean ====
section
/-! SUPPORT. Executable checks of the bounds of Safety.lean, each sound for the bound it stands for, so
that a concrete state is shown to meet them by evaluation. -/

namespace Sys2Proof.Machine

/-- A property of what an option holds, checked by evaluation. -/
theorem forall_of_all {α : Type} {o : Option α} {f : α → Bool} (h : o.all f = true) :
    ∀ x, o = some x → f x = true := by
  rintro x rfl; simpa using h

/-- `Shaped`, evaluated. -/
def shapedB {α : Type} (g : Grid α) (n m : Nat) : Bool :=
  decide (g.length = n) && g.all fun row => decide (row.length = m)

theorem shaped_of_check {α : Type} {g : Grid α} {n m : Nat} (h : shapedB g n m = true) :
    Shaped g n m := by
  simpa [shapedB, Shaped] using h

/-- `f i j` for all `i < n`, `j < m`. -/
def all2 (n m : Nat) (f : Nat → Nat → Bool) : Bool := allBelow n fun i => allBelow m (f i)

theorem all2_iff {n m : Nat} {f : Nat → Nat → Bool} :
    all2 n m f = true ↔ ∀ i < n, ∀ j < m, f i j = true := by
  simp [all2, allBelow]

/-- `FlitOk`, evaluated. -/
def flitOkB (par : Params) (f : Flit) : Bool := decide (f.vc < par.V) && decide (f.payload < 2 ^ par.W)

theorem flitOk_of_check {par : Params} {f : Flit} (h : flitOkB par f = true) : FlitOk par f := by
  simpa [flitOkB, FlitOk] using h

/-- `CfgOk`, evaluated. -/
def cfgOkB (par : Params) (c : Cfg) : Bool :=
  !par.isLut ||
    (decide (c.myId < par.NRD) && decide (c.lutL.length = par.NLD) &&
      decide (c.lutR.length = par.NRD) && (c.lutL.all fun m => decide (m < 2 ^ par.N)) &&
      c.lutR.all fun m => decide (m < 2 ^ par.N))

theorem cfgOk_of_check {par : Params} {c : Cfg} (h : cfgOkB par c = true) : CfgOk par c := by
  intro hl
  simpa [cfgOkB, hl, and_assoc] using h

/-- `RouterOk`, evaluated. -/
def routerOkB (par : Params) (r : Router) : Bool :=
  shapedB r.q par.N par.V && shapedB r.ca par.N par.V && shapedB r.co par.N par.V &&
    shapedB r.outDest par.N par.V && shapedB r.isLocal par.N par.V && shapedB r.igp par.N par.V &&
    decide (r.arbOut.length = par.N) && decide (r.arbVc.length = par.N) &&
    decide (r.eq.length = par.N) &&
    (all2 par.N par.V fun p v =>
      decide ((r.qAt p v).length ≤ par.B) &&
        ((r.qAt p v).all fun f => decide (f.vc = v) && decide (f.payload < 2 ^ par.W)) &&
        decide (r.caAt p v ≤ par.B) && decide (r.coAt p v ≤ par.B) &&
        ((r.outDestAt p v).all fun m => decide (m < 2 ^ par.N)) &&
        (r.isLocalAt p v).all fun m => decide (m < 2 ^ par.N)) &&
    (allBelow par.N fun k =>
      decide (r.arbOutAt k < par.N) && decide (r.arbVcAt k < par.V) &&
        decide ((r.eqAt k).length ≤ par.E) && (r.eqAt k).all (flitOkB par)) &&
    cfgOkB par r.cfg

theorem routerOk_of_check {par : Params} {r : Router} (h : routerOkB par r = true) :
    RouterOk par r := by
  simp only [routerOkB, Bool.and_eq_true, all2_iff, allBelow_iff, decide_eq_true_eq,
    List.all_eq_true] at h
  obtain ⟨⟨⟨⟨⟨⟨⟨⟨⟨⟨⟨h1, h2⟩, h3⟩, h4⟩, h5⟩, h6⟩, h7⟩, h8⟩, h9⟩, hpv⟩, hk⟩, hc⟩ := h
  exact
    { qShape := shaped_of_check h1
      caShape := shaped_of_check h2
      coShape := shaped_of_check h3
      outDestShape := shaped_of_check h4
      isLocalShape := shaped_of_check h5
      igpShape := shaped_of_check h6
      arbOutShape := h7
      arbVcShape := h8
      eqShape := h9
      qBound := fun p hp v hv => (hpv p hp v hv).1.1.1.1.1
      qFlits := fun p hp v hv f hf => (hpv p hp v hv).1.1.1.1.2 f hf
      caBound := fun p hp v hv => (hpv p hp v hv).1.1.1.2
      coBound := fun p hp v hv => (hpv p hp v hv).1.1.2
      outDestBound := fun p hp v hv m hm => by
        simpa using forall_of_all (hpv p hp v hv).1.2 m hm
      isLocalBound := fun p hp v hv m hm => by
        simpa using forall_of_all (hpv p hp v hv).2 m hm
      arbOutBound := fun k hk' => (hk k hk').1.1.1
      arbVcBound := fun k hk' => (hk k hk').1.1.2
      eqBound := fun k hk' => (hk k hk').1.2
      eqFlits := fun k hk' f hf => flitOk_of_check ((hk k hk').2 f hf)
      cfgOk := cfgOk_of_check hc }

/-- What an entry of a list of options holds has the property all of them have. -/
theorem entry_all {α : Type} {l : List (Option α)} {f : α → Bool}
    (h : (l.all fun o => o.all f) = true) (p : Nat) (x : α) (hx : entry none l p = some x) :
    f x = true := by
  by_cases hp : p < l.length
  · exact forall_of_all (List.all_eq_true.1 h _ (entry_mem none hp)) x hx
  · rw [entry_of_length_le none (not_lt.1 hp)] at hx; cases hx

/-- `TickOk`, evaluated. -/
def tickOkB (par : Params) (t : TickVals) : Bool :=
  decide (t.dm.length = par.N) && decide (t.fr.length = par.N) && decide (t.cp.length = par.N) &&
    (t.vc.all fun o => o.all fun v => decide (v < par.V)) &&
    (t.f.all fun o => o.all (flitOkB par)) && (t.fr.all fun o => o.all (flitOkB par)) &&
    t.dm.all fun m => decide (m < 2 ^ par.N)

theorem tickOk_of_check {par : Params} {t : TickVals} (h : tickOkB par t = true) : TickOk par t := by
  simp only [tickOkB, Bool.and_eq_true, decide_eq_true_eq] at h
  obtain ⟨⟨⟨⟨⟨⟨h1, h2⟩, h3⟩, h4⟩, h5⟩, h6⟩, h7⟩ := h
  refine ⟨h1, h2, h3, fun p v hv => ?_, fun p f hf => flitOk_of_check (entry_all h5 p f hf),
    fun p f hf => flitOk_of_check (entry_all h6 p f hf), fun p => ?_⟩
  · unfold TickVals.vcAt at hv
    split at hv
    · simpa using entry_all h4 p v hv
    · cases hv
  · unfold TickVals.dmAt
    by_cases hp : p < t.dm.length
    · simpa using List.all_eq_true.1 h7 _ (entry_mem 0 hp)
    · rw [entry_of_length_le 0 (not_lt.1 hp)]; exact Nat.two_pow_pos _

/-- `EnvOk`, evaluated. -/
def envOkB (par : Params) (e : Env) : Bool :=
  decide (e.inFlit.length = par.N) && shapedB e.inCredit par.N par.V &&
    e.inFlit.all fun o => o.all fun f =>
      decide (f.vc < 2 ^ par.VCW) && decide (f.payload < 2 ^ par.W)

theorem envOk_of_check {par : Params} {e : Env} (h : envOkB par e = true) : EnvOk par e := by
  simp only [envOkB, Bool.and_eq_true, decide_eq_true_eq] at h
  obtain ⟨⟨h1, h2⟩, h3⟩ := h
  exact ⟨h1, shaped_of_check h2, fun p f hf => by simpa using entry_all h3 p f hf⟩

/-- `InBounds`, evaluated. -/
def invB (s : State) : Bool := routerOkB s.par s.r && tickOkB s.par s.tv && envOkB s.par s.env

theorem inv_of_check {s : State} (h : invB s = true) : InBounds s := by
  simp only [invB, Bool.and_eq_true] at h
  exact ⟨fun _ => routerOk_of_check h.1.1, tickOk_of_check h.1.2, envOk_of_check h.2⟩

/-- `Holds`, evaluated. -/
def holdsB (s : State) (opn : Nat → Nat → Bool) (p v k : Nat) : Bool :=
  opn p v && (s.r.outDestAt p v).any fun m => m.testBit k

theorem holdsB_iff {s : State} {opn : Nat → Nat → Bool} {p v k : Nat} :
    holdsB s opn p v k = true ↔ Holds s opn p v k := by
  cases h : s.r.outDestAt p v <;> simp [holdsB, Holds, h]

/-- `PacketsOk`, evaluated. -/
def packetsOkB (s : State) (opn : Nat → Nat → Bool) : Bool :=
  (all2 s.par.N s.par.V fun p v =>
      inPacketOrder (opn p v) (s.r.qAt p v) && (!opn p v || (s.r.outDestAt p v).isSome)) &&
    all2 s.par.N s.par.V fun k v =>
      ((!s.r.igpAt k v) == anyBelow s.par.N fun p => holdsB s opn p v k) &&
        all2 s.par.N s.par.N fun p p' =>
          !(holdsB s opn p v k && holdsB s opn p' v k) || decide (p = p')

theorem packetsOk_of_check {s : State} {opn : Nat → Nat → Bool} (h : packetsOkB s opn = true) :
    PacketsOk s opn := by
  simp only [packetsOkB, Bool.and_eq_true, all2_iff, beq_iff_eq] at h
  obtain ⟨hq, hk⟩ := h
  refine ⟨fun p hp v hv => (hq p hp v hv).1, fun p hp v hv ho => ?_, fun k hk' v hv => ?_,
    fun k hk' v hv p hp p' hp' h1 h2 => ?_⟩
  · have := (hq p hp v hv).2
    rw [ho] at this
    exact Option.isSome_iff_ne_none.1 (by simpa using this)
  · have := (hk k hk' v hv).1
    simp only [← holdsB_iff, ← anyBelow_iff]
    rw [← this]
    simp
  · have := (hk k hk' v hv).2 p hp p' hp'
    rw [holdsB_iff.2 h1, holdsB_iff.2 h2] at this
    simpa using this

/-- `SendersKeepPacketOrder`, evaluated. -/
def sendersInOrderB (s : State) (opn : Nat → Nat → Bool) : Bool :=
  allBelow s.par.N fun p => (s.env.flitAt p).all fun f =>
    inPacketOrder (opn p f.vc) (s.r.qAt p f.vc ++ [f])

theorem sendersInOrder_of_check {s : State} {opn : Nat → Nat → Bool}
    (h : sendersInOrderB s opn = true) : SendersKeepPacketOrder s opn := by
  intro p hp f hf
  exact forall_of_all (allBelow_iff.1 h p hp) f hf

end Sys2Proof.Machine
end

