-- ==== Sys2Proof/Laws/State.lean ====
section
/-! SUPPORT. One lemma per field per update of the state, all true by `rfl`, so that no proof unfolds
a record update. The records inside the state (`Router`, `TickVals`, `Env`, `Out`) are updated by
record literals, whose fields `simp` reads without a lemma. -/

namespace Sys2Proof.Machine

/-! ### withRouter -/

@[simp] theorem State.withRouter_par (s : State) (x : Router) : (s.withRouter x).par = s.par := rfl

@[simp] theorem State.withRouter_r (s : State) (x : Router) : (s.withRouter x).r = x := rfl

@[simp] theorem State.withRouter_tv (s : State) (x : Router) : (s.withRouter x).tv = s.tv := rfl

@[simp] theorem State.withRouter_env (s : State) (x : Router) : (s.withRouter x).env = s.env := rfl

@[simp] theorem State.withRouter_rst (s : State) (x : Router) : (s.withRouter x).rst = s.rst := rfl

@[simp] theorem State.withRouter_cfgIn (s : State) (x : Router) : (s.withRouter x).cfgIn = s.cfgIn := rfl

@[simp] theorem State.withRouter_out (s : State) (x : Router) : (s.withRouter x).out = s.out := rfl

@[simp] theorem State.withRouter_draws (s : State) (x : Router) : (s.withRouter x).draws = s.draws := rfl

@[simp] theorem State.withRouter_inst (s : State) (x : Router) : (s.withRouter x).inst = s.inst := rfl

@[simp] theorem State.withRouter_sel (s : State) (x : Router) : (s.withRouter x).sel = s.sel := rfl

/-! ### withTv -/

@[simp] theorem State.withTv_par (s : State) (x : TickVals) : (s.withTv x).par = s.par := rfl

@[simp] theorem State.withTv_r (s : State) (x : TickVals) : (s.withTv x).r = s.r := rfl

@[simp] theorem State.withTv_tv (s : State) (x : TickVals) : (s.withTv x).tv = x := rfl

@[simp] theorem State.withTv_env (s : State) (x : TickVals) : (s.withTv x).env = s.env := rfl

@[simp] theorem State.withTv_rst (s : State) (x : TickVals) : (s.withTv x).rst = s.rst := rfl

@[simp] theorem State.withTv_cfgIn (s : State) (x : TickVals) : (s.withTv x).cfgIn = s.cfgIn := rfl

@[simp] theorem State.withTv_out (s : State) (x : TickVals) : (s.withTv x).out = s.out := rfl

@[simp] theorem State.withTv_draws (s : State) (x : TickVals) : (s.withTv x).draws = s.draws := rfl

@[simp] theorem State.withTv_inst (s : State) (x : TickVals) : (s.withTv x).inst = s.inst := rfl

@[simp] theorem State.withTv_sel (s : State) (x : TickVals) : (s.withTv x).sel = s.sel := rfl

/-! ### withEnv -/

@[simp] theorem State.withEnv_par (s : State) (x : Env) : (s.withEnv x).par = s.par := rfl

@[simp] theorem State.withEnv_r (s : State) (x : Env) : (s.withEnv x).r = s.r := rfl

@[simp] theorem State.withEnv_tv (s : State) (x : Env) : (s.withEnv x).tv = s.tv := rfl

@[simp] theorem State.withEnv_env (s : State) (x : Env) : (s.withEnv x).env = x := rfl

@[simp] theorem State.withEnv_rst (s : State) (x : Env) : (s.withEnv x).rst = s.rst := rfl

@[simp] theorem State.withEnv_cfgIn (s : State) (x : Env) : (s.withEnv x).cfgIn = s.cfgIn := rfl

@[simp] theorem State.withEnv_out (s : State) (x : Env) : (s.withEnv x).out = s.out := rfl

@[simp] theorem State.withEnv_draws (s : State) (x : Env) : (s.withEnv x).draws = s.draws := rfl

@[simp] theorem State.withEnv_inst (s : State) (x : Env) : (s.withEnv x).inst = s.inst := rfl

@[simp] theorem State.withEnv_sel (s : State) (x : Env) : (s.withEnv x).sel = s.sel := rfl

/-! ### withSel -/

@[simp] theorem State.withSel_par (s : State) (x : Option Cells) : (s.withSel x).par = s.par := rfl

@[simp] theorem State.withSel_r (s : State) (x : Option Cells) : (s.withSel x).r = s.r := rfl

@[simp] theorem State.withSel_tv (s : State) (x : Option Cells) : (s.withSel x).tv = s.tv := rfl

@[simp] theorem State.withSel_env (s : State) (x : Option Cells) : (s.withSel x).env = s.env := rfl

@[simp] theorem State.withSel_rst (s : State) (x : Option Cells) : (s.withSel x).rst = s.rst := rfl

@[simp] theorem State.withSel_cfgIn (s : State) (x : Option Cells) : (s.withSel x).cfgIn = s.cfgIn := rfl

@[simp] theorem State.withSel_out (s : State) (x : Option Cells) : (s.withSel x).out = s.out := rfl

@[simp] theorem State.withSel_draws (s : State) (x : Option Cells) : (s.withSel x).draws = s.draws := rfl

@[simp] theorem State.withSel_inst (s : State) (x : Option Cells) : (s.withSel x).inst = s.inst := rfl

@[simp] theorem State.withSel_sel (s : State) (x : Option Cells) : (s.withSel x).sel = x := rfl

/-! ### withOut -/

@[simp] theorem State.withOut_par (s : State) (x : Option Out) : (s.withOut x).par = s.par := rfl

@[simp] theorem State.withOut_r (s : State) (x : Option Out) : (s.withOut x).r = s.r := rfl

@[simp] theorem State.withOut_tv (s : State) (x : Option Out) : (s.withOut x).tv = s.tv := rfl

@[simp] theorem State.withOut_env (s : State) (x : Option Out) : (s.withOut x).env = s.env := rfl

@[simp] theorem State.withOut_rst (s : State) (x : Option Out) : (s.withOut x).rst = s.rst := rfl

@[simp] theorem State.withOut_cfgIn (s : State) (x : Option Out) : (s.withOut x).cfgIn = s.cfgIn := rfl

@[simp] theorem State.withOut_out (s : State) (x : Option Out) : (s.withOut x).out = x := rfl

@[simp] theorem State.withOut_draws (s : State) (x : Option Out) : (s.withOut x).draws = s.draws := rfl

@[simp] theorem State.withOut_inst (s : State) (x : Option Out) : (s.withOut x).inst = s.inst := rfl

@[simp] theorem State.withOut_sel (s : State) (x : Option Out) : (s.withOut x).sel = s.sel := rfl

/-! ### nextInputs -/

@[simp] theorem State.nextInputs_par (s : State) : s.nextInputs.par = s.par := rfl

@[simp] theorem State.nextInputs_r (s : State) : s.nextInputs.r = s.r := rfl

@[simp] theorem State.nextInputs_tv (s : State) : s.nextInputs.tv = s.tv := rfl

@[simp] theorem State.nextInputs_env (s : State) : s.nextInputs.env = Env.draw s.par s.inst s.draws := rfl

@[simp] theorem State.nextInputs_rst (s : State) : s.nextInputs.rst = Config.resetApplied s.inst s.draws := rfl

@[simp] theorem State.nextInputs_cfgIn (s : State) : s.nextInputs.cfgIn = Config.cfgIn s.inst s.draws := rfl

@[simp] theorem State.nextInputs_out (s : State) : s.nextInputs.out = s.out := rfl

@[simp] theorem State.nextInputs_draws (s : State) : s.nextInputs.draws = s.draws + 1 := rfl

@[simp] theorem State.nextInputs_inst (s : State) : s.nextInputs.inst = s.inst := rfl

@[simp] theorem State.nextInputs_sel (s : State) : s.nextInputs.sel = s.sel := rfl

/-! ### raiseFatal -/

@[simp] theorem State.raiseFatal_par (s : State) (c : Code) (n : Nat) :
    (s.raiseFatal c n).par = s.par := rfl

@[simp] theorem State.raiseFatal_r (s : State) (c : Code) (n : Nat) :
    (s.raiseFatal c n).r = { Config.afterFault s.inst s.draws with fault := some ⟨c, n⟩ } := rfl

@[simp] theorem State.raiseFatal_tv (s : State) (c : Code) (n : Nat) :
    (s.raiseFatal c n).tv = TickVals.idle s.par := rfl

@[simp] theorem State.raiseFatal_env (s : State) (c : Code) (n : Nat) :
    (s.raiseFatal c n).env = Env.draw s.par s.inst s.draws := rfl

@[simp] theorem State.raiseFatal_rst (s : State) (c : Code) (n : Nat) :
    (s.raiseFatal c n).rst = Config.resetApplied s.inst s.draws := rfl

@[simp] theorem State.raiseFatal_cfgIn (s : State) (c : Code) (n : Nat) :
    (s.raiseFatal c n).cfgIn = Config.cfgIn s.inst s.draws := rfl

@[simp] theorem State.raiseFatal_out (s : State) (c : Code) (n : Nat) :
    (s.raiseFatal c n).out = none := rfl

@[simp] theorem State.raiseFatal_draws (s : State) (c : Code) (n : Nat) :
    (s.raiseFatal c n).draws = s.draws + 1 := rfl

@[simp] theorem State.raiseFatal_inst (s : State) (c : Code) (n : Nat) :
    (s.raiseFatal c n).inst = s.inst := rfl

@[simp] theorem State.raiseFatal_sel (s : State) (c : Code) (n : Nat) :
    (s.raiseFatal c n).sel = s.sel := rfl

/-! ### afterReset -/

@[simp] theorem State.afterReset_par (s : State) : s.afterReset.par = s.par := rfl

@[simp] theorem State.afterReset_r (s : State) : s.afterReset.r = Router.atReset s.par s.cfgIn := rfl

@[simp] theorem State.afterReset_tv (s : State) : s.afterReset.tv = TickVals.idle s.par := rfl

@[simp] theorem State.afterReset_env (s : State) : s.afterReset.env = Env.draw s.par s.inst s.draws := rfl

@[simp] theorem State.afterReset_rst (s : State) : s.afterReset.rst = Config.resetApplied s.inst s.draws := rfl

@[simp] theorem State.afterReset_cfgIn (s : State) : s.afterReset.cfgIn = Config.cfgIn s.inst s.draws := rfl

@[simp] theorem State.afterReset_out (s : State) : s.afterReset.out = none := rfl

@[simp] theorem State.afterReset_draws (s : State) : s.afterReset.draws = s.draws + 1 := rfl

@[simp] theorem State.afterReset_inst (s : State) : s.afterReset.inst = s.inst := rfl

@[simp] theorem State.afterReset_sel (s : State) : s.afterReset.sel = s.sel := rfl

/-! ### beginTick and finishTick -/

@[simp] theorem beginTick_par (s : State) : (beginTick s).par = s.par := rfl

@[simp] theorem beginTick_r (s : State) : (beginTick s).r = s.r := rfl

@[simp] theorem beginTick_tv (s : State) : (beginTick s).tv = TickVals.idle s.par := rfl

@[simp] theorem beginTick_env (s : State) : (beginTick s).env = s.env := rfl

@[simp] theorem beginTick_rst (s : State) : (beginTick s).rst = s.rst := rfl

@[simp] theorem beginTick_cfgIn (s : State) : (beginTick s).cfgIn = s.cfgIn := rfl

@[simp] theorem beginTick_out (s : State) : (beginTick s).out = s.out := rfl

@[simp] theorem beginTick_draws (s : State) : (beginTick s).draws = s.draws := rfl

@[simp] theorem beginTick_inst (s : State) : (beginTick s).inst = s.inst := rfl

@[simp] theorem beginTick_sel (s : State) : (beginTick s).sel = s.sel := rfl

@[simp] theorem finishTick_par (s : State) : (finishTick s).par = s.par := rfl

@[simp] theorem finishTick_r (s : State) : (finishTick s).r = s.r := rfl

@[simp] theorem finishTick_tv (s : State) : (finishTick s).tv = TickVals.idle s.par := rfl

@[simp] theorem finishTick_env (s : State) : (finishTick s).env = Env.draw s.par s.inst s.draws := rfl

@[simp] theorem finishTick_rst (s : State) : (finishTick s).rst = Config.resetApplied s.inst s.draws := rfl

@[simp] theorem finishTick_cfgIn (s : State) : (finishTick s).cfgIn = Config.cfgIn s.inst s.draws := rfl

@[simp] theorem finishTick_out (s : State) : (finishTick s).out = some s.tv.out := rfl

@[simp] theorem finishTick_draws (s : State) : (finishTick s).draws = s.draws + 1 := rfl

@[simp] theorem finishTick_inst (s : State) : (finishTick s).inst = s.inst := rfl

@[simp] theorem finishTick_sel (s : State) : (finishTick s).sel = s.sel := rfl

end Sys2Proof.Machine
end

