-- ==== Sys2Proof/Machine/Compose.lean ====
section
/-! DEFINITION. Several routers connected by links (46_router_tick.md R195): an egress port of one tied
to an ingress port of another, a flit channel forward and a credit channel per VC back, each with a
latency in ticks of its own. No instruction of the router acts on another router: this is the
composition the spec describes, on top of TICK. Its conventions are log entry 18. -/

namespace Sys2Proof.Machine

/-- Egress port `k` of router `src` tied to ingress port `p` of router `dst`, with the latency of the
flit channel and of the credit channel of each VC (R195: "0 or more ticks, per channel";
30_encoding.md R81: one credit channel per VC). A `steady` link never refuses a send; of any other
link the ready bits that the environment records of its two ends hold are what "the channel between
them says" (R195). -/
structure Link where
  src : Nat
  k : Nat
  dst : Nat
  p : Nat
  flitLatency : Nat
  creditLatency : List Nat
  steady : Bool
deriving DecidableEq, Repr

/-- What is under way on the channels of a link, oldest first, one entry for each tick of latency. -/
structure Wire where
  flits : List (Option Flit)
  credits : List (List (Option (BitVec 1)))
deriving DecidableEq, Repr

/-- Router instances and the links between them. Ports that no link names keep the peers of
46_router_tick.md R191. -/
structure Network where
  routers : List State
  links : List (Link × Wire)
deriving DecidableEq, Repr

/-! ### What may be tied -/

/-- The same routing mode, with the same fields in a header (30_encoding.md R76 to R80). -/
def Params.sameHeader (a b : Params) : Bool :=
  match a.mode, b.mode with
  | .sr h, .sr h' => decide (h = h') && decide (a.NL = b.NL) && decide (a.RSELW = b.RSELW)
  | .lut l r, .lut l' r' => decide (l = l') && decide (r = r')
  | .sr _, .lut _ _ => false
  | .lut _ _, .sr _ => false

/-- "All connected parties use the same V, B, W, MODE and flit layout"
(70_reset_and_hazards.md R233 (d), R195). -/
def Params.tieable (a b : Params) : Bool :=
  decide (a.V = b.V) && decide (a.B = b.B) && decide (a.W = b.W) && Params.sameHeader a b

/-- The channels of a link with nothing under way. -/
def Link.empty (l : Link) : Wire :=
  { flits := List.replicate l.flitLatency none
    credits := l.creditLatency.map fun n => List.replicate n none }

/-- A wire has one entry for each tick of its link's latencies. -/
def Wire.fits (w : Wire) (l : Link) : Bool :=
  decide (w.flits.length = l.flitLatency) && decide (w.credits.map List.length = l.creditLatency)

/-- A link ties ports that exist, of routers that may be tied, with a credit channel for each VC. The
two may be one router, its egress tied back to its own ingress: DESIGN CHOICE, log entry 28. -/
def Network.linkOk (net : Network) (x : Link × Wire) : Bool :=
  match net.routers[x.1.src]?, net.routers[x.1.dst]? with
  | some s, some d =>
    decide (x.1.k < s.par.N) && decide (x.1.p < d.par.N) &&
      decide (x.1.creditLatency.length = s.par.V) && Params.tieable s.par d.par && x.2.fits x.1
  | _, _ => false

/-- The routers can be built and are different instances, every link is in order, and no port has two
links. That no loop of channels is without latency is asked by the sweep of a tick. -/
def Network.ok (net : Network) : Bool :=
  (net.routers.all fun s => s.par.ok) && decide (net.routers.map State.inst).Nodup &&
    net.links.all net.linkOk &&
    decide (net.links.map fun x => (x.1.src, x.1.k)).Nodup &&
    decide (net.links.map fun x => (x.1.dst, x.1.p)).Nodup

/-! ### Channels -/

/-- What comes out of a channel in the tick in which `new` goes in: with latency 0, `new` itself. -/
def arriving {α : Type} (line : List (Option α)) (new : Option α) : Option α :=
  (line ++ [new]).headD none

/-- What is under way after that tick. -/
def underWay {α : Type} (line : List (Option α)) (new : Option α) : List (Option α) :=
  (line ++ [new]).tail

/-- A router that has taken its tick: the environment it met, and its state after it. -/
structure Ticked where
  env : Env
  after : State
deriving DecidableEq, Repr

/-- The flit delivered at egress port `k` in the tick: offered and accepted (R192). -/
def Ticked.sentFlit (t : Ticked) (k : Nat) : Option Flit :=
  match t.after.out with
  | some o => if entry false o.delivered k then entry none o.flit k else none
  | none => none

/-- The credit returned for `(p, v)` in the tick: offered, and accepted (R192). -/
def Ticked.sentCredit (t : Ticked) (p v : Nat) : Option (BitVec 1) :=
  match t.after.out with
  | some o => if t.env.creditReadyAt p v then cell none o.credit p v else none
  | none => none

/-- The flit that goes into a link, when its sender has taken its tick. -/
def flitInto (done : List (Option Ticked)) (l : Link) : Option Flit :=
  (entry none done l.src).bind fun t => t.sentFlit l.k

/-- The credit of VC `v` that goes into a link, when its receiver has taken its tick. -/
def creditInto (done : List (Option Ticked)) (l : Link) (v : Nat) : Option (BitVec 1) :=
  (entry none done l.dst).bind fun t => t.sentCredit l.p v

/-! ### A tick of the network -/

/-- The link into ingress port `p` of router `r`. -/
def Network.linkInto (net : Network) (r p : Nat) : Option (Link × Wire) :=
  net.links.find? fun x => x.1.dst == r && x.1.p == p

/-- The link out of egress port `k` of router `r`. -/
def Network.linkOutOf (net : Network) (r k : Nat) : Option (Link × Wire) :=
  net.links.find? fun x => x.1.src == r && x.1.k == k

/-- The environment record router `r`, in state `s`, meets: at a tied port what comes out of the
channel, and the channel's readiness; at any other port its own record (R191, R195). -/
def Network.envFor (net : Network) (done : List (Option Ticked)) (r : Nat) (s : State) : Env :=
  { inFlit := tab s.par.N fun p =>
      match net.linkInto r p with
      | some x => arriving x.2.flits (flitInto done x.1)
      | none => s.env.flitAt p
    inCredit := tab2 s.par.N s.par.V fun k v =>
      match net.linkOutOf r k with
      | some x => arriving (entry [] x.2.credits v) (creditInto done x.1 v)
      | none => s.env.creditAt k v
    outReady := tab s.par.N fun k =>
      match net.linkOutOf r k with
      | some x => x.1.steady || s.env.readyAt k
      | none => s.env.readyAt k
    creditReady := tab2 s.par.N s.par.V fun p v =>
      match net.linkInto r p with
      | some x => x.1.steady || s.env.creditReadyAt p v
      | none => s.env.creditReadyAt p v }

/-- Whether all that router `r` receives over channels without latency has been sent. -/
def Network.canTick (net : Network) (done : List (Option Ticked)) (r : Nat) : Bool :=
  net.links.all fun x =>
    (!(x.1.dst == r && x.1.flitLatency == 0) || (entry none done x.1.src).isSome) &&
      (!(x.1.src == r && x.1.creditLatency.contains 0) || (entry none done x.1.dst).isSome)

/-- A router that has not taken its tick and can. -/
def Network.nextToTick (net : Network) (done : List (Option Ticked)) : Option Nat :=
  (List.range net.routers.length).find? fun r => (entry none done r).isNone && net.canTick done r

/-- `n` routers take their tick, each once it knows what it receives. Where none can, a loop of
channels is without latency: "or the composed step is not a function" (R195). A router that records a
fault in its tick sends nothing in it, and the others still take theirs; one that holds a fault already
ends the sweep, the first in its order being the one reported: DESIGN CHOICE, log entry 26. -/
def Network.sweep (net : Network) : Nat → List (Option Ticked) →
    Host.Outcome (List (Option Ticked)) Fault Refusal
  | 0, done => .next done
  | n + 1, done =>
    match net.nextToTick done with
    | none => .refused .notTied
    | some r =>
      match net.routers[r]? with
      | none => .refused .notTied
      | some s =>
        match exec .tick (s.withEnv (net.envFor done r s)) with
        | .next t => net.sweep n (done.set r (some { env := net.envFor done r s, after := t }))
        | .fault e => .fault e
        | .refused e => .refused e

/-- The network after every router has taken its tick: what was sent is under way. -/
def Network.afterTick (net : Network) (done : List (Option Ticked)) : Network :=
  { routers := done.filterMap fun x => x.map Ticked.after
    links := net.links.map fun x =>
      (x.1,
        { flits := underWay x.2.flits (flitInto done x.1)
          credits := tab x.1.creditLatency.length fun v =>
            underWay (entry [] x.2.credits v) (creditInto done x.1 v) }) }

/-- One tick of the network: one TICK of every router (R195). Once a router is faulted no further tick
of the network is taken (log entry 26). -/
def Network.tick (net : Network) : Host.Outcome Network Fault Refusal :=
  if net.ok then
    match net.sweep net.routers.length (List.replicate net.routers.length none) with
    | .next done => .next (net.afterTick done)
    | .fault e => .fault e
    | .refused e => .refused e
  else .refused .notTied

/-- The joint RESET of 70_reset_and_hazards.md R233 (c): every router is reset and the channels are
emptied, so that every peer "has nothing in flight" (R233 (b)). -/
def Network.reset (net : Network) : Host.Outcome Network Fault Refusal :=
  if net.ok then
    .next
      { routers := net.routers.map State.afterReset
        links := net.links.map fun x => (x.1, x.1.empty) }
  else .refused .notTied

/-- Routers tied by links, nothing under way; none where they may not be tied so. -/
def Network.start (routers : List State) (links : List Link) : Option Network :=
  let net : Network := { routers := routers, links := links.map fun l => (l, l.empty) }
  if net.ok then some net else none

end Sys2Proof.Machine
end

