-- ==== Sys2Proof/Laws/Compose.lean ====
section
/-! SUPPORT. What a channel between two routers and a tick of a network can do. -/

namespace Sys2Proof.Machine

/-- A channel keeps its latency. -/
@[simp] theorem underWay_length {α : Type} (line : List (Option α)) (new : Option α) :
    (underWay line new).length = line.length := by
  simp [underWay]

/-- A channel without latency gives what goes in. -/
@[simp] theorem arriving_nil {α : Type} (new : Option α) : arriving [] new = new := rfl

/-- A channel with latency gives what it already holds, whatever goes in. -/
theorem arriving_of_latency {α : Type} {line : List (Option α)} (h : line ≠ []) (a b : Option α) :
    arriving line a = arriving line b := by
  cases line with
  | nil => exact absurd rfl h
  | cons x l => rfl

/-- What goes into a channel of latency `n + 1` comes out of it `n + 1` ticks later, after what was
under way. -/
theorem underWay_cons {α : Type} (x : Option α) (line : List (Option α)) (new : Option α) :
    arriving (x :: line) new = x ∧ underWay (x :: line) new = line ++ [new] :=
  ⟨rfl, rfl⟩

/-- A tick of a network is a tick of every router, on the links that were there. -/
theorem Network.tick_next {net t : Network} (h : net.tick = .next t) :
    net.ok = true ∧ ∃ done,
      net.sweep net.routers.length (List.replicate net.routers.length none) = .next done ∧
        t = net.afterTick done ∧ t.links.map Prod.fst = net.links.map Prod.fst := by
  unfold Network.tick at h
  split at h
  · split at h
    · rename_i hok _ done hd
      obtain rfl : net.afterTick done = t := by simpa using h
      exact ⟨hok, done, hd, rfl, by simp [Network.afterTick, Function.comp_def]⟩
    · cases h
    · cases h
  · cases h

/-- A router takes its tick only in the environment its links give it. -/
theorem Network.sweep_succ {net : Network} {n : Nat} {done out : List (Option Ticked)}
    (h : net.sweep (n + 1) done = .next out) :
    ∃ r s t, net.nextToTick done = some r ∧ net.routers[r]? = some s ∧
      exec .tick (s.withEnv (net.envFor done r s)) = .next t ∧
      net.sweep n (done.set r (some { env := net.envFor done r s, after := t })) = .next out := by
  unfold Network.sweep at h
  split at h
  · cases h
  · split at h
    · cases h
    · split at h
      · exact ⟨_, _, _, ‹_›, ‹_›, ‹_›, h⟩
      · cases h
      · cases h

end Sys2Proof.Machine
end

