-- ==== Sys2Proof/Laws/Decode.lean ====
section
/-! SUPPORT. The decode key of 30_encoding.md R84, as a case split, and the selection it makes for a
flit; and that a position tag is read back from its code. -/

namespace Sys2Proof

theorem keyOp_makeKey (m p1 p0 mf : Bool) :
    keyOp (makeKey m p1 p0 mf) =
      if p1 = false then .hold else if m = false then .sr else if mf then .mcast else .ucast := by
  revert m p1 p0 mf; decide

theorem Pos.ofCode_code (t : Pos) : Pos.ofCode t.code = t := by cases t <;> decide

namespace Machine

theorem keyOp_routeKey (par : Params) (f : Flit) :
    keyOp (routeKey par f) =
      if isHeader f = false then .hold else if par.isLut = false then .sr
      else if mflag par f.payload then .mcast else .ucast := by
  rw [routeKey, keyOp_makeKey]
  cases par.isLut <;> cases mflag par f.payload <;> simp

end Machine

end Sys2Proof
end

