-- ==== Sys2Proof/Laws/Ops.lean ====
section
/-! SUPPORT. What the shared operations can do, said once: the outcome of an operation of the router,
the sequence of phases, and the counters. -/

namespace Sys2Proof.Machine

/-! ### A phase that may stop -/

theorem unlessStop_ok {o : Option Stop} {s t : State} :
    unlessStop o s = .ok t ↔ o = none ∧ t = s := by
  cases o <;> simp [unlessStop, eq_comm]

theorem unlessStop_error {o : Option Stop} {s : State} {e : Stop} :
    unlessStop o s = .error e ↔ o = some e := by
  cases o <;> simp [unlessStop]

/-! ### The outcome of an operation -/

theorem runOp_of_ok {op : State → Res} {s t : State} (hf : s.r.fault = none) (h : op s = .ok t) :
    runOp op s = .next t := by
  simp [runOp, hf, h, settle]

theorem runOp_of_raise {op : State → Res} {s : State} {c : Code} {n : Nat}
    (hf : s.r.fault = none) (h : op s = .error (.raise c n)) :
    runOp op s = .next (s.raiseFatal c n) := by
  simp [runOp, hf, h, settle]

theorem runOp_of_refuse {op : State → Res} {s : State} {r : Refusal}
    (hf : s.r.fault = none) (h : op s = .error (.refuse r)) : runOp op s = .refused r := by
  simp [runOp, hf, h, settle]

theorem runOp_of_faulted {op : State → Res} {s : State} {e : FaultRec}
    (hf : s.r.fault = some e) : runOp op s = .fault (.aborted e.code e.info) := by
  simp [runOp, hf]

/-- Everything an operation of the router can do when it answers a next state: it completes, or it
raises a fatal fault. -/
theorem runOp_next {op : State → Res} {s t : State} (h : runOp op s = .next t) :
    s.r.fault = none ∧
      (op s = .ok t ∨ ∃ c n, op s = .error (.raise c n) ∧ t = s.raiseFatal c n) := by
  unfold runOp at h
  cases hf : s.r.fault with
  | some e => simp [hf] at h
  | none =>
    refine ⟨rfl, ?_⟩
    simp only [hf, settle] at h
    cases ho : op s with
    | ok u => simp only [ho, Host.Outcome.next.injEq] at h; exact .inl (by rw [h])
    | error e =>
      cases e with
      | raise c n =>
        simp only [ho, Host.Outcome.next.injEq] at h
        exact .inr ⟨c, n, rfl, h.symm⟩
      | refuse r => simp [ho] at h

theorem runChecked_of_wellFormed {i : Instr} {op : State → Res} {s : State}
    (h : i.wellFormed s.par = true) : runChecked i op s = runOp op s := by
  simp [runChecked, h]

theorem runChecked_next {i : Instr} {op : State → Res} {s t : State}
    (h : runChecked i op s = .next t) : i.wellFormed s.par = true ∧ runOp op s = .next t := by
  unfold runChecked at h
  split at h
  · exact ⟨‹_›, h⟩
  · simp at h

/-! ### The phases in order -/

theorem runPhases_cons_ok {op : State → Res} {l : List (State → Res)} {s t : State}
    (h : runPhases (op :: l) s = .ok t) : ∃ u, op s = .ok u ∧ runPhases l u = .ok t := by
  unfold runPhases at h
  cases ho : op s with
  | ok u => exact ⟨u, rfl, by simpa [ho] using h⟩
  | error e => simp [ho] at h

theorem runPhases_append (l m : List (State → Res)) (s : State) :
    runPhases (l ++ m) s =
      match runPhases l s with
      | .ok t => runPhases m t
      | .error e => .error e := by
  induction l generalizing s with
  | nil => rfl
  | cons op l ih =>
    simp only [List.cons_append, runPhases]
    cases op s <;> simp [ih]

/-- What every phase keeps, the sequence of phases keeps. -/
theorem runPhases_keeps {P : State → Prop} {l : List (State → Res)}
    (hl : ∀ op ∈ l, ∀ s t, P s → op s = .ok t → P t) {s t : State} (hs : P s)
    (h : runPhases l s = .ok t) : P t := by
  induction l generalizing s with
  | nil => simp only [runPhases, Except.ok.injEq] at h; exact h ▸ hs
  | cons op l ih =>
    obtain ⟨u, hu, h⟩ := runPhases_cons_ok h
    exact ih (fun op' ho => hl op' (List.mem_cons_of_mem _ ho)) (hl op (by simp) s u hs hu) h

/-- A tick that completes is its phases, on fresh tick values, and then its end. -/
theorem tick_ok {s t : State} (h : tick s = .ok t) :
    ∃ u, runPhases phases (beginTick s) = .ok u ∧ t = finishTick u := by
  unfold tick at h
  cases hp : runPhases phases (beginTick s) with
  | ok u => exact ⟨u, rfl, by simpa [hp, eq_comm] using h⟩
  | error e => simp [hp] at h

/-! ### Counters -/

theorem counterAdd_eq_some {par : Params} {c n x : Nat} :
    counterAdd par c n = some x ↔ c + n ≤ par.B ∧ x = c + n := by
  unfold counterAdd; split <;> simp_all [eq_comm]

theorem counterAdd_eq_none {par : Params} {c n : Nat} :
    counterAdd par c n = none ↔ par.B < c + n := by
  unfold counterAdd; split <;> simp_all

theorem counterSub_eq_some {c n x : Nat} : counterSub c n = some x ↔ n ≤ c ∧ x = c - n := by
  unfold counterSub; split <;> simp_all [eq_comm]

theorem counterSub_eq_none {c n : Nat} : counterSub c n = none ↔ c < n := by
  unfold counterSub; split <;> simp_all

end Sys2Proof.Machine
end

