-- ==== Sys2Proof/Laws/PerInstr.lean ====
section
/-! SUPPORT. The statements made of every instruction, one lemma per constructor: EncodeFormat, the
format and operation number its record begins with. Two instructions whose records begin alike
differ in operands only. -/

namespace Sys2Proof.Laws

/-- How many leading cells of an instruction's record say what it is, and those cells. The four flit
messages share a format: their position tag is in the flit word. -/
def EncodeFormat.lead (i : Instr) : List Nat :=
  match i with
  | .routeSr _ => [0]
  | .routeLutUcast _ => [0]
  | .routeLutMcast _ => [0]
  | .routeHold _ => [0]
  | .flitBody _ _ _ => [1]
  | .flitTail _ _ _ => [1]
  | .flitHead _ _ _ => [1]
  | .flitSngl _ _ _ => [1]
  | .creditMsg _ _ _ => [2]
  | .reset => [3, 0]
  | .tick => [3, 1]
  | .creditRx => [3, 2]
  | .ingressRx => [3, 3]
  | .vcSelect => [3, 4]
  | .peek => [3, 5]
  | .reqBuild => [3, 6]
  | .mcastWithdraw => [3, 7]
  | .outArb => [3, 8]
  | .mcastForce => [3, 9]
  | .grantFinal => [3, 10]
  | .grantCommit => [3, 11]
  | .creditDec _ _ => [3, 12]
  | .creditOwe _ _ => [3, 13]
  | .xbar => [3, 14]
  | .hdrRewriteLut _ _ => [3, 15]
  | .egressTx => [3, 16]
  | .creditTx => [3, 17]
  | .arbPick _ _ => [3, 18]

/-- The record of an instruction begins with the cells that name it, whatever the router. -/
def EncodeFormat.Statement (i : Instr) : Prop :=
  ∀ par : Params, EncodeFormat.lead i <+: encode par i

theorem EncodeFormat.routeSr (p : Nat) : EncodeFormat.Statement (.routeSr p) := by
  intro par; simp [EncodeFormat.lead, encode]

theorem EncodeFormat.routeLutUcast (p : Nat) : EncodeFormat.Statement (.routeLutUcast p) := by
  intro par; simp [EncodeFormat.lead, encode]

theorem EncodeFormat.routeLutMcast (p : Nat) : EncodeFormat.Statement (.routeLutMcast p) := by
  intro par; simp [EncodeFormat.lead, encode]

theorem EncodeFormat.routeHold (p : Nat) : EncodeFormat.Statement (.routeHold p) := by
  intro par; simp [EncodeFormat.lead, encode]

theorem EncodeFormat.flitBody (p vc x : Nat) : EncodeFormat.Statement (.flitBody p vc x) := by
  intro par; simp [EncodeFormat.lead, encode]

theorem EncodeFormat.flitTail (p vc x : Nat) : EncodeFormat.Statement (.flitTail p vc x) := by
  intro par; simp [EncodeFormat.lead, encode]

theorem EncodeFormat.flitHead (p vc x : Nat) : EncodeFormat.Statement (.flitHead p vc x) := by
  intro par; simp [EncodeFormat.lead, encode]

theorem EncodeFormat.flitSngl (p vc x : Nat) : EncodeFormat.Statement (.flitSngl p vc x) := by
  intro par; simp [EncodeFormat.lead, encode]

theorem EncodeFormat.creditMsg (k v : Nat) (a : BitVec 1) : EncodeFormat.Statement (.creditMsg k v a) := by
  intro par; simp [EncodeFormat.lead, encode]

theorem EncodeFormat.reset : EncodeFormat.Statement .reset := by
  intro par; simp [EncodeFormat.lead, encode]

theorem EncodeFormat.tick : EncodeFormat.Statement .tick := by
  intro par; simp [EncodeFormat.lead, encode]

theorem EncodeFormat.creditRx : EncodeFormat.Statement .creditRx := by
  intro par; simp [EncodeFormat.lead, encode]

theorem EncodeFormat.ingressRx : EncodeFormat.Statement .ingressRx := by
  intro par; simp [EncodeFormat.lead, encode]

theorem EncodeFormat.vcSelect : EncodeFormat.Statement .vcSelect := by
  intro par; simp [EncodeFormat.lead, encode]

theorem EncodeFormat.peek : EncodeFormat.Statement .peek := by
  intro par; simp [EncodeFormat.lead, encode]

theorem EncodeFormat.reqBuild : EncodeFormat.Statement .reqBuild := by
  intro par; simp [EncodeFormat.lead, encode]

theorem EncodeFormat.mcastWithdraw : EncodeFormat.Statement .mcastWithdraw := by
  intro par; simp [EncodeFormat.lead, encode]

theorem EncodeFormat.outArb : EncodeFormat.Statement .outArb := by
  intro par; simp [EncodeFormat.lead, encode]

theorem EncodeFormat.mcastForce : EncodeFormat.Statement .mcastForce := by
  intro par; simp [EncodeFormat.lead, encode]

theorem EncodeFormat.grantFinal : EncodeFormat.Statement .grantFinal := by
  intro par; simp [EncodeFormat.lead, encode]

theorem EncodeFormat.grantCommit : EncodeFormat.Statement .grantCommit := by
  intro par; simp [EncodeFormat.lead, encode]

theorem EncodeFormat.creditDec (k v : Nat) : EncodeFormat.Statement (.creditDec k v) := by
  intro par; simp [EncodeFormat.lead, encode]

theorem EncodeFormat.creditOwe (i v : Nat) : EncodeFormat.Statement (.creditOwe i v) := by
  intro par; simp [EncodeFormat.lead, encode]

theorem EncodeFormat.xbar : EncodeFormat.Statement .xbar := by
  intro par; simp [EncodeFormat.lead, encode]

theorem EncodeFormat.hdrRewriteLut (i k : Nat) : EncodeFormat.Statement (.hdrRewriteLut i k) := by
  intro par; simp [EncodeFormat.lead, encode]

theorem EncodeFormat.egressTx : EncodeFormat.Statement .egressTx := by
  intro par; simp [EncodeFormat.lead, encode]

theorem EncodeFormat.creditTx : EncodeFormat.Statement .creditTx := by
  intro par; simp [EncodeFormat.lead, encode]

theorem EncodeFormat.arbPick (a : ArbId) (valid : Mask) : EncodeFormat.Statement (.arbPick a valid) := by
  intro par; cases a <;> simp [EncodeFormat.lead, encode]

end Sys2Proof.Laws
end

