-- ==== Sys2Proof/Laws/Pick.lean ====
section
/-! SUPPORT. What ARB.PICK can answer, said once: nothing when no requester is valid, and otherwise
the valid requester nearest above the pointer, in cyclic order. -/

namespace Sys2Proof.Machine

theorem pick_eq_none {n ptr : Nat} {valid : Mask} :
    pick n ptr valid = none ↔ ∀ d < n, valid.testBit ((ptr + d) % n) = false := by
  simp [pick]

/-- Everything a pick that answers says. -/
theorem pick_eq_some {n ptr w : Nat} {valid : Mask} (h : pick n ptr valid = some w) :
    ∃ d < n, w = (ptr + d) % n ∧ valid.testBit w = true ∧
      ∀ d' < d, valid.testBit ((ptr + d') % n) = false := by
  obtain ⟨d, hd, h1, h2⟩ := exists_of_firstOf (n := n) h
  split at h1
  · refine ⟨d, hd, ?_, ?_, ?_⟩
    · simpa [eq_comm] using h1
    · simp only [Option.some.injEq] at h1; rwa [← h1]
    · intro d' hd'; have := h2 d' hd'; simpa using this
  · simp at h1

theorem pick_lt {n ptr w : Nat} {valid : Mask} (h : pick n ptr valid = some w) : w < n := by
  obtain ⟨d, hd, rfl, -⟩ := pick_eq_some h
  exact Nat.mod_lt _ (by omega)

theorem pick_testBit {n ptr w : Nat} {valid : Mask} (h : pick n ptr valid = some w) :
    valid.testBit w = true := by
  obtain ⟨-, -, -, h, -⟩ := pick_eq_some h; exact h

/-- Every requester below `n` is `d` steps above the pointer for some `d < n`. -/
theorem exists_offset {n ptr i : Nat} (hi : i < n) (hp : ptr < n) :
    (i + n - ptr) % n < n ∧ (ptr + (i + n - ptr) % n) % n = i := by
  refine ⟨Nat.mod_lt _ (by omega), ?_⟩
  rw [Nat.add_mod_mod, show ptr + (i + n - ptr) = i + n by omega, Nat.add_mod_right,
    Nat.mod_eq_of_lt hi]

theorem offset_mod {n ptr d : Nat} (hd : d < n) (hp : ptr < n) :
    ((ptr + d) % n + n - ptr) % n = d := by
  by_cases h : ptr + d < n
  · rw [Nat.mod_eq_of_lt h, show ptr + d + n - ptr = d + n by omega, Nat.add_mod_right,
      Nat.mod_eq_of_lt hd]
  · have hm : (ptr + d) % n = ptr + d - n := by
      rw [Nat.mod_eq_sub_mod (by omega), Nat.mod_eq_of_lt (by omega)]
    rw [hm, show ptr + d - n + n - ptr = d by omega, Nat.mod_eq_of_lt hd]

theorem pick_eq_none_iff_zero {n ptr : Nat} {valid : Mask} (hv : valid < 2 ^ n) (hp : ptr < n) :
    pick n ptr valid = none ↔ valid = 0 := by
  rw [pick_eq_none]
  constructor
  · intro h
    apply Nat.eq_of_testBit_eq
    intro i
    rw [Nat.zero_testBit]
    by_cases hi : i < n
    · obtain ⟨h1, h2⟩ := exists_offset hi hp
      rw [← h2]; exact h _ h1
    · exact Nat.testBit_lt_two_pow (hv.trans_le (Nat.pow_le_pow_right (by decide) (by omega)))
  · rintro rfl; simp

/-- The winner is the valid requester nearest above the pointer. -/
theorem pick_nearest {n ptr w i : Nat} {valid : Mask} (h : pick n ptr valid = some w)
    (hp : ptr < n) (hi : i < n) (hv : valid.testBit i = true) :
    (w + n - ptr) % n ≤ (i + n - ptr) % n := by
  obtain ⟨d, hd, rfl, -, hmin⟩ := pick_eq_some h
  rw [offset_mod hd hp]
  by_contra hlt
  obtain ⟨h1, h2⟩ := exists_offset hi hp
  have := hmin _ (not_le.1 hlt)
  rw [h2, hv] at this
  exact absurd this (by decide)

theorem pickPtr_of_some {n ptr w : Nat} {valid : Mask} (h : pick n ptr valid = some w) :
    pickPtr n ptr valid = (w + 1) % n := by
  simp [pickPtr, h]

theorem pickPtr_of_none {n ptr : Nat} {valid : Mask} (h : pick n ptr valid = none) :
    pickPtr n ptr valid = ptr := by
  simp [pickPtr, h]

theorem pickMask_of_some {n ptr w : Nat} {valid : Mask} (h : pick n ptr valid = some w) :
    pickMask n ptr valid = 2 ^ w := by
  simp [pickMask, h, onehot, pick_lt h]

theorem pickMask_of_none {n ptr : Nat} {valid : Mask} (h : pick n ptr valid = none) :
    pickMask n ptr valid = 0 := by
  simp [pickMask, h]

theorem pickPtr_lt {n ptr : Nat} {valid : Mask} (hp : ptr < n) : pickPtr n ptr valid < n := by
  unfold pickPtr
  split
  · exact Nat.mod_lt _ (by omega)
  · exact hp

end Sys2Proof.Machine
end

