-- ==== Sys2Proof/Laws/Phases.lean ====
section
/-! SUPPORT. What each phase of a tick can do, said once: if it completes, what held before it and what
every part of the state is after it. Proofs about ticks cite these and unfold no phase. -/

namespace Sys2Proof.Machine

/-- Updates of the router, the tick's values and the environment record leave the rest alone. -/
theorem sameOutside_rfl {s : State} {r : Router} {tv : TickVals} {env : Env} :
    SameOutside s { s with r := r, tv := tv, env := env } :=
  ⟨rfl, rfl, rfl, rfl, rfl, rfl, rfl⟩

theorem shaped_tab2 {α : Type} (n m : Nat) (f : Nat → Nat → α) : Shaped (tab2 n m f) n m := by
  refine ⟨by simp [tab2], fun row h => ?_⟩
  obtain ⟨i, -, rfl⟩ := mem_tab.1 h
  simp

/-! ### Stops -/

theorem creditAfter_eq {s : State} {k v : Nat} (h : creditRxStop s k v = none) :
    creditAfter s k v = some (s.r.caAt k v + amountAt s.env k v) := by
  unfold creditRxStop at h
  split at h
  · next c hc =>
    rw [hc]
    unfold creditAfter at hc
    unfold amountAt
    split at hc <;> simp_all [counterAdd_eq_some]
  · cases h

theorem creditRxStop_eq_none {s : State} {k v : Nat} (h : s.r.caAt k v ≤ s.par.B) :
    creditRxStop s k v = none ↔ s.r.caAt k v + amountAt s.env k v ≤ s.par.B := by
  unfold creditRxStop creditAfter amountAt
  cases s.env.creditAt k v with
  | none => simpa using h
  | some a =>
    cases hc : counterAdd s.par (s.r.caAt k v) a.toNat with
    | none => simpa [hc] using counterAdd_eq_none.1 hc
    | some c => simpa [hc] using (counterAdd_eq_some.1 hc).1

theorem ingressRxStop_eq_none {s : State} {p : Nat} :
    ingressRxStop s p = none ↔
      ∀ f, s.env.flitAt p = some f → f.vc < s.par.V ∧ (s.r.qAt p f.vc).length < s.par.B := by
  unfold ingressRxStop queueFull
  cases s.env.flitAt p with
  | none => simp
  | some f =>
    by_cases h1 : s.par.V ≤ f.vc
    · simp [h1]
    · by_cases h2 : s.par.B ≤ (s.r.qAt p f.vc).length <;> simp [h1, h2]; omega

theorem peekStop_eq_none {s : State} {p : Nat} :
    peekStop s p = none ↔ ∀ v, s.tv.vcAt p = some v → s.r.qAt p v ≠ [] := by
  unfold peekStop
  cases s.tv.vcAt p with
  | none => simp
  | some v => cases hq : s.r.qAt p v <;> simp [qFront, hq]

theorem arrival_eq_some {s : State} {p v : Nat} {f : Flit} :
    arrival s p v = some f ↔ s.env.flitAt p = some f ∧ f.vc = v := by
  unfold arrival
  cases s.env.flitAt p with
  | none => simp
  | some g =>
    simp only [Option.some.injEq]
    by_cases h : g.vc = v
    · simp only [h, if_true, Option.some.injEq]
      exact ⟨fun e => ⟨e, e ▸ h⟩, fun e => e.1⟩
    · simp only [h, if_false]
      exact ⟨fun e => by simp at e, fun e => absurd (e.1 ▸ e.2) h⟩

/-! ### Phases P1 to P4 -/

theorem creditRx_ok {s t : State} (h : creditRx s = .ok t) :
    (∀ k < s.par.N, ∀ v < s.par.V, creditRxStop s k v = none) ∧
    (∀ k < s.par.N, ∀ v < s.par.V,
      t.r.caAt k v = s.r.caAt k v + amountAt s.env k v ∧ t.env.creditAt k v = none) ∧
    t.r = { s.r with ca := t.r.ca } ∧ Shaped t.r.ca s.par.N s.par.V ∧
    t.env = { s.env with inCredit := t.env.inCredit } ∧
    t.tv = { s.tv with out := { s.tv.out with creditTaken := t.tv.out.creditTaken } } ∧
    SameOutside s t := by
  obtain ⟨hs, rfl⟩ := unlessStop_ok.1 h
  rw [firstOf2_eq_none] at hs
  refine ⟨hs, fun k hk v hv => ⟨?_, ?_⟩, rfl, shaped_tab2 .., rfl, rfl, sameOutside_rfl⟩
  · simp [Router.caAt, hk, hv, creditAfter_eq (hs k hk v hv)]
  · simp [Env.creditAt, hk, hv]

theorem ingressRx_ok {s t : State} (h : ingressRx s = .ok t) :
    (∀ p < s.par.N, ingressRxStop s p = none) ∧
    (∀ p < s.par.N, ∀ v < s.par.V,
      t.r.qAt p v = s.r.qAt p v ++ (arrival s p v).toList ∧
        t.tv.pushedAt p v = (arrival s p v).isSome) ∧
    (∀ p < s.par.N, t.env.flitAt p = none) ∧
    t.r = { s.r with q := t.r.q } ∧ Shaped t.r.q s.par.N s.par.V ∧
    t.env = { s.env with inFlit := t.env.inFlit } ∧
    t.tv = { s.tv with
      pushed := t.tv.pushed, out := { s.tv.out with inTaken := t.tv.out.inTaken } } ∧
    SameOutside s t := by
  obtain ⟨hs, rfl⟩ := unlessStop_ok.1 h
  rw [firstOf_eq_none] at hs
  refine ⟨hs, fun p hp v hv => ⟨?_, ?_⟩, fun p hp => ?_, rfl, shaped_tab2 .., rfl, rfl, sameOutside_rfl⟩
  · simp only [Router.qAt, State.withTv_r, State.withEnv_r, State.withRouter_r, hp, hv,
      cell_tab2_of_lt]
    cases arrival s p v <;> simp [qPush]
  · simp [TickVals.pushedAt, hp, hv]
  · simp [Env.flitAt, hp]

theorem nonemptyMask_testBit (s : State) (p v : Nat) :
    (nonemptyMask s p).testBit v = (decide (v < s.par.V) && !(s.r.qAt p v).isEmpty) := by
  rw [nonemptyMask, testBit_maskOf, vcNonempty]
  cases s.r.qAt p v <;> simp

/-- VC.SELECT always completes. -/
theorem vcSelect_ok {s t : State} (h : vcSelect s = .ok t) :
    (∀ p < s.par.N,
      t.tv.vcAt p = pick s.par.V (s.r.arbVcAt p) (nonemptyMask s p) ∧
        t.r.arbVcAt p = pickPtr s.par.V (s.r.arbVcAt p) (nonemptyMask s p)) ∧
    (∀ p, s.par.N ≤ p → t.tv.vcAt p = none) ∧
    t.r = { s.r with arbVc := t.r.arbVc } ∧ t.r.arbVc.length = s.par.N ∧ t.env = s.env ∧
    t.tv = { s.tv with inValid := t.tv.inValid, vc := t.tv.vc } ∧ SameOutside s t := by
  cases h
  refine ⟨fun p hp => ⟨?_, ?_⟩, fun p hp => ?_, rfl, by simp, rfl, rfl, sameOutside_rfl⟩
  · simp only [TickVals.vcAt, State.withTv_tv, hp, entry_tab_of_lt]
    split
    · rfl
    · rename_i hz
      simp only [bne_iff_ne, ne_eq, not_not] at hz
      rw [hz, eq_comm, pick_eq_none]; simp
  · simp [Router.arbVcAt, hp]
  · simp [TickVals.vcAt, entry_tab, Nat.not_lt.2 hp]

theorem vcSelect_vcAt {s t : State} (h : vcSelect s = .ok t) {p v : Nat}
    (hv : t.tv.vcAt p = some v) : p < s.par.N ∧ v < s.par.V ∧ s.r.qAt p v ≠ [] := by
  obtain ⟨h1, h2, -⟩ := vcSelect_ok h
  have hp : p < s.par.N := by
    by_contra hp; rw [h2 p (not_lt.1 hp)] at hv; cases hv
  rw [(h1 p hp).1] at hv
  have := pick_testBit hv
  rw [nonemptyMask_testBit] at this
  refine ⟨hp, pick_lt hv, fun hq => ?_⟩
  simp [hq] at this

theorem peek_ok {s t : State} (h : peek s = .ok t) :
    (∀ p < s.par.N, peekStop s p = none) ∧
    (∀ p < s.par.N, t.tv.fAt p = (s.tv.vcAt p).bind fun v => (s.r.qAt p v).head?) ∧
    (∀ p, s.par.N ≤ p → t.tv.fAt p = none) ∧
    t.tv = { s.tv with f := t.tv.f } ∧ OnlyTickValues s t := by
  obtain ⟨hs, rfl⟩ := unlessStop_ok.1 h
  rw [firstOf_eq_none] at hs
  refine ⟨hs, fun p hp => ?_, fun p hp => ?_, rfl, sameOutside_rfl, rfl, rfl⟩
  · simp only [TickVals.fAt, State.withTv_tv, hp, entry_tab_of_lt]
    cases s.tv.vcAt p <;> rfl
  · simp [TickVals.fAt, entry_tab, Nat.not_lt.2 hp]

/-! ### Phase P5 -/

theorem routeAll_ok {s t : State} (h : routeAll s = .ok t) :
    (∀ p < s.par.N, routeStop s p = none) ∧
    (∀ p < s.par.N,
      t.tv.dmAt p = ((portResult s p).map fun x => x.2.dm).getD 0 ∧
        t.tv.frAt p = (portResult s p).map fun x => x.2.fr) ∧
    (∀ p, s.par.N ≤ p → t.tv.dmAt p = 0 ∧ t.tv.frAt p = none) ∧
    (∀ p < s.par.N, ∀ v < s.par.V,
      t.r.outDestAt p v = afterWrite (portResult s p) Routed.dest v (s.r.outDestAt p v) ∧
        t.r.isLocalAt p v = afterWrite (portResult s p) Routed.loc v (s.r.isLocalAt p v)) ∧
    t.r = { s.r with outDest := t.r.outDest, isLocal := t.r.isLocal } ∧
    Shaped t.r.outDest s.par.N s.par.V ∧ Shaped t.r.isLocal s.par.N s.par.V ∧
    t.tv = { s.tv with dm := t.tv.dm, fr := t.tv.fr } ∧ t.env = s.env ∧ SameOutside s t := by
  obtain ⟨hs, rfl⟩ := unlessStop_ok.1 h
  rw [firstOf_eq_none] at hs
  refine ⟨hs, fun p hp => ⟨?_, ?_⟩, fun p hp => ⟨?_, ?_⟩, fun p hp v hv => ⟨?_, ?_⟩, rfl,
    shaped_tab2 .., shaped_tab2 .., rfl, rfl, sameOutside_rfl⟩
  · simp [TickVals.dmAt, hp]
  · simp [TickVals.frAt, hp]
  · simp [TickVals.dmAt, entry_tab, Nat.not_lt.2 hp]
  · simp [TickVals.frAt, entry_tab, Nat.not_lt.2 hp]
  · simp [Router.outDestAt, hp, hv]
  · simp [Router.isLocalAt, hp, hv]

/-- In a tick a port's route operation has its result, or the port has no valid flit. -/
theorem portResult_of_routeStop {s : State} {p : Nat} (h : routeStop s p = none) :
    (peeked s p = none ∧ portResult s p = none) ∨
      ∃ v f x, peeked s p = some (v, f) ∧
        routed s (keyOp (routeKey s.par f)) p v f = .ok x ∧ portResult s p = some (v, x) := by
  unfold routeStop portRouted at h
  unfold portResult portRouted
  cases hp : peeked s p with
  | none => exact .inl ⟨rfl, by simp⟩
  | some y =>
    obtain ⟨v, f⟩ := y
    right
    cases hr : routed s (keyOp (routeKey s.par f)) p v f with
    | ok x => exact ⟨v, f, x, rfl, hr, by simp [hr]⟩
    | error e => simp [hp, hr] at h

/-! ### Phases P6 to P9 -/

theorem request_iff {s : State} {i k : Nat} :
    request s i k = true ↔
      ∃ v f, s.tv.vcAt i = some v ∧ s.tv.fAt i = some f ∧ s.r.caAt k v ≠ 0 ∧
        (s.tv.dmAt i).testBit k = true ∧ (s.r.igpAt k v = true ∨ isContinuation f = true) ∧
        (s.r.eqAt k).length < s.par.E := by
  unfold request
  cases hv : s.tv.vcAt i with
  | none => simp
  | some v =>
    cases hf : s.tv.fAt i with
    | none => simp
    | some f =>
      simp [hasCredit, packetRule, stagingFree, and_assoc]

theorem reqBuild_ok {s t : State} (h : reqBuild s = .ok t) :
    (∀ i < s.par.N, ∀ k < s.par.N, t.tv.reqAt i k = request s i k) ∧
    t.tv = { s.tv with req := t.tv.req } ∧ OnlyTickValues s t := by
  cases h
  refine ⟨fun i hi k hk => ?_, rfl, sameOutside_rfl, rfl, rfl⟩
  simp [TickVals.reqAt, hi, hk]

theorem allRequested_iff {s : State} {i : Nat} :
    allRequested s i = true ↔
      ∀ k < s.par.N, (s.tv.dmAt i).testBit k = true → s.tv.reqAt i k = true := by
  simp only [allRequested, allBelow_iff, Bool.or_eq_true, Bool.not_eq_true']
  refine forall₂_congr fun k _ => ?_
  cases (s.tv.dmAt i).testBit k <;> simp

theorem mcastWithdraw_ok {s t : State} (h : mcastWithdraw s = .ok t) :
    (∀ i < s.par.N, entry false t.tv.ok i = allRequested s i) ∧
    (∀ i < s.par.N, ∀ k < s.par.N,
      t.tv.req2At i k = (s.tv.reqAt i k && allRequested s i)) ∧
    t.tv = { s.tv with ok := t.tv.ok, req2 := t.tv.req2 } ∧ OnlyTickValues s t := by
  cases h
  refine ⟨fun i hi => ?_, fun i hi k hk => ?_, rfl, sameOutside_rfl, rfl, rfl⟩
  · simp [hi]
  · simp [TickVals.req2At, hi, hk]

theorem column_testBit (s : State) (k i : Nat) :
    (column s k).testBit i = (decide (i < s.par.N) && s.tv.req2At i k) := by
  rw [column, testBit_maskOf]

theorem outArb_ok {s t : State} (h : outArb s = .ok t) :
    (∀ k < s.par.N,
      t.tv.winAt k = pickMask s.par.N (s.r.arbOutAt k) (column s k) ∧
        t.r.arbOutAt k = pickPtr s.par.N (s.r.arbOutAt k) (column s k)) ∧
    t.r = { s.r with arbOut := t.r.arbOut } ∧ t.r.arbOut.length = s.par.N ∧
    t.tv = { s.tv with win := t.tv.win } ∧ t.env = s.env ∧ SameOutside s t := by
  cases h
  refine ⟨fun k hk => ⟨?_, ?_⟩, rfl, by simp, rfl, rfl, sameOutside_rfl⟩
  · simp [TickVals.winAt, hk]
  · simp [Router.arbOutAt, hk]

/-- The input an output's pick names is one whose bit the pick has. -/
theorem winner_testBit {s : State} {k i : Nat} (h : winner s k = some i) :
    i < s.par.N ∧ (s.tv.winAt k).testBit i = true := by
  unfold winner at h
  exact ⟨List.mem_range.1 (List.mem_of_find?_eq_some h), by simpa using List.find?_some h⟩

theorem forceValid_iff {s : State} {x : Forced} {i : Nat} :
    forceValid s x i = true ↔ ∀ k < s.par.N, (s.tv.dmAt i).testBit k = true →
      s.tv.req2At i k = true ∧ entry false x.claimed k = false := by
  simp only [forceValid, allBelow_iff, Bool.or_eq_true, Bool.not_eq_true', Bool.and_eq_true]
  refine forall₂_congr fun k _ => ?_
  cases (s.tv.dmAt i).testBit k <;> simp

/-- What the loop of MCAST.FORCE has done after the inputs below `n`: an unclaimed output keeps its
independent pick, a claimed one belongs to a forcer that took all its outputs. -/
theorem forceLoop_spec (s : State) (n : Nat) :
    (∀ k < s.par.N, entry false (forceLoop s n).claimed k = false →
      entry none (forceLoop s n).sel k = winner s k) ∧
    (∀ k < s.par.N, entry false (forceLoop s n).claimed k = true →
      ∃ i < n, isForcer s i = true ∧ (s.tv.dmAt i).testBit k = true ∧
        ∀ k' < s.par.N, (s.tv.dmAt i).testBit k' = true →
          s.tv.req2At i k' = true ∧ entry false (forceLoop s n).claimed k' = true ∧
            entry none (forceLoop s n).sel k' = some i) := by
  induction n with
  | zero =>
    constructor
    · intro k hk _; simp [forceLoop, forceStart, hk]
    · intro k hk h; simp [forceLoop, forceStart, hk] at h
  | succ n ih =>
    obtain ⟨ih1, ih2⟩ := ih
    unfold forceLoop forceInput
    by_cases hc : (isForcer s n && forceValid s (forceLoop s n) n) = true
    · rw [if_pos hc]
      rw [Bool.and_eq_true] at hc
      have hv := forceValid_iff.1 hc.2
      refine ⟨fun k hk h => ?_, fun k hk h => ?_⟩
      · simp only [hk, entry_tab_of_lt, Bool.or_eq_false_iff] at h ⊢
        rw [h.1]
        exact ih1 k hk h.2
      · simp only [hk, entry_tab_of_lt] at h
        by_cases hd : (s.tv.dmAt n).testBit k = true
        · refine ⟨n, Nat.lt_succ_self n, hc.1, hd, fun k' hk' hd' => ⟨(hv k' hk' hd').1, ?_, ?_⟩⟩
          · simp [hk', hd']
          · simp [hk', hd']
        · simp only [hd, Bool.false_or] at h
          obtain ⟨i, hi, h1, h2, h3⟩ := ih2 k hk h
          refine ⟨i, by omega, h1, h2, fun k' hk' hd' => ?_⟩
          obtain ⟨h4, h5, h6⟩ := h3 k' hk' hd'
          have hn : (s.tv.dmAt n).testBit k' = false := by
            by_contra hne
            have := (hv k' hk' (by simpa using hne)).2
            rw [h5] at this; cases this
          exact ⟨h4, by simp [hk', h5], by simp [hk', hn, h6]⟩
    · rw [if_neg hc]
      exact ⟨ih1, fun k hk h => by
        obtain ⟨i, hi, h'⟩ := ih2 k hk h
        exact ⟨i, by omega, h'⟩⟩

theorem mcastForce_ok {s t : State} (h : mcastForce s = .ok t) :
    t.tv.sel = (forceLoop s s.par.N).sel ∧ t.tv.claimed = (forceLoop s s.par.N).claimed ∧
    t.tv = { s.tv with sel := t.tv.sel, claimed := t.tv.claimed } ∧ OnlyTickValues s t := by
  cases h
  exact ⟨rfl, rfl, rfl, sameOutside_rfl, rfl, rfl⟩

theorem grantedWhole_iff {s : State} {i : Nat} :
    grantedWhole s i = true ↔
      (s.tv.vcAt i).isSome = true ∧ s.tv.dmAt i ≠ 0 ∧
        ∀ k < s.par.N, (s.tv.dmAt i).testBit k = true → s.tv.selAt k = some i := by
  simp only [grantedWhole, Bool.and_eq_true, allBelow_iff, Bool.or_eq_true, Bool.not_eq_true',
    bne_iff_ne, beq_iff_eq, and_assoc]
  refine and_congr_right fun _ => and_congr_right fun _ => forall₂_congr fun k _ => ?_
  cases (s.tv.dmAt i).testBit k <;> simp

theorem grantFinal_ok {s t : State} (h : grantFinal s = .ok t) :
    (∀ i < s.par.N, t.tv.fullAt i = grantedWhole s i ∧
      ∀ k < s.par.N, t.tv.grantAt i k = (grantedWhole s i && (s.tv.dmAt i).testBit k)) ∧
    t.tv = { s.tv with full := t.tv.full, grant := t.tv.grant } ∧ OnlyTickValues s t := by
  cases h
  refine ⟨fun i hi => ⟨?_, fun k hk => ?_⟩, rfl, sameOutside_rfl, rfl, rfl⟩
  · simp [TickVals.fullAt, hi]
  · simp [TickVals.grantAt, hi, hk]

/-! ### Phases P10 to P13 -/

theorem commits_iff {s : State} {i v : Nat} :
    commits s i v = true ↔ s.tv.fullAt i = true ∧ s.tv.vcAt i = some v := by
  simp [commits]

theorem commitStop_eq_none {s : State} {i : Nat} (hf : s.tv.fullAt i = true) :
    commitStop s i = none ↔
      ∃ v f, s.tv.vcAt i = some v ∧ s.tv.fAt i = some f ∧
        (s.par.rwForbidden = true → s.tv.pushedAt i v = false) ∧ s.r.qAt i v ≠ [] ∧
        s.r.coAt i v + 1 ≤ s.par.B := by
  unfold commitStop
  rw [if_pos hf]
  cases hv : s.tv.vcAt i with
  | none => simp
  | some v =>
    cases hg : s.tv.fAt i with
    | none => simp
    | some f =>
      cases h1 : s.par.rwForbidden <;> cases h2 : s.tv.pushedAt i v <;>
        cases h3 : s.r.qAt i v <;> simp [qFront, counterAdd, h2, h3]

/-- With every output granted at most once, a flit moved to `(k, v)` is the only one. -/
theorem moved_eq_one {s : State} {i k v : Nat}
    (huniq : ∀ a < s.par.N, ∀ b < s.par.N, commitsTo s a k v = true → commitsTo s b k v = true → a = b)
    (hi : i < s.par.N) (h : commitsTo s i k v = true) :
    moved s k v = 1 ∧ lastMover s k v = some i := by
  constructor
  · have : ∀ n, n ≤ s.par.N →
        (List.range n).countP (fun a => commitsTo s a k v) = if i < n then 1 else 0 := by
      intro n hn
      induction n with
      | zero => simp
      | succ n ih =>
        rw [List.range_succ, List.countP_append, ih (by omega)]
        by_cases hin : i = n
        · subst hin; simp [h]
        · have : commitsTo s n k v = false := by
            by_contra hc
            exact hin (huniq i hi n (by omega) h (by simpa using hc))
          simp only [List.countP_cons, List.countP_nil, this]
          by_cases h1 : i < n
          · simp [h1, Nat.lt_succ_of_lt h1]
          · have : ¬i < n + 1 := by omega
            simp [h1, this]
    simpa [moved, hi] using this s.par.N le_rfl
  · cases hl : lastMover s k v with
    | none =>
      have := List.find?_eq_none.1 hl i (by simpa using hi)
      simp [h] at this
    | some j =>
      have h1 := List.find?_some hl
      have h2 : j < s.par.N := by simpa using List.mem_of_find?_eq_some hl
      rw [huniq i hi j h2 h (by simpa using h1)]

theorem moved_eq_zero {s : State} {k v : Nat} (h : ∀ i < s.par.N, commitsTo s i k v = false) :
    moved s k v = 0 ∧ lastMover s k v = none := by
  constructor
  · rw [moved, List.countP_eq_zero]
    intro i hi; simp [h i (by simpa using hi)]
  · rw [lastMover, List.find?_eq_none]
    intro i hi; simp [h i (by simpa using hi)]

theorem grantCommit_ok {s t : State} (h : grantCommit s = .ok t) :
    (∀ i < s.par.N, commitStop s i = none) ∧
    (∀ k < s.par.N, ∀ v < s.par.V, moved s k v ≤ s.r.caAt k v ∧
      t.r.caAt k v = s.r.caAt k v - moved s k v ∧ t.r.igpAt k v = igpAfter s k v) ∧
    (∀ i < s.par.N, ∀ v < s.par.V,
      (commits s i v = true →
        t.r.qAt i v = (s.r.qAt i v).tail ∧ t.r.coAt i v = s.r.coAt i v + 1) ∧
      (commits s i v = false →
        t.r.qAt i v = s.r.qAt i v ∧ t.r.coAt i v = s.r.coAt i v)) ∧
    t.r = { s.r with q := t.r.q, co := t.r.co, ca := t.r.ca, igp := t.r.igp } ∧
    Shaped t.r.q s.par.N s.par.V ∧ Shaped t.r.co s.par.N s.par.V ∧
    Shaped t.r.ca s.par.N s.par.V ∧ Shaped t.r.igp s.par.N s.par.V ∧
    t.tv = s.tv ∧ t.env = s.env ∧ SameOutside s t := by
  obtain ⟨hs, rfl⟩ := unlessStop_ok.1 h
  rw [Option.or_eq_none_iff, firstOf_eq_none, firstOf2_eq_none] at hs
  obtain ⟨hc, hd⟩ := hs
  refine ⟨hc, fun k hk v hv => ?_, fun i hi v hv => ⟨fun hcm => ?_, fun hcm => ?_⟩, rfl,
    shaped_tab2 .., shaped_tab2 .., shaped_tab2 .., shaped_tab2 .., rfl, rfl, sameOutside_rfl⟩
  · have hm : moved s k v ≤ s.r.caAt k v := by
      have := hd k hk v hv
      unfold decStop at this
      split at this
      · next c hcs => exact (counterSub_eq_some.1 hcs).1
      · cases this
    refine ⟨hm, ?_, ?_⟩
    · rw [Router.caAt] at hm
      simp [Router.caAt, hk, hv, counterSub, hm]
    · simp [Router.igpAt, hk, hv]
  · have hfull := (commits_iff.1 hcm).1
    obtain ⟨v', f, h1, h2, h3, h4, h5⟩ := (commitStop_eq_none hfull).1 (hc i hi)
    have : v' = v := by rw [(commits_iff.1 hcm).2] at h1; cases h1; rfl
    subst this
    simp [Router.qAt, Router.coAt, hi, hv, hcm, qPop]
    have := counterAdd_eq_some.2 ⟨h5, rfl⟩
    rw [Router.coAt] at this
    simp [this]
  · simp [Router.qAt, Router.coAt, hi, hv, hcm]

theorem grantedInput_eq_some {s : State} {i k : Nat}
    (huniq : ∀ a < s.par.N, ∀ b < s.par.N, s.tv.grantAt a k = true → s.tv.grantAt b k = true → a = b)
    (hi : i < s.par.N) (h : s.tv.grantAt i k = true) : grantedInput s k = some i := by
  cases hl : grantedInput s k with
  | none =>
    have := List.find?_eq_none.1 hl i (by simpa using hi)
    simp [h] at this
  | some j =>
    have h1 := List.find?_some hl
    have h2 : j < s.par.N := by simpa using List.mem_of_find?_eq_some hl
    rw [huniq i hi j h2 h (by simpa using h1)]

theorem grantedInput_eq_none {s : State} {k : Nat} :
    grantedInput s k = none ↔ ∀ i < s.par.N, s.tv.grantAt i k = false := by
  simp [grantedInput, List.find?_eq_none]

theorem xbar_ok {s t : State} (h : xbar s = .ok t) :
    (∀ k < s.par.N, xbarStop s k = none) ∧
    (∀ k < s.par.N, t.r.eqAt k = s.r.eqAt k ++ (xbarFlit s k).toList) ∧
    t.r = { s.r with eq := t.r.eq } ∧ t.r.eq.length = s.par.N ∧
    t.tv = { s.tv with cp := t.tv.cp } ∧ t.env = s.env ∧ SameOutside s t := by
  obtain ⟨hs, rfl⟩ := unlessStop_ok.1 h
  rw [firstOf_eq_none] at hs
  refine ⟨hs, fun k hk => ?_, rfl, by simp, rfl, rfl, sameOutside_rfl⟩
  simp only [Router.eqAt, State.withTv_r, State.withRouter_r, hk, entry_tab_of_lt]
  cases xbarFlit s k <;> simp [qPush]

theorem egressTx_ok {s t : State} (h : egressTx s = .ok t) :
    (∀ k < s.par.N,
      entry none t.tv.out.flit k = (s.r.eqAt k).head? ∧
        entry false t.tv.out.delivered k = delivers s k ∧
        t.r.eqAt k = if delivers s k then (s.r.eqAt k).tail else s.r.eqAt k) ∧
    t.r = { s.r with eq := t.r.eq } ∧ t.r.eq.length = s.par.N ∧ t.env = s.env ∧
    t.tv = { s.tv with
      out := { s.tv.out with flit := t.tv.out.flit, delivered := t.tv.out.delivered } } ∧
    SameOutside s t := by
  cases h
  refine ⟨fun k hk => ⟨?_, ?_, ?_⟩, rfl, by simp, rfl, rfl, sameOutside_rfl⟩
  · simp [hk, qFront]
  · simp [hk]
  · simp only [Router.eqAt, State.withTv_r, State.withRouter_r, hk, entry_tab_of_lt]
    rfl

theorem creditTx_ok {s t : State} (h : creditTx s = .ok t) :
    (∀ p < s.par.N, ∀ v < s.par.V,
      cell none t.tv.out.credit p v = (if 0 < s.r.coAt p v then some 1 else none) ∧
        t.r.coAt p v =
          s.r.coAt p v - (decide (0 < s.r.coAt p v) && s.env.creditReadyAt p v).toNat) ∧
    t.r = { s.r with co := t.r.co } ∧ Shaped t.r.co s.par.N s.par.V ∧ t.env = s.env ∧
    t.tv = { s.tv with out := { s.tv.out with credit := t.tv.out.credit } } ∧
    SameOutside s t := by
  cases h
  refine ⟨fun p hp v hv => ⟨?_, ?_⟩, rfl, shaped_tab2 .., rfl, rfl, sameOutside_rfl⟩
  · simp [hp, hv, owesCredit]
  · simp only [Router.coAt, State.withTv_r, State.withRouter_r, hp, hv, cell_tab2_of_lt]
    simp only [owesCredit, Router.coAt]
    by_cases h : 0 < cell 0 s.r.co p v <;> cases s.env.creditReadyAt p v <;> simp [h]

/-! ### The phases of a tick in a row -/

/-- The state after each phase of a tick that completes. -/
theorem phases_ok {s u : State} (h : runPhases phases s = .ok u) :
    ∃ s1 s2 s3 s4 s5 s6 s7 s8 s9 s10 s11 s12 s13,
      creditRx s = .ok s1 ∧ ingressRx s1 = .ok s2 ∧ vcSelect s2 = .ok s3 ∧ peek s3 = .ok s4 ∧
      routeAll s4 = .ok s5 ∧ reqBuild s5 = .ok s6 ∧ mcastWithdraw s6 = .ok s7 ∧
      outArb s7 = .ok s8 ∧ mcastForce s8 = .ok s9 ∧ grantFinal s9 = .ok s10 ∧
      grantCommit s10 = .ok s11 ∧ xbar s11 = .ok s12 ∧ egressTx s12 = .ok s13 ∧
      creditTx s13 = .ok u := by
  obtain ⟨s1, h1, h⟩ := runPhases_cons_ok h
  obtain ⟨s2, h2, h⟩ := runPhases_cons_ok h
  obtain ⟨s3, h3, h⟩ := runPhases_cons_ok h
  obtain ⟨s4, h4, h⟩ := runPhases_cons_ok h
  obtain ⟨s5, h5, h⟩ := runPhases_cons_ok h
  obtain ⟨s6, h6, h⟩ := runPhases_cons_ok h
  obtain ⟨s7, h7, h⟩ := runPhases_cons_ok h
  obtain ⟨s8, h8, h⟩ := runPhases_cons_ok h
  obtain ⟨s9, h9, h⟩ := runPhases_cons_ok h
  obtain ⟨s10, h10, h⟩ := runPhases_cons_ok h
  obtain ⟨s11, h11, h⟩ := runPhases_cons_ok h
  obtain ⟨s12, h12, h⟩ := runPhases_cons_ok h
  obtain ⟨s13, h13, h⟩ := runPhases_cons_ok h
  obtain ⟨s14, h14, h⟩ := runPhases_cons_ok h
  cases h
  exact ⟨s1, s2, s3, s4, s5, s6, s7, s8, s9, s10, s11, s12, s13, h1, h2, h3, h4, h5, h6, h7, h8, h9,
    h10, h11, h12, h13, h14⟩

end Sys2Proof.Machine
end

