-- ==== Sys2Proof/Tests/Slice0.lean ====
section
/-! SUPPORT. Tests: ill-formed operations are refused, written-out words decode, small vectors of
95_test_vectors.md, and for every obligation with hypotheses a concrete case that meets them. Every
expected value is the spec's, from the section the comment names. -/

namespace Sys2Proof.Tests

open Sys2Proof Sys2Proof.Machine

/-! ### Small states -/

/-- A router right after RESET with the given parameters and configuration inputs, its channels idle. -/
def fresh (par : Params) (c : Cfg) : State :=
  { State.reset with
    par := par, r := Router.atReset par c, tv := TickVals.idle par, env := Env.idle par }

/-- `CFG_A` after RESET. -/
def A : State := fresh Params.cfgA { myId := 0, lutL := [], lutR := [] }

/-- `CFG_B` after RESET. -/
def B : State := fresh Params.cfgB Cfg.inB

/-- `s` with its router's fields changed by `f`. -/
def mod (s : State) (f : Router → Router) : State := s.withRouter (f s.r)

/-- `s` with ingress port `p` peeked: VC `v` chosen, flit `f` seen. -/
def seen (s : State) (p v : Nat) (f : Flit) : State :=
  s.withTv
    { s.tv with
      inValid := s.tv.inValid.set p true, vc := s.tv.vc.set p (some v), f := s.tv.f.set p (some f) }

/-- A property of the next state an instruction answers; false when it answers none. -/
def after (i : Instr) (s : State) (f : State → Bool) : Bool :=
  match exec i s with
  | .next t => f t
  | .fault _ => false
  | .refused _ => false

/-- A property of the output record of one tick on a script line. -/
def tickOn (s : State) (line : List Item) (f : State → Out → Bool) : Bool :=
  after .tick (s.onLine line) fun t =>
    match t.out with
    | some o => f t o
    | none => false

/-- The fault a tick on a script line records. -/
def faultOn (s : State) (line : List Item) : Option (Nat × Nat) :=
  match exec .tick (s.onLine line) with
  | .next t => t.r.fault.map fun e => (e.code.number, e.info)
  | .fault _ => none
  | .refused _ => none

/-! ### Ill-formed terms -/

theorem test_illformed_port :
    (Instr.routeSr 4).wellFormed Params.cfgA = false ∧
      (Instr.routeLutUcast 4).wellFormed Params.cfgA = false ∧
      (Instr.routeLutMcast 4).wellFormed Params.cfgA = false ∧
      (Instr.routeHold 4).wellFormed Params.cfgA = false ∧
      (Instr.routeSr 3).wellFormed Params.cfgA = true := by decide

theorem test_illformed_flit_port :
    (Instr.flitBody 4 0 0).wellFormed Params.cfgA = false ∧
      (Instr.flitTail 4 0 0).wellFormed Params.cfgA = false ∧
      (Instr.flitHead 4 0 0).wellFormed Params.cfgA = false ∧
      (Instr.flitSngl 4 0 0).wellFormed Params.cfgA = false := by decide

theorem test_illformed_flit_vc :
    (Instr.flitBody 0 2 0).wellFormed Params.cfgA = false ∧
      (Instr.flitHead 0 1 0).wellFormed Params.cfgB = true := by decide

theorem test_illformed_flit_payload :
    (Instr.flitTail 0 0 0x10000).wellFormed Params.cfgA = false ∧
      (Instr.flitTail 3 1 0xFFFF).wellFormed Params.cfgA = true := by decide

theorem test_illformed_credit :
    (Instr.creditMsg 4 0 1).wellFormed Params.cfgA = false ∧
      (Instr.creditMsg 0 2 1).wellFormed Params.cfgA = false ∧
      (Instr.creditDec 4 0).wellFormed Params.cfgA = false ∧
      (Instr.creditDec 0 2).wellFormed Params.cfgA = false ∧
      (Instr.creditOwe 4 0).wellFormed Params.cfgA = false ∧
      (Instr.creditOwe 0 2).wellFormed Params.cfgA = false := by decide

theorem test_illformed_rewrite :
    (Instr.hdrRewriteLut 4 0).wellFormed Params.cfgB = false ∧
      (Instr.hdrRewriteLut 0 4).wellFormed Params.cfgB = false := by decide

theorem test_illformed_arbiter :
    (Instr.arbPick (.out 4) 0).wellFormed Params.cfgA = false ∧
      (Instr.arbPick (.out 0) 16).wellFormed Params.cfgA = false ∧
      (Instr.arbPick (.vc 4) 0).wellFormed Params.cfgA = false ∧
      (Instr.arbPick (.vc 0) 4).wellFormed Params.cfgA = false := by decide

theorem test_illformed_refused :
    exec (.creditDec 4 0) A = .refused .illFormed ∧ exec (.flitBody 0 2 0) A = .refused .illFormed :=
  ⟨rfl, rfl⟩

theorem test_parameters :
    Params.cfgA.ok = true ∧ Params.cfgB.ok = true ∧ Params.cfgC.ok = true ∧
      Params.cfgD.ok = true ∧ ({ Params.cfgA with W := 11 } : Params).ok = false ∧
      ({ Params.cfgB with W := 8 } : Params).ok = false ∧
      ({ Params.cfgA with V := 0 } : Params).ok = false := by decide

/-! ### Written-out words (30_encoding.md R71, R73, R81, R84; 95_test_vectors.md section 1) -/

/-- R84, key bits `{m, pos1, pos0, mf}`: don't-care bits both ways. -/
theorem test_decode_keys :
    decode Params.cfgA [0, 0b0100, 3] = .ok (.routeSr 3) ∧
      decode Params.cfgA [0, 0b0111, 3] = .ok (.routeSr 3) ∧
      decode Params.cfgB [0, 0b1100, 0] = .ok (.routeLutUcast 0) ∧
      decode Params.cfgB [0, 0b1110, 0] = .ok (.routeLutUcast 0) ∧
      decode Params.cfgB [0, 0b1101, 1] = .ok (.routeLutMcast 1) ∧
      decode Params.cfgB [0, 0b1111, 1] = .ok (.routeLutMcast 1) ∧
      decode Params.cfgB [0, 0b1011, 2] = .ok (.routeHold 2) ∧
      decode Params.cfgA [0, 0b0000, 2] = .ok (.routeHold 2) := by decide

/-- The eight flit words of 95_test_vectors.md section 1. -/
theorem test_decode_flits :
    decode Params.cfgA [1, 0x4A001, 2] = .ok (.flitHead 2 0 0xA001) ∧
      decode Params.cfgA [1, 0x01111, 2] = .ok (.flitBody 2 0 0x1111) ∧
      decode Params.cfgA [1, 0x23333, 2] = .ok (.flitTail 2 0 0x3333) ∧
      decode Params.cfgA [1, 0x60008, 0] = .ok (.flitSngl 0 0 0x0008) ∧
      decode Params.cfgA [1, 0x50001, 1] = .ok (.flitHead 1 1 0x0001) ∧
      decode Params.cfgA [1, 0x300C1, 2] = .ok (.flitTail 2 1 0x00C1) ∧
      decode Params.cfgA [1, 0x10001, 1] = .ok (.flitBody 1 1 0x0001) ∧
      decode Params.cfgA [1, 0x70000, 1] = .ok (.flitSngl 1 1 0) := by decide

theorem test_decode_credit :
    decode Params.cfgA [2, 1, 3, 0] = .ok (.creditMsg 3 0 1) ∧
      decode Params.cfgA [2, 0, 0, 1] = .ok (.creditMsg 0 1 0) := by decide

/-- The operations no bits select (R85), by their number in spec/opcode_table.json's order. -/
theorem test_decode_operations :
    decode Params.cfgA [3, 0] = .ok .reset ∧ decode Params.cfgA [3, 1] = .ok .tick ∧
      decode Params.cfgA [3, 2] = .ok .creditRx ∧ decode Params.cfgA [3, 3] = .ok .ingressRx ∧
      decode Params.cfgA [3, 4] = .ok .vcSelect ∧ decode Params.cfgA [3, 5] = .ok .peek ∧
      decode Params.cfgA [3, 6] = .ok .reqBuild ∧ decode Params.cfgA [3, 7] = .ok .mcastWithdraw ∧
      decode Params.cfgA [3, 8] = .ok .outArb ∧ decode Params.cfgA [3, 9] = .ok .mcastForce ∧
      decode Params.cfgA [3, 10] = .ok .grantFinal ∧
      decode Params.cfgA [3, 11] = .ok .grantCommit ∧
      decode Params.cfgA [3, 12, 2, 1] = .ok (.creditDec 2 1) ∧
      decode Params.cfgA [3, 13, 2, 1] = .ok (.creditOwe 2 1) ∧
      decode Params.cfgA [3, 14] = .ok .xbar ∧
      decode Params.cfgA [3, 15, 1, 3] = .ok (.hdrRewriteLut 1 3) ∧
      decode Params.cfgA [3, 16] = .ok .egressTx ∧ decode Params.cfgA [3, 17] = .ok .creditTx ∧
      decode Params.cfgA [3, 18, 0, 2, 5] = .ok (.arbPick (.out 2) 5) ∧
      decode Params.cfgA [3, 18, 1, 2, 3] = .ok (.arbPick (.vc 2) 3) := by decide

theorem test_decode_refuses :
    decode Params.cfgA [] = .error .badLength ∧ decode Params.cfgA [0, 4] = .error .badLength ∧
      decode Params.cfgA [4, 0] = .error (.unknownFormat 4) ∧
      decode Params.cfgA [0, 16, 0] = .error (.keyTooWide 16) ∧
      decode Params.cfgA [1, 0x80000, 0] = .error (.flitTooWide 0x80000) ∧
      decode Params.cfgA [2, 2, 0, 0] = .error (.creditTooWide 2) ∧
      decode Params.cfgA [3, 19] = .error (.unknownOperation 19) ∧
      decode Params.cfgA [3, 1, 0] = .error .badLength := by decide

/-- The words of spec/opcode_table.json: a tag, a key, a phase bit (log entry 5). -/
theorem test_table_words :
    decodeTableWord 8 2 = some (.flitHead 0 0 0) ∧ decodeTableWord 8 4 = some (.routeSr 0) ∧
      decodeTableWord 8 0xC = some (.routeLutUcast 0) ∧
      decodeTableWord 16 (2 ^ 10) = some .grantCommit ∧ decodeTableWord 8 256 = none := by decide

theorem test_fetch_word : step (State.reset.withFetchWord 8 4) = exec (.routeSr 0) State.reset := rfl

/-! ### ARB.PICK (95_test_vectors.md 3.1) -/

theorem test_pick_wraps :
    pickMask 4 2 0b1010 = 0b1000 ∧ pickPtr 4 2 0b1010 = 0 ∧ pickMask 4 3 0b0111 = 0b0001 ∧
      pickPtr 4 3 0b0111 = 1 ∧ pickMask 4 0 0 = 0 ∧ pickPtr 4 0 0 = 0 := by decide

theorem test_arb_pick :
    after (.arbPick (.out 1) 0b0101) (mod A fun r => { r with arbOut := [0, 1, 0, 0] }) (fun t =>
      decide (t.tv.winner = 0b0100) && decide (t.r.arbOut = [0, 3, 0, 0])) = true := by decide

/-! ### Routes (95_test_vectors.md 3.2 to 3.5) -/

theorem test_route_sr :
    after (.routeSr 2) (seen A 2 1 ⟨.head, 1, 0xF00D⟩) (fun t =>
      decide (t.tv.dm = [0, 0, 0b1001, 0]) &&
        decide (t.tv.frAt 2 = some ⟨.head, 1, 0xF001⟩) &&
        decide (t.r.outDestAt 2 1 = some 0b1001)) = true := by decide

/-- `CFG_C`: a selector past the end gives no remote bit; a later descriptor keeps the remote bit. -/
theorem test_route_sr_selector :
    (routedSr Params.cfgC ⟨.head, 0, 0x00E⟩).dm = 0 ∧
      (routedSr Params.cfgC ⟨.head, 0, 0x00C⟩).dm = 0b1000 ∧
      (routedSr Params.cfgA ⟨.head, 0, 0x0040⟩).dm = 0b0100 ∧
      (routedSr Params.cfgA ⟨.head, 0, 0x0004⟩).dm = 0 := by decide

theorem test_route_ucast :
    after (.routeLutUcast 0) (seen B 0 0 ⟨.sngl, 0, 0xFE04⟩) (fun t =>
      decide (t.tv.dmAt 0 = 0b0001) && decide (t.r.isLocalAt 0 0 = some 0b0001) &&
        decide (t.tv.frAt 0 = some ⟨.sngl, 0, 0xFE04⟩)) = true := by decide

/-- `CFG_D`: a read past the end of either table is the zero mask. -/
theorem test_route_ucast_past_end :
    ucastMask Params.cfgD Cfg.inD 0x0003 = 0 ∧ ucastMask Params.cfgD Cfg.inD 0x000C = 0 ∧
      ucastMask Params.cfgD Cfg.inD 0x0007 = 0b0100 := by decide

theorem test_route_mcast :
    after (.routeLutMcast 2) (seen B 2 0 ⟨.head, 0, 0x0163⟩) (fun t =>
      decide (t.tv.dmAt 2 = 0b1011) && decide (t.r.isLocalAt 2 0 = some 0b0011) &&
        decide (t.r.outDestAt 2 0 = some 0b1011)) = true := by decide

theorem test_route_mcast_other_group :
    (routedMcast Params.cfgB Cfg.inB ⟨.head, 0, 0x01D1⟩).dm = 0b1100 ∧
      (routedMcast Params.cfgB Cfg.inB ⟨.head, 0, 0x01D1⟩).loc = some 0 ∧
      (routedMcast Params.cfgB Cfg.inB ⟨.head, 0, 0x010F⟩).dm = 0 := by decide

theorem test_route_hold :
    after (.routeHold 2)
      (seen (mod A fun r => { r with outDest := setCell r.outDest 2 0 (some 1) }) 2 0 ⟨.body, 0, 0x55⟩)
      (fun t => decide (t.tv.dmAt 2 = 1) && decide (t.tv.frAt 2 = some ⟨.body, 0, 0x55⟩)) = true := by
  decide

/-- F10, and that F3 of an earlier phase is reported before it (3.11). -/
theorem test_route_hold_fault :
    faultOn A [.inp 0 .body 0 0] = some (10, 0) ∧
      faultOn A [.cred 0 0, .inp 0 .body 0 0] = some (3, 0) := by decide

/-! ### Messages and ingress (3.9, 3.11) -/

theorem test_flit_offered :
    after (.flitSngl 2 0 1) A (fun t => decide (t.env.flitAt 2 = some ⟨.sngl, 0, 1⟩)) &&
      after (.creditMsg 3 1 1) A (fun t => decide (t.env.creditAt 3 1 = some 1)) &&
      after (.flitBody 1 1 2) A (fun t => decide (t.env.flitAt 1 = some ⟨.body, 1, 2⟩)) &&
      after (.flitTail 1 1 2) A (fun t => decide (t.env.flitAt 1 = some ⟨.tail, 1, 2⟩)) &&
      after (.flitHead 1 1 2) A (fun t => decide (t.env.flitAt 1 = some ⟨.head, 1, 2⟩)) = true := by
  decide

theorem test_ingress_rx :
    after .ingressRx (A.onLine [.inp 1 .head 1 0]) (fun t =>
      decide (t.r.qAt 1 1 = [⟨.head, 1, 0⟩]) && decide (t.r.qAt 1 0 = [])) = true := by decide

/-- F9 before F1, F1 at a full queue. -/
theorem test_ingress_faults :
    faultOn B [.inp 0 .head 1 4] = some (9, 0) ∧
      faultOn (mod A fun r => { r with q := setCell r.q 1 1 (List.replicate 4 ⟨.head, 1, 0⟩) })
        [.inp 1 .tail 1 4] = some (1, 3) := by decide

theorem test_vc_select_rotates :
    after .vcSelect
      (mod A fun r => { r with
        q := setCell (setCell r.q 2 0 [⟨.head, 0, 1⟩]) 2 1 [⟨.head, 1, 1⟩], arbVc := [0, 0, 1, 0] })
      (fun t => decide (t.tv.vcAt 2 = some 1) && decide (t.r.arbVcAt 2 = 0) &&
        decide (t.tv.vcAt 0 = none)) = true := by decide

theorem test_peek :
    after .peek
      (seen (mod A fun r => { r with q := setCell r.q 0 0 [⟨.head, 0, 1⟩, ⟨.body, 0, 2⟩] }) 0 0
        ⟨.body, 0, 0⟩)
      (fun t => decide (t.tv.fAt 0 = some ⟨.head, 0, 1⟩)) = true := by decide

/-! ### Arbitration (3.6, 3.7) -/

/-- The state after the first `n` entries of the phase list, on a script line. -/
def upTo (n : Nat) (s : State) (line : List Item) (f : State → Bool) : Bool :=
  match runPhases (phases.take n) (beginTick (s.onLine line)) with
  | .ok t => f t
  | .error _ => false

theorem test_req_build_credit :
    upTo 7 (mod A fun r => { r with ca := setCell r.ca 2 0 0 }) [.inp 0 .head 0 9] (fun t =>
      decide (t.tv.dmAt 0 = 0b0101) && decide (entry [] t.tv.req 0 = [true, false, false, false]) &&
        decide (t.tv.ok = [false, true, true, true]) &&
        decide (entry [] t.tv.req2 0 = [false, false, false, false])) = true := by decide

/-- A header is refused by a busy packet flag, a continuation flit is not. -/
theorem test_req_build_packet_rule :
    upTo 6 (mod A fun r => { r with igp := setCell r.igp 0 0 false }) [.inp 2 .head 0 1] (fun t =>
      decide (entry [] t.tv.req 2 = [false, false, false, false])) &&
      upTo 6
        (mod A fun r => { r with
          igp := setCell r.igp 0 0 false, outDest := setCell r.outDest 2 0 (some 1) })
        [.inp 2 .body 0 0x55] (fun t =>
          decide (entry [] t.tv.req 2 = [true, false, false, false])) = true := by decide

/-- P8 T2: the pick of input 1 for output 2 is voided by the forcer 0, its pointer moved all the same. -/
theorem test_force :
    upTo 10 (mod A fun r => { r with arbOut := [0, 0, 1, 0] })
      [.inp 0 .sngl 0 9, .inp 1 .sngl 0 8] (fun t =>
        decide (t.tv.win = [1, 0, 2, 0]) && decide (t.tv.sel = [some 0, none, some 0, none]) &&
          decide (t.tv.full = [true, false, false, false]) &&
          decide (t.r.arbOut = [1, 0, 2, 0])) = true := by decide

/-- P8b T2: two forcers want output 2, the lower takes it. -/
theorem test_force_two :
    upTo 10 (mod A fun r => { r with arbOut := [0, 0, 1, 0] })
      [.inp 0 .sngl 0 9, .inp 1 .sngl 0 0xA] (fun t =>
        decide (t.tv.win = [1, 2, 2, 0]) && decide (t.tv.sel = [some 0, some 1, some 0, none]) &&
          decide (t.tv.full = [true, false, false, false]) &&
          decide (t.r.arbOut = [1, 2, 2, 0])) = true := by decide

/-- The worked example of 42_arbitration.md R139. -/
theorem test_grant_commit :
    upTo 11 (mod A fun r => { r with ca := setCell r.ca 2 0 2 }) [.inp 1 .head 0 9] (fun t =>
      decide (t.r.qAt 1 0 = []) && decide (t.r.coAt 1 0 = 1) && decide (t.r.caAt 0 0 = 3) &&
        decide (t.r.caAt 2 0 = 1) && decide (t.r.igpAt 0 0 = false) &&
        decide (t.r.igpAt 2 0 = false)) = true := by decide

/-- F5 and F4 of section 3.11. -/
theorem test_grant_commit_faults :
    faultOn
        (fresh { Params.cfgA with rwForbidden := true } { myId := 0, lutL := [], lutR := [] })
        [.inp 2 .sngl 0 1] = some (5, 4) ∧
      faultOn
        (mod A fun r => { r with
          co := setCell r.co 2 0 4, ca := setCell r.ca 0 0 1,
          q := setCell r.q 2 0 [⟨.sngl, 0, 1⟩] })
        [.ncrdy 2 0] = some (4, 4) := by decide

/-! ### Credits (3.8) -/

theorem test_credit_rx :
    after .creditRx ((mod A fun r => { r with ca := setCell r.ca 0 0 3 }).onLine [.cred 0 0])
        (fun t => decide (t.r.caAt 0 0 = 4)) &&
      after .creditRx (A.onLine [.cred0 0 0]) (fun t => decide (t.r.caAt 0 0 = 4)) = true := by decide

theorem test_credit_dec_owe :
    after (.creditDec 0 1) (mod A fun r => { r with ca := setCell r.ca 0 1 1 })
        (fun t => decide (t.r.caAt 0 1 = 0)) &&
      after (.creditOwe 1 0) A (fun t => decide (t.r.coAt 1 0 = 1)) = true := by decide

theorem test_credit_tx :
    after .creditTx (mod A fun r => { r with co := setCell r.co 0 0 2 })
        (fun t => decide (t.r.coAt 0 0 = 1) && decide (cell none t.tv.out.credit 0 0 = some 1)) &&
      after .creditTx ((mod A fun r => { r with co := setCell r.co 0 0 2 }).onLine [.ncrdy 0 0])
        (fun t => decide (t.r.coAt 0 0 = 2)) = true := by decide

/-! ### Crossbar and egress (3.4, 3.10) -/

theorem test_rewrite :
    (List.map (fun k => rewritePayload Params.cfgB Cfg.inB 0b0011 k 0x0163) [0, 1, 3]) =
        [0x0121, 0x0122, 0x0143] ∧
      rewritePayload Params.cfgB Cfg.inB 0b0011 3 0xFF63 = 0xFF43 ∧
      rewritePayload Params.cfgB Cfg.inB 0b0100 2 0x01F4 = 0x0124 := by decide

/-- The worked example of 44_crossbar_egress.md R166. -/
theorem test_xbar :
    after .xbar
      (A.withTv { A.tv with
        fr := A.tv.fr.set 0 (some ⟨.head, 0, 1⟩),
        grant := setCell (setCell A.tv.grant 0 1 true) 0 3 true })
      (fun t => decide (t.r.eq = [[], [⟨.head, 0, 1⟩], [], [⟨.head, 0, 1⟩]])) = true := by decide

theorem test_egress_tx :
    after .egressTx ((mod A fun r => { r with eq := r.eq.set 0 [⟨.head, 0, 0⟩] }).onLine [.nrdy 0])
        (fun t => decide (entry none t.tv.out.flit 0 = some ⟨.head, 0, 0⟩) &&
          !entry false t.tv.out.delivered 0 && decide (t.r.eqAt 0 = [⟨.head, 0, 0⟩])) &&
      after .egressTx (mod A fun r => { r with eq := r.eq.set 0 [⟨.head, 0, 0⟩] })
        (fun t => entry false t.tv.out.delivered 0 && decide (t.r.eqAt 0 = [])) = true := by decide

/-! ### Whole ticks (section 4) and RESET (3.11) -/

/-- P1 T1. -/
theorem test_tick_unicast :
    tickOn A [.inp 2 .head 0 0xA001] (fun t o =>
      decide (o.flit = [some ⟨.head, 0, 0xA000⟩, none, none, none]) &&
        decide (o.delivered = [true, false, false, false]) &&
        decide (cell none o.credit 2 0 = some 1) && decide (t.r.caAt 0 0 = 3) &&
        decide (t.r.arbOut = [3, 0, 0, 0]) && decide (t.r.arbVc = [0, 0, 1, 0])) = true := by decide

/-- P4 T1: three copies, each with its own header. -/
theorem test_tick_multicast :
    tickOn B [.inp 2 .head 0 0x0163] (fun _ o =>
      decide (o.flit = [some ⟨.head, 0, 0x0121⟩, some ⟨.head, 0, 0x0122⟩, none,
        some ⟨.head, 0, 0x0143⟩])) = true := by decide

/-- F6 and F8 (`CFG_D` with `my_id = 3`). -/
theorem test_reset_faults :
    after .reset { A with par := { Params.cfgA with B := 0 } }
        (fun t => decide (t.r.fault = some ⟨.configZeroDepth, 0⟩)) &&
      after .reset { A with par := Params.cfgD, cfgIn := { Cfg.inD with myId := 3 } }
        (fun t => decide (t.r.fault = some ⟨.configBadIdentity, 3⟩)) = true := by decide

/-- 00_scope.md R6: `TableWellFormed` is checked in `MODE = LUT` only, so no F7 in `MODE = SR`. -/
theorem test_reset_no_table_fault :
    after .reset { A with par := { Params.cfgA with tableRule := some 0 } }
      (fun t => decide (t.r.fault = none)) = true := by decide

theorem test_reset_clears :
    after .reset (mod A fun r => { r with fault := some ⟨.queueOverflow, 3⟩, co := setCell r.co 0 0 2 })
      (fun t => decide (t.r = A.r)) = true := by decide

/-- P9: `CFG_A` twice, egress port 3 of the first tied to ingress port 2 of the second, a flit channel
of latency `n` and credit channels of latencies 1 and 2; `line` is the first router's. -/
def twoRouters (n : Nat) (line : List Item) : Option Network :=
  Network.start [A.onLine line, { A with inst := 1 }]
    [{ src := 0, k := 3, dst := 1, p := 2, flitLatency := n, creditLatency := [1, 2], steady := true }]

/-- A property of the network after one tick; false when it takes none. -/
def netAfter (net : Option Network) (f : Network → Bool) : Bool :=
  match net.map Network.tick with
  | some (.next t) => f t
  | _ => false

/-- P9, first tick, flit latency 0: what the first router delivers at port 3 is the second's at port 2,
which passes it on at port 1; its credit is under way. -/
theorem test_network :
    netAfter (twoRouters 0 [.inp 0 .sngl 0 0x14]) (fun t =>
      decide ((t.routers.map fun s => s.out.map fun o => o.flit) =
        [some [none, none, none, some ⟨.sngl, 0, 2⟩], some [none, some ⟨.sngl, 0, 0⟩, none, none]]) &&
        decide (t.links.map (fun x => x.2.credits) = [[[some 1], [none, none]]]) &&
        decide (t.routers.map (fun s => s.r.caAt 3 0) = [3, 4])) = true := by decide

/-- With flit latency 1 the flit is under way instead. -/
theorem test_network_latency :
    netAfter (twoRouters 1 [.inp 0 .sngl 0 0x14]) (fun t =>
      decide (t.links.map (fun x => x.2.flits) = [[some ⟨.sngl, 0, 2⟩]])) = true := by decide

/-- Routers of different `MODE` are not tied, nor two links to one port; a router tied to itself by a
flit channel of latency 0 is a loop without latency. -/
theorem test_network_refused :
    Network.start [A, { B with inst := 1 }]
        [{ src := 0, k := 3, dst := 1, p := 2, flitLatency := 1, creditLatency := [1, 1],
           steady := true }] = none ∧
      Params.tieable Params.cfgB Params.cfgB = true ∧ Params.tieable Params.cfgB Params.cfgD = false ∧
      (match (Network.start [A]
          [{ src := 0, k := 3, dst := 0, p := 3, flitLatency := 0, creditLatency := [1, 1],
             steady := true }]).map Network.tick with
        | some (.refused .notTied) => true
        | _ => false) = true := by decide

/-- The stimulus shorthands (30_encoding.md R88; vectors 3.2 and 3.4). -/
theorem test_stimulus :
    srRoute Params.cfgA [4, 0, 2] = 0x0084 ∧ ucHeader Params.cfgB 2 3 = 0x000B ∧
      mcHeader Params.cfgB 0b0110 0b0011 = 0x0163 ∧
      packet 2 0 0xA001 [0x1111, 0x2222, 0x3333] =
        [.inp 2 .head 0 0xA001, .inp 2 .body 0 0x1111, .inp 2 .body 0 0x2222,
          .inp 2 .tail 0 0x3333] := by decide

/-! ### A case for every obligation with hypotheses

Each theorem shows that the hypotheses of the obligation it is named after hold together of a concrete
case, with one case for each clause. -/

theorem next_of_after {i : Instr} {s : State} {f : State → Bool} (h : after i s f = true) :
    ∃ t, exec i s = .next t ∧ f t = true := by
  unfold after at h
  split at h
  · exact ⟨_, ‹_›, h⟩
  · cases h
  · cases h

theorem witness_DecodeEncodeRoundTrip :
    (Instr.flitSngl 3 1 0xFFFF).wellFormed Params.cfgA = true ∧
      (Instr.arbPick (.out 3) 15).wellFormed Params.cfgA = true ∧
      (Instr.arbPick (.vc 0) 3).wellFormed Params.cfgA = true ∧
      (Instr.routeHold 3).wellFormed Params.cfgB = true := by decide

theorem witness_FlitWordIsABijection :
    (1 < 2 ^ Params.cfgA.VCW ∧ 0xFFFF < 2 ^ Params.cfgA.W) ∧ 0x7FFFF < 2 ^ Params.cfgA.FW := by
  decide

theorem witness_StepRunsTheDecodedInstruction :
    (A.withSel (some [3, 12, 3, 1])).par.ok = true ∧
      (A.withSel (some [3, 12, 3, 1])).sel = some [3, 12, 3, 1] ∧
      decode Params.cfgA [3, 12, 3, 1] = .ok (.creditDec 3 1) ∧
      (Instr.creditDec 3 1).wellFormed Params.cfgA = true := by decide

theorem witness_StepWithoutRequestTicksOrResets :
    (A.par.ok = true ∧ A.sel = none ∧ A.rst = false) ∧
      ({ A with rst := true } : State).sel = none ∧ ({ A with rst := true } : State).rst = true := by
  decide

/-- Every clause of the fault field that a concrete state can show: no fault, F6, F8 (F7's predicate is
free). Inputs of the latched widths, the table entries and `my_id` at their largest. -/
theorem witness_ResetGivesTheResetState :
    A.par.ok = true ∧ A.par.isLut = false ∧ ({ Params.cfgA with B := 0 } : Params).ok = true ∧
      (Params.cfgD.ok = true ∧ Params.cfgD.isLut = true ∧
        Params.cfgD.NRD ≤ (latchCfg Params.cfgD { Cfg.inD with myId := 3 }).myId) ∧
      (3 < 2 ^ Params.cfgD.RIDW ∧ 2 < Params.cfgD.NLD ∧ 2 < Params.cfgD.NRD ∧
        15 < 2 ^ Params.cfgD.N) := by decide

theorem witness_OnlyResetLeavesTheFaultState :
    (∃ t, exec .reset (mod A fun r => { r with fault := some ⟨.badVc, 0⟩ }) = .next t ∧
      decide (t.r.fault = none) = true) ∧
    ∃ t, exec (.flitBody 0 0 0) (mod A fun r => { r with fault := some ⟨.badVc, 0⟩ }) = .next t ∧
      decide (t.r.fault = some ⟨.badVc, 0⟩) = true :=
  ⟨next_of_after (by decide), next_of_after (by decide)⟩

theorem witness_FaultedRouterTakesNoTick :
    (mod A fun r => { r with fault := some ⟨.queueOverflow, 3⟩ }).r.fault =
      some ⟨.queueOverflow, 3⟩ := rfl

theorem witness_ConfigurationIsReadOnceAtReset :
    ∃ t, exec (.creditDec 0 0) B = .next t ∧
      decide (Instr.creditDec 0 0 ≠ .reset ∧ t.r.fault = none) = true :=
  next_of_after (by decide)

theorem witness_FlitMessageIsOffered :
    A.env.inFlit.length = A.par.N ∧ 3 < A.par.N ∧ 1 < 2 ^ A.par.VCW ∧ 0xFFFF < 2 ^ A.par.W := by decide

theorem witness_CreditMessageIsOffered : Shaped A.env.inCredit A.par.N A.par.V ∧ 3 < A.par.N ∧ 1 < A.par.V :=
  ⟨shaped_of_check (by decide), by decide⟩

/-- A counter at `B - 1` takes a credit, one at `B` takes the amount 0. -/
theorem witness_CreditRxAddsEveryAmount :
    ∀ s : State,
      s = (mod A fun r => { r with ca := setCell r.ca 3 1 3 }).onLine [.cred 3 1, .cred0 0 0] →
      s.r.fault = none ∧ ∀ k < s.par.N, ∀ v < s.par.V, ∀ a, s.env.creditAt k v = some a →
        s.r.caAt k v + a.toNat ≤ s.par.B := by
  rintro s rfl
  have h : ∀ k < 4, ∀ v < 2, ((A.onLine [.cred 3 1, .cred0 0 0]).env.creditAt k v).all
      (fun a => decide
        ((mod A fun r => { r with ca := setCell r.ca 3 1 3 }).r.caAt k v + a.toNat ≤ 4)) = true := by
    decide
  exact ⟨rfl, fun k hk v hv a ha => of_decide_eq_true (forall_of_all (h k hk v hv) a ha)⟩

theorem witness_CreditRxFaultsOnOverflow :
    ∀ s : State, s = A.onLine [.cred 3 1, .cred0 0 0] →
      s.r.fault = none ∧ 3 < s.par.N ∧ 1 < s.par.V ∧ s.env.creditAt 3 1 = some 1 ∧
      s.par.B < s.r.caAt 3 1 + (1 : BitVec 1).toNat ∧
      ∀ k' < s.par.N, ∀ v' < s.par.V, k' < 3 ∨ (k' = 3 ∧ v' < 1) → ∀ a',
        s.env.creditAt k' v' = some a' → s.r.caAt k' v' + a'.toNat ≤ s.par.B := by
  rintro s rfl
  have h : ∀ k < 4, ∀ v < 2, k < 3 ∨ (k = 3 ∧ v < 1) →
      ((A.onLine [.cred 3 1, .cred0 0 0]).env.creditAt k v).all
        (fun a => decide (A.r.caAt k v + a.toNat ≤ 4)) = true := by decide
  exact ⟨rfl, by decide, by decide, by decide, by decide,
    fun k hk v hv hkv a ha => of_decide_eq_true (forall_of_all (h k hk v hv hkv) a ha)⟩

theorem witness_CreditDecLowersOneCounter :
    (A.r.fault = none ∧ Shaped A.r.ca A.par.N A.par.V ∧ 3 < A.par.N ∧ 1 < A.par.V ∧
      1 ≤ A.r.caAt 3 1) ∧
    (mod A fun r => { r with ca := setCell r.ca 3 1 0 }).r.caAt 3 1 = 0 ∧
      Shaped (mod A fun r => { r with ca := setCell r.ca 3 1 0 }).r.ca 4 2 :=
  ⟨⟨rfl, shaped_of_check (by decide), by decide⟩, by decide, shaped_of_check (by decide)⟩

/-- The last credit that can be owed, and one more. -/
theorem witness_CreditOweRaisesOneCounter :
    (Shaped (mod A fun r => { r with co := setCell r.co 3 1 3 }).r.co 4 2 ∧
      (mod A fun r => { r with co := setCell r.co 3 1 3 }).r.coAt 3 1 + 1 ≤ A.par.B) ∧
    Shaped (mod A fun r => { r with co := setCell r.co 3 1 4 }).r.co 4 2 ∧
      A.par.B < (mod A fun r => { r with co := setCell r.co 3 1 4 }).r.coAt 3 1 + 1 :=
  ⟨⟨shaped_of_check (by decide), by decide⟩, shaped_of_check (by decide), by decide⟩

/-- Owed and accepted, owed and refused, nothing owed. -/
theorem witness_CreditTxReturnsOneCreditEach :
    ∀ s : State, s = (mod A fun r => { r with co := [[1, 4], [0, 0], [0, 0], [0, 0]] }).onLine [.ncrdy 0 1] →
      s.r.fault = none ∧ (0 < s.r.coAt 0 0 ∧ s.env.creditReadyAt 0 0 = true) ∧
      (0 < s.r.coAt 0 1 ∧ s.env.creditReadyAt 0 1 = false) ∧ s.r.coAt 3 1 = 0 := by
  rintro s rfl; decide

theorem witness_IngressRxQueuesEveryFlit :
    ∀ s : State, s = A.onLine [.inp 3 .head 1 0xFFFF, .inp 0 .body 0 7] →
      s.r.fault = none ∧ ∀ p < s.par.N, ∀ f, s.env.flitAt p = some f →
        f.vc < s.par.V ∧ (s.r.qAt p f.vc).length < s.par.B := by
  rintro s rfl
  have h : ∀ p < 4, ((A.onLine [.inp 3 .head 1 0xFFFF, .inp 0 .body 0 7]).env.flitAt p).all
      (fun f => decide (f.vc < 2 ∧ (A.r.qAt p f.vc).length < 4)) = true := by decide
  exact ⟨rfl, fun p hp f hf => of_decide_eq_true (forall_of_all (h p hp) f hf)⟩

/-- A VC that names no queue (`CFG_B`), and a full queue. -/
theorem witness_IngressRxFaultsOnBadFlit :
    (B.onLine [.inp 0 .head 1 4]).env.flitAt 0 = some ⟨.head, 1, 4⟩ ∧ B.par.V ≤ 1 ∧
    ((mod A fun r => { r with q := setCell r.q 0 1 (List.replicate 4 ⟨.body, 1, 0⟩) }).onLine
      [.inp 0 .tail 1 4]).env.flitAt 0 = some ⟨.tail, 1, 4⟩ ∧ 1 < A.par.V ∧
    A.par.B ≤ ((mod A fun r => { r with q := setCell r.q 0 1 (List.replicate 4 ⟨.body, 1, 0⟩) }).r.qAt
      0 1).length := by decide

theorem witness_VcSelectPicksANonEmptyQueue :
    A.r.fault = none ∧ ∀ p < A.par.N, A.r.arbVcAt p < A.par.V := by decide

theorem witness_PeekCopiesTheFrontFlit :
    ∀ s : State, s = seen (mod A fun r => { r with q := setCell r.q 2 1 [⟨.head, 1, 1⟩] }) 2 1 ⟨.head, 1, 1⟩ →
      s.r.fault = none ∧ s.tv.vcAt 2 = some 1 ∧
      ∀ p < s.par.N, ∀ v, s.tv.vcAt p = some v → s.r.qAt p v ≠ [] := by
  rintro s rfl
  have h : ∀ p < 4, ((seen A 2 1 ⟨.head, 1, 1⟩).tv.vcAt p).all (fun v => decide
      ((mod A fun r => { r with q := setCell r.q 2 1 [⟨.head, 1, 1⟩] }).r.qAt p v ≠ [])) = true := by
    decide
  exact ⟨rfl, rfl, fun p hp v hv => of_decide_eq_true (forall_of_all (h p hp) v hv)⟩

theorem witness_ArbiterPicksOneValidRequester :
    (1 ≤ 1 ∧ 1 < 2 ^ 1 ∧ 1 ≠ 0) ∧ (1 ≤ 4 ∧ 15 < 2 ^ 4) := by decide

/-- Two requesters that stay valid. -/
theorem witness_ArbiterServesAWaitingRequester :
    ∃ valid ptr : Nat → Nat, 1 < 2 ∧ ptr 0 < 2 ∧ (∀ j, (valid j).testBit 1 = true) ∧
      ∀ j, ptr (j + 1) = pickPtr 2 (ptr j) (valid j) :=
  ⟨fun _ => 3, fun j => (fun x => pickPtr 2 x 3)^[j] 0, by decide, by decide, fun _ => by show (3).testBit 1 = true; decide,
    fun j => Function.iterate_succ_apply' _ _ _⟩

/-- Both kinds of arbiter, with the full request vector and with none. -/
theorem witness_ArbPickRotatesItsPointer :
    (ArbId.out 3).wellFormed A.par 15 = true ∧ (ArbId.out 0).wellFormed A.par 0 = true ∧
      (ArbId.vc 3).wellFormed A.par 3 = true ∧ (ArbId.vc 0).wellFormed A.par 0 = true ∧
      A.r.arbOut.length = A.par.N ∧ A.r.arbVc.length = A.par.N ∧ A.r.arbOutAt 3 < A.par.N ∧
      A.r.arbVcAt 3 < A.par.V := by decide

theorem witness_RouteSrResolvesTheFirstDescriptor :
    ∀ s : State, s = seen A 3 1 ⟨.sngl, 1, 0xFFFF⟩ →
      s.r.fault = none ∧ s.par.ok = true ∧ s.par.isLut = false ∧ TickOk s.par s.tv ∧
      Shaped s.r.outDest s.par.N s.par.V ∧ 3 < s.par.N ∧ s.tv.vcAt 3 = some 1 ∧
      s.tv.fAt 3 = some ⟨.sngl, 1, 0xFFFF⟩ ∧ isHeader ⟨.sngl, 1, 0xFFFF⟩ = true := by
  rintro s rfl
  exact ⟨rfl, by decide, rfl, tickOk_of_check (by decide), shaped_of_check (by decide), by decide, rfl,
    rfl, rfl⟩

theorem witness_SourceRouteSurvivesItsHops : Params.cfgA.RW ≤ Params.cfgA.W ∧ 0xFFFF < 2 ^ Params.cfgA.W := by
  decide

theorem witness_RouteUcastReadsOneTable :
    ∀ s : State, s = seen B 3 0 ⟨.head, 0, 0x000B⟩ →
      s.r.fault = none ∧ s.par.isLut = true ∧ TickOk s.par s.tv ∧
      Shaped s.r.outDest s.par.N s.par.V ∧ Shaped s.r.isLocal s.par.N s.par.V ∧ 3 < s.par.N ∧
      s.tv.vcAt 3 = some 0 ∧ s.tv.fAt 3 = some ⟨.head, 0, 0x000B⟩ ∧
      isHeader ⟨.head, 0, 0x000B⟩ = true ∧ (0x000B).testBit s.par.MF = false := by
  rintro s rfl
  exact ⟨rfl, rfl, tickOk_of_check (by decide), shaped_of_check (by decide),
    shaped_of_check (by decide), by decide, rfl, rfl, rfl, by decide⟩

theorem witness_RouteMcastUnitesTableEntries :
    ∀ s : State, s = seen B 3 0 ⟨.head, 0, 0x0163⟩ →
      s.r.fault = none ∧ s.par.isLut = true ∧ TickOk s.par s.tv ∧
      Shaped s.r.outDest s.par.N s.par.V ∧ Shaped s.r.isLocal s.par.N s.par.V ∧ 3 < s.par.N ∧
      s.tv.vcAt 3 = some 0 ∧ s.tv.fAt 3 = some ⟨.head, 0, 0x0163⟩ ∧
      isHeader ⟨.head, 0, 0x0163⟩ = true ∧ (0x0163).testBit s.par.MF = true := by
  rintro s rfl
  exact ⟨rfl, rfl, tickOk_of_check (by decide), shaped_of_check (by decide),
    shaped_of_check (by decide), by decide, rfl, rfl, rfl, by decide⟩

/-- A stored mask, and none. -/
theorem witness_RouteHoldReusesTheStoredMask :
    (TickOk A.par (seen A 3 1 ⟨.tail, 1, 5⟩).tv ∧ (seen A 3 1 ⟨.tail, 1, 5⟩).tv.vcAt 3 = some 1 ∧
      (seen A 3 1 ⟨.tail, 1, 5⟩).tv.fAt 3 = some ⟨.tail, 1, 5⟩ ∧
      isContinuation ⟨.tail, 1, 5⟩ = true ∧ (seen A 3 1 ⟨.tail, 1, 5⟩).r.outDestAt 3 1 = none) ∧
    (seen (mod A fun r => { r with outDest := setCell r.outDest 3 1 (some 5) }) 3 1
      ⟨.tail, 1, 5⟩).r.outDestAt 3 1 = some 5 :=
  ⟨⟨tickOk_of_check (by decide), rfl, rfl, rfl, rfl⟩, rfl⟩

theorem witness_UnselectedRouteHasNoEffect :
    A.r.fault = none ∧ 3 < A.par.N ∧ (seen A 3 1 ⟨.tail, 1, 5⟩).tv.vcAt 3 = some 1 ∧
      (seen A 3 1 ⟨.tail, 1, 5⟩).tv.fAt 3 = some ⟨.tail, 1, 5⟩ ∧
      keyOp (routeKey A.par ⟨.tail, 1, 5⟩) ≠ .sr := by decide

/-- No valid flit, and a VC with no peeked flit. -/
theorem witness_RouteWithoutFlitClearsTheMask :
    A.r.fault = none ∧ 3 < A.par.N ∧ A.tv.vcAt 3 = none ∧
      (A.withTv { (seen A 3 1 ⟨.tail, 1, 5⟩).tv with f := A.tv.f }).tv.vcAt 3 = some 1 ∧
      (A.withTv { (seen A 3 1 ⟨.tail, 1, 5⟩).tv with f := A.tv.f }).tv.fAt 3 = none := by decide

theorem witness_ReqBuildGatesEveryLeg :
    (seen A 0 0 ⟨.sngl, 0, 9⟩).r.fault = none ∧ (seen A 0 0 ⟨.sngl, 0, 9⟩).tv.vcAt 0 = some 0 ∧
      (A.r.eqAt 2).length < A.par.E := by
  decide

/-- Input 0 has both its destinations requested, input 1 one of two. -/
theorem witness_WithdrawIsAllOrNothing :
    ∀ s : State, s = A.withTv { A.tv with
        dm := [5, 3, 0, 0], req := setCell (setCell (setCell A.tv.req 0 0 true) 0 2 true) 1 1 true } →
      s.r.fault = none ∧ (∀ i < s.par.N, s.tv.dmAt i < 2 ^ s.par.N) ∧
      (∀ k < s.par.N, (s.tv.dmAt 0).testBit k = true → s.tv.reqAt 0 k = true) ∧
      ∃ k, (s.tv.dmAt 1).testBit k = true ∧ s.tv.reqAt 1 k = false := by
  rintro s rfl
  exact ⟨rfl, by decide, by decide, 0, by decide⟩

/-- Output 1 has no requester, output 0 two. -/
theorem witness_OutArbPicksOneInputPerOutput :
    ∀ s : State, s = A.withTv { A.tv with
        req2 := setCell (setCell A.tv.req2 0 0 true) 3 0 true } →
      s.r.fault = none ∧ (∀ k < s.par.N, s.r.arbOutAt k < s.par.N) ∧
      (∀ i < s.par.N, s.tv.req2At i 1 = false) ∧ ∃ i < s.par.N, s.tv.req2At i 0 = true := by
  rintro s rfl
  exact ⟨rfl, by decide, by decide, 3, by decide⟩

/-- A chain of forcers 0, 1, 2 on five ports, each sharing an output with the next: 1 is turned away by
0 (its output 3), 2 takes its outputs all the same; output 1 keeps its pick. -/
theorem witness_ForcersTakeAllTheirOutputs :
    ∀ s : State, s = (fresh { Params.cfgA with NL := 3 } A.r.cfg).withTv { A.tv with
        inValid := [true, true, true, false, false], vc := [some 0, some 0, some 0, none, none],
        dm := [9, 26, 20, 0, 0],
        req2 := [[true, false, false, true, false], [false, true, false, true, true],
          [false, false, true, false, true], [], []],
        win := [1, 2, 4, 2, 0] } →
      s.r.fault = none ∧ (∀ i < s.par.N, s.tv.dmAt i < 2 ^ s.par.N) ∧
      (∀ i < 3, isForcer s i = true ∧
        ∀ k < s.par.N, (s.tv.dmAt i).testBit k = true → s.tv.req2At i k = true) ∧
      (forceLoop s s.par.N).sel = [some 0, some 1, some 2, some 0, some 2] ∧
      entry false (forceLoop s s.par.N).claimed 4 = true ∧
      entry false (forceLoop s s.par.N).claimed 1 = false := by
  rintro s rfl
  decide

theorem witness_GrantsAreAllOrNothing :
    A.r.fault = none ∧ ∀ i < A.par.N, A.tv.dmAt i < 2 ^ A.par.N := by decide

/-- A state with one granted input, as phases P1 to P9 leave it on the line of P3 T8: a header granted
outputs 0 and 2. -/
def granted : State :=
  (seen (mod A fun r => { r with q := setCell r.q 1 0 [⟨.head, 0, 9⟩] }) 1 0 ⟨.head, 0, 9⟩).withTv
    { (seen A 1 0 ⟨.head, 0, 9⟩).tv with
      dm := [0, 5, 0, 0], fr := A.tv.fr.set 1 (some ⟨.head, 0, 1⟩),
      full := [false, true, false, false],
      grant := setCell (setCell A.tv.grant 1 0 true) 1 2 true }

theorem witness_GrantCommitMovesGrantedFlits : granted.r.fault = none ∧ GrantsReady granted := by
  have full : ∀ i < 4, granted.tv.fullAt i = true → i = 1 := by decide
  have grant : ∀ i < 4, ∀ k < 4, granted.tv.grantAt i k = true → i = 1 := by decide
  refine ⟨rfl, fun i hi h => ?_, fun i hi j hj k hk _ _ h1 h2 => ?_⟩
  · obtain rfl := full i hi h
    exact ⟨0, ⟨.head, 0, 9⟩, rfl, rfl, by decide, by decide, by decide, by decide, by decide⟩
  · rw [grant i hi k hk h1, grant j hj k hk h2]

/-- F5 in a storage that forbids a push and a pop in one tick, F4 at the last credit. -/
theorem witness_GrantCommitFaults :
    ((granted.tv.fullAt 1 = true ∧ granted.tv.vcAt 1 = some 0 ∧
      granted.tv.fAt 1 = some ⟨.head, 0, 9⟩ ∧ granted.r.qAt 1 0 ≠ []) ∧
      granted.tv.fullAt 0 = false) ∧
    (({ granted with par := { Params.cfgA with rwForbidden := true } } : State).par.rwForbidden = true ∧
      (granted.withTv { granted.tv with pushed := setCell granted.tv.pushed 1 0 true }).tv.pushedAt
        1 0 = true) ∧
    granted.par.rwForbidden = false ∧
      granted.par.B < (mod granted fun r => { r with co := setCell r.co 1 0 4 }).r.coAt 1 0 + 1 := by
  decide

/-- A flit copied as it is; a multicast header; outputs with no grant. -/
theorem witness_XbarStagesOneCopyPerGrant :
    (granted.tv.grantAt 1 0 = true ∧ (granted.r.eqAt 0).length < granted.par.E ∧
      granted.tv.frAt 1 = some ⟨.head, 0, 1⟩ ∧ isMcastHeader granted.par ⟨.head, 0, 1⟩ = false) ∧
    (isMcastHeader Params.cfgB ⟨.head, 0, 0x0163⟩ = true ∧
      (mod (seen B 2 0 ⟨.head, 0, 0x0163⟩) fun r =>
        { r with isLocal := setCell r.isLocal 2 0 (some 3) }).r.isLocalAt 2 0 = some 3) ∧
    (∀ i < granted.par.N, granted.tv.grantAt i 1 = false) ∧
    ∀ i < granted.par.N, ∀ j < granted.par.N, ∀ k < granted.par.N,
      granted.tv.grantAt i k = true → granted.tv.grantAt j k = true → i = j := by decide

/-- A local leg (output 0) and a remote one (output 3). -/
theorem witness_HdrRewriteKeepsWhatGoesThroughTheOutput :
    ∀ s : State, s = (mod (seen B 2 0 ⟨.head, 0, 0x0163⟩) fun r =>
        { r with isLocal := setCell r.isLocal 2 0 (some 3) }).withTv
          { (seen B 2 0 ⟨.head, 0, 0x0163⟩).tv with fr := B.tv.fr.set 2 (some ⟨.head, 0, 0x0163⟩) } →
      s.r.fault = none ∧ s.par.ok = true ∧ TickOk s.par s.tv ∧ 2 < s.par.N ∧ 3 < s.par.N ∧
      s.par.isLut = true ∧ s.tv.frAt 2 = some ⟨.head, 0, 0x0163⟩ ∧
      isHeader ⟨.head, 0, 0x0163⟩ = true ∧ (0x0163).testBit s.par.MF = true ∧
      s.tv.vcAt 2 = some 0 ∧ s.r.isLocalAt 2 0 = some 3 ∧ (3).testBit 0 = true ∧
      (3).testBit 3 = false := by
  rintro s rfl
  exact ⟨rfl, by decide, tickOk_of_check (by decide), by decide, by decide, rfl, rfl, rfl, by decide, rfl,
    rfl, by decide, by decide⟩

/-- `MODE = SR`, a continuation flit, a unicast header, no flit. -/
theorem witness_HdrRewriteLeavesOtherFlitsAlone :
    A.r.fault = none ∧ 3 < A.par.N ∧ A.par.isLut = false ∧ B.par.isLut = true ∧
      isHeader ⟨.tail, 0, 0x0163⟩ = false ∧ (0x0004).testBit B.par.MF = false ∧
      B.tv.frAt 3 = none := by decide

/-- Delivered, refused, nothing staged. -/
theorem witness_EgressTxOffersTheFront :
    ∀ s : State, s = (mod A fun r => { r with
        eq := [[⟨.head, 0, 0⟩], [⟨.tail, 1, 3⟩], [], []] }).onLine [.nrdy 1] →
      s.r.fault = none ∧ (s.r.eqAt 0 ≠ [] ∧ s.env.readyAt 0 = true) ∧
      s.env.readyAt 1 = false ∧ s.r.eqAt 2 = [] := by
  rintro s rfl; decide

/-- `CFG_A` on a line with two packets and a refusing egress: the state most statements about a tick
are shown to speak of. -/
def busy : State :=
  (mod A fun r => { r with
    q := setCell (setCell r.q 1 0 [⟨.sngl, 0, 8⟩]) 3 1 [⟨.head, 1, 0⟩], ca := setCell r.ca 0 0 3,
    co := setCell r.co 2 0 1, eq := r.eq.set 0 [⟨.body, 0, 7⟩] }).onLine
      [.inp 2 .head 0 0xA001, .cred0 3 1, .nrdy 0]

theorem witness_tick :
    busy.par.ok = true ∧ InBounds busy ∧ busy.r.fault = none ∧
      ∃ t, exec .tick busy = .next t ∧ (decide (t.r.fault = none) && t.out.isSome) = true :=
  ⟨by decide, inv_of_check (by decide), rfl, next_of_after (by decide)⟩

theorem witness_TickCarriesNoInnerValueOver : ∃ t, exec .tick busy = .next t ∧ true = true :=
  next_of_after (by decide)

theorem witness_TickIsItsOperationsInOrder :
    (busy.par.ok = true ∧ InBounds busy ∧ busy.r.fault = none) ∧
    (match execAll (tickScript busy.par) (busy.withTv (TickVals.idle busy.par)) with
      | .next u => decide (u.r.fault = none)
      | _ => false) = true :=
  ⟨⟨by decide, inv_of_check (by decide), rfl⟩, by decide⟩

theorem witness_TickIsTotal : busy.par.ok = true ∧ InBounds busy ∧ busy.r.fault = none :=
  ⟨by decide, inv_of_check (by decide), rfl⟩

/-- The last pair overflows, and alone. -/
theorem witness_CreditOverflowIsReportedFirst :
    ∀ s : State, s = A.onLine [.cred 3 1, .cred0 0 0] →
      s.r.fault = none ∧ s.env.creditAt 3 1 = some 1 ∧
      s.par.B < s.r.caAt 3 1 + (1 : BitVec 1).toNat ∧
      ∀ k' < s.par.N, ∀ v' < s.par.V, k' < 3 ∨ (k' = 3 ∧ v' < 1) →
        s.r.caAt k' v' + amountAt s.env k' v' ≤ s.par.B := by
  rintro s rfl; decide

/-- The state after the first `n` entries of the phase list has the property. -/
theorem phases_of_upTo {n : Nat} {s : State} {line : List Item} {f : State → Bool}
    (h : upTo n s line f = true) :
    ∃ u, runPhases (phases.take n) (beginTick (s.onLine line)) = .ok u ∧ f u = true := by
  unfold upTo at h
  split at h
  · exact ⟨_, ‹_›, h⟩
  · cases h

/-- `CFG_A` with the storage that forbids a push and a pop in one tick. -/
def oneSided : State :=
  fresh { Params.cfgA with rwForbidden := true } { myId := 0, lutL := [], lutR := [] }

/-- One case for each fault of the order: F9 and F1, F10, F5, F4 (95_test_vectors.md 3.11). -/
theorem witness_TickReportsTheFirstFault :
    (InBounds (B.onLine [.inp 3 .head 1 4]) ∧
      (B.onLine [.inp 3 .head 1 4]).env.flitAt 3 = some ⟨.head, 1, 4⟩ ∧ B.par.V ≤ 1) ∧
    (∀ s : State, s = (mod A fun r =>
        { r with q := setCell r.q 3 1 (List.replicate 4 ⟨.body, 1, 0⟩) }).onLine [.inp 3 .tail 1 4] →
      InBounds s ∧ s.env.flitAt 3 = some ⟨.tail, 1, 4⟩ ∧ (s.r.qAt 3 1).length = s.par.B ∧
      ∀ k < s.par.N, ∀ v < s.par.V, s.r.caAt k v + amountAt s.env k v ≤ s.par.B) ∧
    (InBounds (A.onLine [.inp 3 .body 1 0]) ∧
      ∃ u, runPhases (phases.take 4) (beginTick (A.onLine [.inp 3 .body 1 0])) = .ok u ∧
        (decide (u.tv.vcAt 3 = some 1) && decide (u.tv.fAt 3 = some ⟨.body, 1, 0⟩) &&
          decide (u.r.outDestAt 3 1 = none) && allBelow 3 fun p => decide (u.tv.vcAt p = none)) =
            true) ∧
    (InBounds (oneSided.onLine [.inp 2 .sngl 0 1]) ∧
      ∃ u, runPhases (phases.take 10) (beginTick (oneSided.onLine [.inp 2 .sngl 0 1])) = .ok u ∧
        (u.tv.fullAt 2 && decide (u.tv.vcAt 2 = some 0) && u.tv.pushedAt 2 0 &&
          allBelow 2 fun j => !u.tv.fullAt j) = true) ∧
    ∀ s : State, s = (mod A fun r => { r with
        co := setCell r.co 2 0 4, ca := setCell r.ca 0 0 1, q := setCell r.q 2 0 [⟨.sngl, 0, 1⟩] }) →
      InBounds (s.onLine []) ∧
      ∃ u, runPhases (phases.take 10) (beginTick (s.onLine [])) = .ok u ∧
        (u.tv.fullAt 2 && decide (u.tv.vcAt 2 = some 0) && decide (u.par.B < u.r.coAt 2 0 + 1) &&
          allBelow 2 fun j => !u.tv.fullAt j) = true := by
  refine ⟨⟨inv_of_check (by decide), by decide, by decide⟩, ?_,
    ⟨inv_of_check (by decide), phases_of_upTo (by decide)⟩,
    ⟨inv_of_check (by decide), phases_of_upTo (by decide)⟩, ?_⟩
  · rintro s rfl
    exact ⟨inv_of_check (by decide), by decide, by decide, by decide⟩
  · rintro s rfl
    exact ⟨inv_of_check (by decide), phases_of_upTo (by decide)⟩

theorem witness_TickConservesEgressCredits :
    InBounds busy ∧ ∃ t, exec .tick busy = .next t ∧ (decide (t.r.fault = none) && t.out.isSome) = true :=
  ⟨inv_of_check (by decide), next_of_after (by decide)⟩

theorem witness_TickConservesIngressCredits :
    InBounds busy ∧ ∃ t, exec .tick busy = .next t ∧ (decide (t.r.fault = none) && t.out.isSome) = true :=
  witness_TickConservesEgressCredits

/-- After reset every upstream sender holds `B` credits and no receiver owes one; one header is
offered. -/
theorem witness_ObedientPeersNeverFault :
    ∀ s : State, s = A.onLine [.inp 3 .head 1 8] →
      s.par.ok = true ∧ s.par.rwForbidden = false ∧ InBounds s ∧ s.r.fault = none ∧
      UpstreamMirror s (fun _ _ => 4) ∧ DownstreamMirror s (fun _ _ => 0) ∧ FrontsOk s ∧
      SendersObey s (fun _ _ => 4) ∧ FirstIsHeader s ∧ ReceiversHonest s (fun _ _ => 0) := by
  rintro s rfl
  have up : ∀ p < 4, ∀ v < 2, 4 + (A.r.qAt p v).length + A.r.coAt p v = 4 := by decide
  have down : ∀ k < 4, ∀ v < 2, A.r.caAt k v + countVc v (A.r.eqAt k) + 0 = 4 := by decide
  have empty : ∀ p < 4, ∀ v < 2, (A.r.qAt p v).head? = none := by decide
  have offer : ∀ p < 4, ((A.onLine [.inp 3 .head 1 8]).env.flitAt p).all
      (fun f => decide (f.vc < 2 ∧ 1 ≤ 4) && isHeader f) = true := by decide
  have honest : ∀ k < 4, ∀ v < 2, amountAt (A.onLine [.inp 3 .head 1 8]).env k v ≤ 0 := by decide
  refine ⟨by decide, rfl, inv_of_check (by decide), rfl, up, down, fun p hp v hv _ f hf => ?_,
    fun p hp f hf => ?_, fun p hp f hf _ _ => ?_, honest⟩
  · exact absurd (hf.symm.trans (empty p hp v hv)) (by simp)
  · have := forall_of_all (offer p hp) f hf
    simp only [Bool.and_eq_true, decide_eq_true_eq] at this
    exact this.1
  · have := forall_of_all (offer p hp) f hf
    simp only [Bool.and_eq_true, decide_eq_true_eq] at this
    exact this.2

theorem witness_GrantedLegsWereAdmissible :
    (busy.par.ok = true ∧ InBounds busy ∧ busy.r.fault = none) ∧
    (match runPhases (phases.take 10) (beginTick busy) with
      | .ok u => u.tv.grantAt 1 2
      | .error _ => false) = true :=
  ⟨⟨by decide, inv_of_check (by decide), rfl⟩, by decide⟩

/-- Each of the three kinds of header with the all-zero mask: payloads of 95_test_vectors.md 3.2 to
3.4. -/
theorem witness_ZeroMaskStallsItsQueue :
    (InBounds busy ∧ (busy.r.qAt 3 1).head? = some ⟨.head, 1, 0⟩ ∧
      srMask busy.par (routeField busy.par 0) = 0 ∧
      ∃ t, exec .tick busy = .next t ∧ decide (t.r.fault = none) = true) ∧
    (∀ s : State, s = (mod (fresh Params.cfgD Cfg.inD) fun r =>
        { r with q := setCell r.q 3 0 [⟨.head, 0, 3⟩] }) → InBounds s ∧ ucastMask s.par s.r.cfg 3 = 0 ∧
      ∃ t, exec .tick s = .next t ∧ decide (t.r.fault = none) = true) ∧
    ∀ s : State, s = (mod B fun r => { r with q := setCell r.q 3 0 [⟨.head, 0, 0x10F⟩] }) →
      InBounds s ∧ mcastLocalMask s.par s.r.cfg 0x10F = 0 ∧ mcastRemoteMask s.par s.r.cfg 0x10F = 0 ∧
      ∃ t, exec .tick s = .next t ∧ decide (t.r.fault = none) = true := by
  refine ⟨⟨inv_of_check (by decide), by decide, by decide, next_of_after (by decide)⟩, ?_, ?_⟩
  · rintro s rfl
    exact ⟨inv_of_check (by decide), by decide, next_of_after (by decide)⟩
  · rintro s rfl
    exact ⟨inv_of_check (by decide), by decide, by decide, next_of_after (by decide)⟩

theorem witness_TickMovesAtMostOneFlitPerPort :
    InBounds busy ∧ ∃ t, exec .tick busy = .next t ∧ (decide (t.r.fault = none) && t.out.isSome) = true :=
  witness_TickConservesEgressCredits

theorem witness_IdleRouterIsAFixedPoint :
    A.par.ok = true ∧ InBounds A ∧ A.r.fault = none ∧
      (∀ p < A.par.N, ∀ v < A.par.V, A.r.qAt p v = [] ∧ A.r.coAt p v = 0) ∧
      (∀ k < A.par.N, A.r.eqAt k = []) ∧ (∀ p < A.par.N, A.env.flitAt p = none) ∧
      ∀ k < A.par.N, ∀ v < A.par.V, A.env.creditAt k v = none :=
  ⟨by decide, inv_of_check (by decide), rfl, by decide, by decide, by decide, by decide⟩

/-- In `busy` a SNGL is granted output 2, and no flit is granted output 3. -/
theorem witness_PacketFlagFollowsTheGrantedFlit :
    (busy.par.ok = true ∧ InBounds busy ∧ busy.r.fault = none) ∧
    (match runPhases (phases.take 10) (beginTick busy) with
      | .ok u => u.tv.grantAt 1 2 && decide (u.tv.vcAt 1 = some 0) &&
          decide (u.tv.fAt 1 = some ⟨.sngl, 0, 8⟩) && allBelow 4 fun i => !u.tv.grantAt i 3
      | .error _ => false) = true ∧
    ∃ t, exec .tick busy = .next t ∧ decide (t.r.fault = none) = true :=
  ⟨⟨by decide, inv_of_check (by decide), rfl⟩, by decide, next_of_after (by decide)⟩

/-- `CFG_A` with a packet of input 2, VC 0 open at outputs 0 and 2, and a header for output 1 waiting
at input 1; the packet's tail arrives. -/
def inFlight : State :=
  (mod A fun r => { r with
    q := setCell (setCell r.q 2 0 [⟨.body, 0, 0x55⟩]) 1 0 [⟨.head, 0, 2⟩],
    outDest := setCell r.outDest 2 0 (some 5),
    igp := setCell (setCell r.igp 0 0 false) 2 0 false }).onLine [.inp 2 .tail 0 0x66]

/-- The pair whose packet is open in `inFlight`. -/
def opened (p v : Nat) : Bool := p == 2 && v == 0

/-- A continuation flit of the open packet and a header are granted. -/
theorem witness_OnlyTheOpenPacketContinues :
    (inFlight.par.ok = true ∧ InBounds inFlight ∧ inFlight.r.fault = none ∧
      PacketsOk inFlight opened ∧ SendersKeepPacketOrder inFlight opened) ∧
    ∃ u, runPhases (phases.take 10) (beginTick inFlight) = .ok u ∧
      (u.tv.grantAt 2 0 && u.tv.grantAt 2 2 && decide (u.tv.vcAt 2 = some 0) &&
        decide (u.tv.fAt 2 = some ⟨.body, 0, 0x55⟩) && u.tv.grantAt 1 1 &&
        decide (u.tv.fAt 1 = some ⟨.head, 0, 2⟩)) = true :=
  ⟨⟨by decide, inv_of_check (by decide), rfl, packetsOk_of_check (by decide),
    sendersInOrder_of_check (by decide)⟩, phases_of_upTo (by decide)⟩

/-- Input 1's packet opens, input 2's stays open, input 0 has none. -/
theorem witness_TickKeepsPacketsApart :
    (InBounds inFlight ∧ PacketsOk inFlight opened ∧ SendersKeepPacketOrder inFlight opened) ∧
    (∃ u, runPhases (phases.take 10) (beginTick inFlight) = .ok u ∧
      (u.tv.fullAt 1 && u.tv.fullAt 2 && !u.tv.fullAt 0) = true) ∧
    ∃ t, exec .tick inFlight = .next t ∧ decide (t.r.fault = none) = true :=
  ⟨⟨inv_of_check (by decide), packetsOk_of_check (by decide), sendersInOrder_of_check (by decide)⟩,
    phases_of_upTo (by decide), next_of_after (by decide)⟩

/-- `CFG_A` with one credit owed to `(0, 0)`. -/
def owing : State := mod A fun r => { r with co := setCell r.co 0 0 1 }

/-- P10 without its first tick: the return channel refuses once and then accepts. -/
theorem witness_OwedCreditIsReturned :
    ∃ (envs : Nat → Env) (run : Nat → State), 0 < (run 0).par.N ∧ 0 < (run 0).par.V ∧
      0 < (run 0).r.coAt 0 0 ∧ SafeRun envs run 1 ∧ (envs 1).creditReadyAt 0 0 = true := by
  have h : after .tick
      (owing.withEnv (Env.ofLine Params.cfgA [.ncrdy 0 0]))
      (fun t => decide (t.r.fault = none) &&
        after .tick (t.withEnv (Env.idle Params.cfgA)) fun u => decide (u.r.fault = none)) = true := by
    decide
  obtain ⟨t, h1, h2⟩ := next_of_after h
  rw [Bool.and_eq_true] at h2
  obtain ⟨u, h3, h4⟩ := next_of_after h2.2
  have h5 : 0 < owing.par.N ∧ 0 < owing.par.V ∧ 0 < owing.r.coAt 0 0 := by decide
  refine ⟨fun j => if j = 0 then Env.ofLine Params.cfgA [.ncrdy 0 0] else Env.idle Params.cfgA,
    fun j => if j = 0 then owing else if j = 1 then t else u, h5.1, h5.2.1, h5.2.2,
    fun j hj => ?_, by decide⟩
  match j, hj with
  | 0, _ => exact ⟨h1, of_decide_eq_true h2.1⟩
  | 1, _ => exact ⟨h3, of_decide_eq_true h4⟩

theorem witness_EveryStepKeepsTheInvariant :
    InBounds busy ∧ ∃ t, step busy = .next t ∧ true = true := by
  obtain ⟨t, h, -⟩ := next_of_after (i := .tick) (s := busy) (f := fun _ => true) (by decide)
  exact ⟨inv_of_check (by decide), t, h, rfl⟩

end Sys2Proof.Tests
end

section
/-! The contract of the rotating-priority arbiter (40_priority_arbiter.md R100): it grants nothing
exactly when nothing is requested, and otherwise one valid requester. -/

namespace Sys2Proof.Machine

/-- The search from a pointer past the last requester wraps around, so it is the search from a
pointer that is one of `0..n-1`. -/
theorem pick_mod_ptr (n ptr : Nat) (valid : Mask) : pick n (ptr % n) valid = pick n ptr valid := by
  simp only [pick, Nat.mod_add_mod]

/-- R100 and R101 for every pointer, `0..n-1` or not. -/
theorem pick_eq_none_iff_valid_eq_zero {n ptr : Nat} {valid : Mask} (hn : 1 ≤ n)
    (hv : valid < 2 ^ n) : pick n ptr valid = none ↔ valid = 0 := by
  rw [← pick_mod_ptr]
  exact pick_eq_none_iff_zero hv (Nat.mod_lt ptr hn)

theorem pickMask_eq_zero_iff_pick_eq_none {n ptr : Nat} {valid : Mask} :
    pickMask n ptr valid = 0 ↔ pick n ptr valid = none := by
  cases h : pick n ptr valid with
  | none => simp [pickMask_of_none h]
  | some w => simp [pickMask_of_some h]

theorem exists_pick_eq_some_of_valid_ne_zero {n ptr : Nat} {valid : Mask} (hn : 1 ≤ n)
    (hv : valid < 2 ^ n) (h0 : valid ≠ 0) : ∃ w, pick n ptr valid = some w :=
  Option.ne_none_iff_exists'.1 (mt (pick_eq_none_iff_valid_eq_zero hn hv).1 h0)

/-- Settles O22: the search from any pointer visits every requester, so it answers nothing exactly
when the request vector is 0, and the winner it names is a valid requester. -/
theorem arbiterPicksOneValidRequester : Obligations.ArbiterPicksOneValidRequester := by
  intro n ptr valid hn hv
  refine ⟨?_, fun h0 => ?_, pickPtr_lt⟩
  · exact pickMask_eq_zero_iff_pick_eq_none.trans (pick_eq_none_iff_valid_eq_zero hn hv)
  · obtain ⟨w, hw⟩ := exists_pick_eq_some_of_valid_ne_zero (ptr := ptr) hn hv h0
    exact ⟨w, pick_lt hw, hw, pick_testBit hw, pickMask_of_some hw⟩

end Sys2Proof.Machine
end

section
/-! The grants of a tick and the packet flags (42_arbitration.md R138, R139, R141): what a granted leg
asked for, that no output is granted twice, and that GRANT.COMMIT alone writes a packet flag. -/

namespace Sys2Proof.Machine

/-! ### A tick without fault, cut at GRANT.COMMIT -/

/-- A tick that leaves no fault recorded has completed. -/
theorem tick_ok_of_no_fault {s t : State} (h : exec .tick s = .next t) (hf : t.r.fault = none) :
    tick s = .ok t := by
  obtain ⟨-, hok | ⟨c, n, -, rfl⟩⟩ := runOp_next h
  · exact hok
  · cases hf

theorem runPhases_rest_ok {l m : List (State → Res)} {s u t : State}
    (hl : runPhases l s = .ok u) (h : runPhases (l ++ m) s = .ok t) : runPhases m u = .ok t := by
  simpa only [runPhases_append, hl] using h

/-- The phases P6 to P9, from the requests to the final grants, are the last before GRANT.COMMIT. -/
theorem phases_to_grants_ok {s u : State} (h : runPhases (phases.take 10) s = .ok u) :
    ∃ s5 s6 s7 s8 s9, reqBuild s5 = .ok s6 ∧ mcastWithdraw s6 = .ok s7 ∧ outArb s7 = .ok s8 ∧
      mcastForce s8 = .ok s9 ∧ grantFinal s9 = .ok u := by
  obtain ⟨s1, -, h⟩ := runPhases_cons_ok h
  obtain ⟨s2, -, h⟩ := runPhases_cons_ok h
  obtain ⟨s3, -, h⟩ := runPhases_cons_ok h
  obtain ⟨s4, -, h⟩ := runPhases_cons_ok h
  obtain ⟨s5, -, h⟩ := runPhases_cons_ok h
  obtain ⟨s6, h6, h⟩ := runPhases_cons_ok h
  obtain ⟨s7, h7, h⟩ := runPhases_cons_ok h
  obtain ⟨s8, h8, h⟩ := runPhases_cons_ok h
  obtain ⟨s9, h9, h⟩ := runPhases_cons_ok h
  obtain ⟨s10, h10, h⟩ := runPhases_cons_ok h
  cases h
  exact ⟨s5, s6, s7, s8, s9, h6, h7, h8, h9, h10⟩

/-- A tick whose phases up to the final grants leave `u` goes on with GRANT.COMMIT on `u`. -/
theorem tick_ok_from_grants {s u t : State} (hu : runPhases (phases.take 10) (beginTick s) = .ok u)
    (ht : tick s = .ok t) :
    ∃ c w, grantCommit u = .ok c ∧ runPhases (phases.drop 11) c = .ok w ∧ t = finishTick w := by
  obtain ⟨w, hw, rfl⟩ := tick_ok ht
  obtain ⟨c, hc, h⟩ := runPhases_cons_ok (runPhases_rest_ok (m := phases.drop 10) hu hw)
  exact ⟨c, w, hc, h, rfl⟩

/-! ### Which phases leave the packet flags alone -/

/-- A phase left the parameters and the packet flags as they were. -/
def SameFlags (s t : State) : Prop := t.par = s.par ∧ t.r.igp = s.r.igp

theorem sameFlags_of_router {s t : State} {r : Router} (ho : SameOutside s t) (hr : t.r = r)
    (hi : r.igp = s.r.igp) : SameFlags s t :=
  ⟨ho.1, hr ▸ hi⟩

theorem sameFlags_of_onlyTickValues {s t : State} (h : OnlyTickValues s t) : SameFlags s t :=
  sameFlags_of_router h.1 h.2.1 rfl

/-- Of all phases only GRANT.COMMIT, phase number 10 from 0, writes packet flags (R139, R141). -/
theorem phase_keeps_flags {op : State → Res} (hop : op ∈ phases.take 10 ++ phases.drop 11)
    {s t : State} (h : op s = .ok t) : SameFlags s t := by
  simp only [phases, List.take_succ_cons, List.take_zero, List.drop_succ_cons, List.drop_zero,
    List.cons_append, List.nil_append, List.mem_cons, List.not_mem_nil, or_false] at hop
  rcases hop with rfl | rfl | rfl | rfl | rfl | rfl | rfl | rfl | rfl | rfl | rfl | rfl | rfl
  · obtain ⟨-, -, hr, -, -, -, ho⟩ := creditRx_ok h
    exact sameFlags_of_router ho hr rfl
  · obtain ⟨-, -, -, hr, -, -, -, ho⟩ := ingressRx_ok h
    exact sameFlags_of_router ho hr rfl
  · obtain ⟨-, -, hr, -, -, -, ho⟩ := vcSelect_ok h
    exact sameFlags_of_router ho hr rfl
  · obtain ⟨-, -, -, -, ho⟩ := peek_ok h
    exact sameFlags_of_onlyTickValues ho
  · obtain ⟨-, -, -, -, hr, -, -, -, -, ho⟩ := routeAll_ok h
    exact sameFlags_of_router ho hr rfl
  · obtain ⟨-, -, ho⟩ := reqBuild_ok h
    exact sameFlags_of_onlyTickValues ho
  · obtain ⟨-, -, -, ho⟩ := mcastWithdraw_ok h
    exact sameFlags_of_onlyTickValues ho
  · obtain ⟨-, hr, -, -, -, ho⟩ := outArb_ok h
    exact sameFlags_of_router ho hr rfl
  · obtain ⟨-, -, -, ho⟩ := mcastForce_ok h
    exact sameFlags_of_onlyTickValues ho
  · obtain ⟨-, -, ho⟩ := grantFinal_ok h
    exact sameFlags_of_onlyTickValues ho
  · obtain ⟨-, -, hr, -, -, -, ho⟩ := xbar_ok h
    exact sameFlags_of_router ho hr rfl
  · obtain ⟨-, hr, -, -, -, ho⟩ := egressTx_ok h
    exact sameFlags_of_router ho hr rfl
  · obtain ⟨-, hr, -, -, -, ho⟩ := creditTx_ok h
    exact sameFlags_of_router ho hr rfl

theorem runPhases_keeps_flags {l : List (State → Res)}
    (hl : l ⊆ phases.take 10 ++ phases.drop 11) {s t : State} (h : runPhases l s = .ok t) :
    SameFlags s t := by
  refine runPhases_keeps (P := SameFlags s) (fun op hop a b ha hab => ?_) ⟨rfl, rfl⟩ h
  obtain ⟨hpar, higp⟩ := phase_keeps_flags (hl hop) hab
  exact ⟨hpar.trans ha.1, higp.trans ha.2⟩

theorem phases_to_grants_keep_flags {s u : State} (h : runPhases (phases.take 10) s = .ok u) :
    SameFlags s u :=
  runPhases_keeps_flags (List.subset_append_left ..) h

/-- The packet flags after a tick are those GRANT.COMMIT gives them. -/
theorem tick_igpAt {s u t : State} (hu : runPhases (phases.take 10) (beginTick s) = .ok u)
    (ht : tick s = .ok t) {k v : Nat} (hk : k < s.par.N) (hv : v < s.par.V) :
    t.r.igpAt k v = igpAfter u k v := by
  obtain ⟨c, w, hc, hw, rfl⟩ := tick_ok_from_grants hu ht
  obtain ⟨hpar, -⟩ := phases_to_grants_keep_flags hu
  obtain ⟨-, hcommit, -⟩ := grantCommit_ok hc
  have higp : w.r.igp = c.r.igp := (runPhases_keeps_flags (List.subset_append_right ..) hw).2
  obtain ⟨-, -, hflag⟩ := hcommit k (hpar ▸ hk) v (hpar ▸ hv)
  rw [← hflag, finishTick_r, Router.igpAt, higp, Router.igpAt]

/-! ### What a granted leg asked for -/

theorem pickMask_testBit {n ptr i : Nat} {valid : Mask}
    (h : (pickMask n ptr valid).testBit i = true) : valid.testBit i = true := by
  cases hp : pick n ptr valid with
  | none => simp [pickMask_of_none hp] at h
  | some w =>
    rw [pickMask_of_some hp, Nat.testBit_two_pow] at h
    obtain rfl : w = i := of_decide_eq_true h
    exact pick_testBit hp

/-- OUT.ARB picks an input that requests the output. -/
theorem req2At_of_winner {s t : State} (h : outArb s = .ok t) {i k : Nat} (hk : k < t.par.N)
    (hw : winner t k = some i) : t.tv.req2At i k = true := by
  obtain ⟨hwin, -, -, htv, -, hpar, -⟩ := outArb_ok h
  obtain ⟨-, hbit⟩ := winner_testBit hw
  rw [(hwin k (hpar ▸ hk)).1] at hbit
  have hcol := pickMask_testBit hbit
  rw [column_testBit, Bool.and_eq_true] at hcol
  rw [htv]
  exact hcol.2

/-- MCAST.FORCE gives an output to its pick, or to a forcer that requests it. -/
theorem req2At_of_selAt {s t : State} (h : mcastForce s = .ok t)
    (hwin : ∀ k < s.par.N, ∀ i, winner s k = some i → s.tv.req2At i k = true) {i k : Nat}
    (hk : k < s.par.N) (hsel : t.tv.selAt k = some i) : s.tv.req2At i k = true := by
  obtain ⟨hs, -⟩ := mcastForce_ok h
  obtain ⟨hfree, hclaimed⟩ := forceLoop_spec s s.par.N
  rw [TickVals.selAt, hs] at hsel
  cases hc : entry false (forceLoop s s.par.N).claimed k with
  | false => exact hwin k hk i ((hfree k hk hc).symm.trans hsel)
  | true =>
    obtain ⟨j, -, -, hdest, htaken⟩ := hclaimed k hk hc
    obtain ⟨hreq, -, hj⟩ := htaken k hk hdest
    obtain rfl : i = j := Option.some.inj (hsel.symm.trans hj)
    exact hreq

/-- GRANT.FINAL grants an output to the input selected there, and then grants the input whole. -/
theorem selAt_of_grantAt {s t : State} (h : grantFinal s = .ok t) {i k : Nat} (hi : i < s.par.N)
    (hk : k < s.par.N) (hg : t.tv.grantAt i k = true) :
    t.tv.fullAt i = true ∧ s.tv.selAt k = some i := by
  obtain ⟨hgrant, -⟩ := grantFinal_ok h
  obtain ⟨hfull, hleg⟩ := hgrant i hi
  rw [hleg k hk, Bool.and_eq_true] at hg
  obtain ⟨hwhole, hdest⟩ := hg
  obtain ⟨-, -, hsel⟩ := grantedWhole_iff.1 hwhole
  exact ⟨hfull.trans hwhole, hsel k hk hdest⟩

/-- What MCAST.WITHDRAW leaves of the requests meets the request formula R130. -/
theorem request_of_req2At {s5 s6 s7 : State} (h6 : reqBuild s5 = .ok s6)
    (h7 : mcastWithdraw s6 = .ok s7) {i k : Nat} (hi : i < s5.par.N) (hk : k < s5.par.N)
    (h : s7.tv.req2At i k = true) : request s5 i k = true := by
  obtain ⟨hreq, -, hsame, -⟩ := reqBuild_ok h6
  obtain ⟨-, hreq2, -⟩ := mcastWithdraw_ok h7
  rw [hreq2 i (hsame.1 ▸ hi) k (hsame.1 ▸ hk), Bool.and_eq_true, hreq i hi k hk] at h
  exact h.1

/-- The phases after REQ.BUILD change nothing that the request formula R130 reads. -/
theorem request_arbitration {s5 s6 s7 s8 s9 u : State} (h6 : reqBuild s5 = .ok s6)
    (h7 : mcastWithdraw s6 = .ok s7) (h8 : outArb s7 = .ok s8) (h9 : mcastForce s8 = .ok s9)
    (h10 : grantFinal s9 = .ok u) : request u = request s5 := by
  cases h6; cases h7; cases h8; cases h9; cases h10; rfl

/-- A granted leg meets the request formula R130. -/
theorem request_of_grantAt {s u : State} (h : runPhases (phases.take 10) s = .ok u) {i k : Nat}
    (hi : i < u.par.N) (hk : k < u.par.N) (hg : u.tv.grantAt i k = true) : request u i k = true := by
  obtain ⟨s5, s6, s7, s8, s9, h6, h7, h8, h9, h10⟩ := phases_to_grants_ok h
  obtain ⟨-, -, ⟨hp6, -⟩, -⟩ := reqBuild_ok h6
  obtain ⟨-, -, -, ⟨hp7, -⟩, -⟩ := mcastWithdraw_ok h7
  obtain ⟨-, -, -, htv8, -, hp8, -⟩ := outArb_ok h8
  obtain ⟨-, -, -, ⟨hp9, -⟩, -⟩ := mcastForce_ok h9
  obtain ⟨-, -, ⟨hp10, -⟩, -⟩ := grantFinal_ok h10
  rw [hp10] at hi hk
  obtain ⟨-, hsel⟩ := selAt_of_grantAt h10 hi hk hg
  rw [hp9] at hi hk
  have hreq8 : s8.tv.req2At i k = true :=
    req2At_of_selAt h9 (fun k hk i hw => req2At_of_winner h8 hk hw) hk hsel
  have hreq7 : s7.tv.req2At i k = true := by rw [htv8] at hreq8; exact hreq8
  rw [hp8, hp7, hp6] at hi hk
  rw [request_arbitration h6 h7 h8 h9 h10]
  exact request_of_req2At h6 h7 hi hk hreq7

theorem fullAt_of_grantAt {s u : State} (h : runPhases (phases.take 10) s = .ok u) {i k : Nat}
    (hi : i < u.par.N) (hk : k < u.par.N) (hg : u.tv.grantAt i k = true) : u.tv.fullAt i = true := by
  obtain ⟨s5, s6, s7, s8, s9, -, -, -, -, h10⟩ := phases_to_grants_ok h
  obtain ⟨-, -, ⟨hp10, -⟩, -⟩ := grantFinal_ok h10
  rw [hp10] at hi hk
  exact (selAt_of_grantAt h10 hi hk hg).1

/-- No output is granted to two inputs (R138): it is granted only to the input selected there. -/
theorem eq_of_grantAt {s u : State} (h : runPhases (phases.take 10) s = .ok u) {i j k : Nat}
    (hi : i < u.par.N) (hj : j < u.par.N) (hk : k < u.par.N) (hgi : u.tv.grantAt i k = true)
    (hgj : u.tv.grantAt j k = true) : i = j := by
  obtain ⟨s5, s6, s7, s8, s9, -, -, -, -, h10⟩ := phases_to_grants_ok h
  obtain ⟨-, -, ⟨hp10, -⟩, -⟩ := grantFinal_ok h10
  rw [hp10] at hi hj hk
  have hsi := (selAt_of_grantAt h10 hi hk hgi).2
  have hsj := (selAt_of_grantAt h10 hj hk hgj).2
  exact Option.some.inj (hsi.symm.trans hsj)

/-! ### The packet flag that GRANT.COMMIT writes -/

theorem commitsTo_iff {s : State} {i k v : Nat} :
    commitsTo s i k v = true ↔
      s.tv.fullAt i = true ∧ s.tv.vcAt i = some v ∧ s.tv.grantAt i k = true := by
  rw [commitsTo, Bool.and_eq_true, commits_iff, and_assoc]

/-- At an output that takes one flit of the VC, the flag becomes whether that flit is terminal. -/
theorem igpAfter_of_commitsTo {s : State} {i k v : Nat} {f : Flit}
    (huniq : ∀ a < s.par.N, ∀ b < s.par.N, commitsTo s a k v = true → commitsTo s b k v = true → a = b)
    (hi : i < s.par.N) (h : commitsTo s i k v = true) (hf : s.tv.fAt i = some f) :
    igpAfter s k v = isTerminal f := by
  simp [igpAfter, (moved_eq_one huniq hi h).2, hf]

/-- At an output that takes no flit of the VC, the flag stays. -/
theorem igpAfter_of_none {s : State} {k v : Nat} (h : ∀ i < s.par.N, commitsTo s i k v = false) :
    igpAfter s k v = s.r.igpAt k v := by
  simp [igpAfter, (moved_eq_zero h).2]

/-- A header asks only for an output that no packet of its VC holds (R130 (c)). -/
theorem igpAt_of_request_of_isHeader {s : State} {i k v : Nat} {f : Flit}
    (h : request s i k = true) (hv : s.tv.vcAt i = some v) (hf : s.tv.fAt i = some f)
    (hh : isHeader f = true) : s.r.igpAt k v = true := by
  obtain ⟨v', f', hv', hf', -, -, hrule, -⟩ := request_iff.1 h
  obtain rfl : v = v' := Option.some.inj (hv.symm.trans hv')
  obtain rfl : f = f' := Option.some.inj (hf.symm.trans hf')
  simpa [isContinuation, hh] using hrule

/-- Settles O52: the flags after the tick are those GRANT.COMMIT writes; it sees the flags of before the
tick, at most one input granted at an output, and every grant requested under the packet rule. -/
theorem packetFlagFollowsTheGrantedFlit : Obligations.PacketFlagFollowsTheGrantedFlit := by
  intro s t u _ _ _ hu hexec hnf k hk v hv
  rw [tick_igpAt hu (tick_ok_of_no_fault hexec hnf) hk hv]
  obtain ⟨hpar, higp⟩ := phases_to_grants_keep_flags hu
  rw [beginTick_par] at hpar
  have hflag : u.r.igpAt k v = s.r.igpAt k v := by rw [Router.igpAt, higp]; rfl
  rw [← hpar] at hk ⊢
  refine ⟨fun i hi f hg hvc hf => ⟨?_, fun hh => ?_⟩, fun hnone => ?_⟩
  · have huniq : ∀ a < u.par.N, ∀ b < u.par.N,
        commitsTo u a k v = true → commitsTo u b k v = true → a = b := by
      intro a ha b hb hca hcb
      obtain ⟨-, -, hga⟩ := commitsTo_iff.1 hca
      obtain ⟨-, -, hgb⟩ := commitsTo_iff.1 hcb
      exact eq_of_grantAt hu ha hb hk hga hgb
    have hcommits : commitsTo u i k v = true :=
      commitsTo_iff.2 ⟨fullAt_of_grantAt hu hi hk hg, hvc, hg⟩
    exact igpAfter_of_commitsTo huniq hi hcommits hf
  · rw [← hflag]
    exact igpAt_of_request_of_isHeader (request_of_grantAt hu hi hk hg) hvc hf hh
  · rw [← hflag]
    refine igpAfter_of_none fun i hi => Bool.eq_false_iff.2 fun hc => ?_
    obtain ⟨-, hvc, hg⟩ := commitsTo_iff.1 hc
    exact hnone i hi hg hvc

end Sys2Proof.Machine
end

section
/-! CREDIT.TX (43_credit_flow.md R155, R156): it stops for nothing, and what it does to one
(port, VC) pair, for a pair that owes a credit and for one that owes none. -/

namespace Sys2Proof.Machine

theorem exec_creditTx (s : State) : exec .creditTx s = runOp creditTx s := rfl

/-- R155 has no case that stops: a refused offer waits (R156). -/
theorem exists_creditTx_ok (s : State) : ∃ t, creditTx s = .ok t := ⟨_, rfl⟩

theorem creditTx_of_owed {s t : State} (h : creditTx s = .ok t) {p v : Nat} (hp : p < s.par.N)
    (hv : v < s.par.V) (howed : 0 < s.r.coAt p v) :
    cell none t.tv.out.credit p v = some 1 ∧
      (s.env.creditReadyAt p v = true → t.r.coAt p v + 1 = s.r.coAt p v) ∧
      (s.env.creditReadyAt p v = false → t.r.coAt p v = s.r.coAt p v) := by
  obtain ⟨hpair, -⟩ := creditTx_ok h
  obtain ⟨hoffer, hco⟩ := hpair p hp v hv
  refine ⟨by rw [hoffer, if_pos howed], fun haccept => ?_, fun hrefuse => ?_⟩
  · have hlower : t.r.coAt p v = s.r.coAt p v - 1 := by simpa [howed, haccept] using hco
    omega
  · simpa [hrefuse] using hco

theorem creditTx_of_not_owed {s t : State} (h : creditTx s = .ok t) {p v : Nat}
    (hp : p < s.par.N) (hv : v < s.par.V) (hzero : s.r.coAt p v = 0) :
    cell none t.tv.out.credit p v = none ∧ t.r.coAt p v = 0 := by
  obtain ⟨hpair, -⟩ := creditTx_ok h
  obtain ⟨hoffer, hco⟩ := hpair p hp v hv
  exact ⟨by simpa [hzero] using hoffer, by simpa [hzero] using hco⟩

/-- Settles O17: CREDIT.TX completes on every router without fault, each pair is in the owed or the
not-owed case, and what CREDIT.TX writes is the owed counters and the offered credits. -/
theorem creditTxReturnsOneCreditEach : Obligations.CreditTxReturnsOneCreditEach := by
  intro s hf
  obtain ⟨t, ht⟩ := exists_creditTx_ok s
  obtain ⟨-, hr, -, henv, htv, hout⟩ := creditTx_ok ht
  exact ⟨t, by rw [exec_creditTx, runOp_of_ok hf ht],
    fun p hp v hv => ⟨creditTx_of_owed ht hp hv, creditTx_of_not_owed ht hp hv⟩,
    hr, henv, htv, hout⟩

end Sys2Proof.Machine
end

section
/-! PEEK (45_ingress_vcselect.md R184): its only stop is F2, at a chosen queue that holds no flit. -/

namespace Sys2Proof.Machine

theorem exec_peek (s : State) : exec .peek s = runOp peek s := rfl

/-- PEEK completes exactly when every chosen queue holds a flit, which VC.SELECT provides (R184). -/
theorem exists_peek_ok_iff {s : State} :
    (∃ t, peek s = .ok t) ↔
      ∀ p < s.par.N, ∀ v, s.tv.vcAt p = some v → s.r.qAt p v ≠ [] := by
  constructor
  · rintro ⟨t, ht⟩ p hp
    obtain ⟨hstop, -⟩ := peek_ok ht
    exact peekStop_eq_none.1 (hstop p hp)
  · intro hfull
    have hstop : firstOf s.par.N (peekStop s) = none :=
      firstOf_eq_none.2 fun p hp => peekStop_eq_none.2 (hfull p hp)
    exact ⟨_, unlessStop_ok.2 ⟨hstop, rfl⟩⟩

/-- What PEEK leaves in `f` of a valid port: the oldest flit of its chosen queue. -/
theorem peek_fAt_of_vcAt {s t : State} (h : peek s = .ok t) {p v : Nat} (hp : p < s.par.N)
    (hv : s.tv.vcAt p = some v) : t.tv.fAt p = (s.r.qAt p v).head? := by
  obtain ⟨-, hf, -⟩ := peek_ok h
  rw [hf p hp, hv, Option.bind_some]

/-- Settles O21: PEEK completes since no chosen queue is empty, `f` of a valid port is the front of its
chosen queue, and `f` is all that PEEK writes. -/
theorem peekCopiesTheFrontFlit : Obligations.PeekCopiesTheFrontFlit := by
  intro s hnf hfull
  obtain ⟨t, ht⟩ := exists_peek_ok_iff.2 hfull
  obtain ⟨-, -, -, htv, honly⟩ := peek_ok ht
  exact ⟨t, by rw [exec_peek, runOp_of_ok hnf ht],
    fun p hp v hv => peek_fAt_of_vcAt ht hp hv, htv, honly⟩

end Sys2Proof.Machine
end

section
/-! The encodings (30_encoding.md R71, R81, R84): the flit word and the flit determine each other, and
the record of every well-formed instruction decodes to it. -/

namespace Sys2Proof

/-! ### The flit word -/

/-- Above its low part, a concatenation reads as its high part. -/
theorem field_concat_add (hi lo w a n : Nat) :
    field (concat hi lo w) (w + a) n = field hi a n := by
  refine Nat.eq_of_testBit_eq fun i => ?_
  rw [testBit_field, testBit_field, testBit_concat, if_neg (by omega),
    show w + a + i - w = a + i by omega]

theorem Pos.code_ofCode (c : BitVec 2) : (Pos.ofCode c).code = c := by
  revert c; decide

theorem packFlit_lt (par : Params) (f : Flit) : packFlit par f < 2 ^ par.FW := by
  have hpos : f.pos.code.toNat < 2 ^ 2 := f.pos.code.isLt
  have hword := concat_lt (lo := f.payload) (w := par.W)
    (concat_lt (lo := f.vc) (w := par.VCW) hpos)
  rwa [show par.W + (par.VCW + 2) = par.FW by simp only [Params.FW]; omega] at hword

theorem unpackFlit_packFlit {par : Params} {f : Flit} (hvc : f.vc < 2 ^ par.VCW)
    (hx : f.payload < 2 ^ par.W) : unpackFlit par (packFlit par f) = f := by
  have hpos : Pos.ofCode (BitVec.ofNat 2 (field (packFlit par f) (par.W + par.VCW) 2)) = f.pos := by
    rw [packFlit, field_concat_add, field_concat_high, Nat.mod_eq_of_lt f.pos.code.isLt,
      BitVec.ofNat_toNat, BitVec.setWidth_eq, Pos.ofCode_code]
  have hv : field (packFlit par f) par.W par.VCW = f.vc := by
    have hlow : concat f.pos.code.toNat f.vc par.VCW % 2 ^ par.VCW = f.vc % 2 ^ par.VCW :=
      field_concat_low ..
    rw [packFlit, field_concat_high, hlow, Nat.mod_eq_of_lt hvc]
  have hp : field (packFlit par f) 0 par.W = f.payload := by
    rw [packFlit, field_concat_low, Nat.mod_eq_of_lt hx]
  rw [unpackFlit, hpos, hv, hp]

/-- The word is read back bit by bit: the payload's, the VC's and the tag's. -/
theorem packFlit_unpackFlit {par : Params} {w : Nat} (hw : w < 2 ^ par.FW) :
    packFlit par (unpackFlit par w) = w := by
  refine Nat.eq_of_testBit_eq fun i => ?_
  simp only [packFlit, unpackFlit, Pos.code_ofCode, BitVec.toNat_ofNat, testBit_concat]
  by_cases hpay : i < par.W
  · simp [hpay, testBit_field]
  · by_cases hvc : i - par.W < par.VCW
    · simp [hpay, hvc, testBit_field, show par.W + (i - par.W) = i by omega]
    · rw [if_neg hpay, if_neg hvc, Nat.mod_eq_of_lt (field_lt ..), testBit_field,
        show par.W + par.VCW + (i - par.W - par.VCW) = i by omega]
      by_cases htag : i - par.W - par.VCW < 2
      · simp [htag]
      · have hFW : par.FW ≤ i := by simp only [Params.FW]; omega
        rw [Nat.testBit_lt_two_pow (hw.trans_le (Nat.pow_le_pow_right (by decide) hFW)),
          Bool.and_false]

/-- Settles O2, one direction of reading back at a time. -/
theorem flitWordIsABijection : Obligations.FlitWordIsABijection := fun par =>
  ⟨fun f hvc hx => ⟨packFlit_lt par f, unpackFlit_packFlit hvc hx⟩,
    fun _ hw => ⟨packFlit_unpackFlit hw, field_lt .., field_lt ..⟩⟩

/-! ### Records -/

/-- The record of a flit message decodes to the message of its tag. -/
theorem decode_flit {par : Params} {p vc : Nat} {x : Payload} (pos : Pos)
    (h : flitFits par p vc x = true) :
    decode par [1, packFlit par ⟨pos, vc, x⟩, p] = .ok (flitInstr p ⟨pos, vc, x⟩) := by
  simp only [flitFits, Bool.and_eq_true, decide_eq_true_eq] at h
  obtain ⟨⟨-, hvc⟩, hx⟩ := h
  simp only [decode, packFlit_lt, if_true, unpackFlit_packFlit (f := ⟨pos, vc, x⟩) hvc hx]

/-- The record of a route operation decodes to the operation its key selects. -/
theorem decode_key (par : Params) (key : BitVec 4) (p : Nat) :
    decode par [0, key.toNat, p] = .ok ((keyOp key).instr p) := by
  simp [decode, key.isLt]

theorem decode_credit (par : Params) (a : BitVec 1) (k v : Nat) :
    decode par [2, a.toNat, k, v] = .ok (.creditMsg k v a) := by
  simp [decode, a.isLt]

/-- Settles O1: a route operation by its key, a message by its word, and every other operation by its
number. -/
theorem decodeEncodeRoundTrip : Obligations.DecodeEncodeRoundTrip := by
  intro par i hi
  cases i with
  | routeSr p => exact decode_key par _ p
  | routeLutUcast p => exact decode_key par _ p
  | routeLutMcast p => exact decode_key par _ p
  | routeHold p => rw [encode, decode_key, keyOp_makeKey]; rfl
  | flitBody p vc x => exact decode_flit .body hi
  | flitTail p vc x => exact decode_flit .tail hi
  | flitHead p vc x => exact decode_flit .head hi
  | flitSngl p vc x => exact decode_flit .sngl hi
  | creditMsg k v a => exact decode_credit par a k v
  | arbPick a valid => cases a <;> rfl
  | _ => rfl

/-- Settles O3: `keyOp_routeKey`, with a header told by its tag. -/
theorem keySelectsTheRouteOperation : Obligations.KeySelectsTheRouteOperation := by
  intro par f
  have htag : (f.pos = .body ∨ f.pos = .tail) ↔ Machine.isHeader f = false := by
    cases h : f.pos <;> simp [Machine.isHeader, h]
  rw [Machine.keyOp_routeKey]
  exact if_congr htag.symm rfl rfl

/-- Settles O4 by evaluation of the decoder on the written words. -/
theorem writtenWordsDecode : Obligations.WrittenWordsDecode := by
  unfold Obligations.WrittenWordsDecode
  decide

end Sys2Proof
end

section
/-! What an instruction can answer, said once: an operation of the router completes or raises a fault,
a message is presented on its channel, RESET gives the reset state. With it the arrays of the state
that two descriptions give, and the first stop of a loop. -/

namespace Sys2Proof

/-! ### The first answer of a loop (60_exceptions.md R210) -/

theorem firstOf_eq_some {β : Type} {n i : Nat} {f : Nat → Option β} {b : β} (hi : i < n)
    (h : f i = some b) (hlow : ∀ j < i, f j = none) : firstOf n f = some b := by
  cases hc : firstOf n f with
  | none => exact absurd (firstOf_eq_none.1 hc i hi) (by simp [h])
  | some c =>
    obtain ⟨j, -, hj, hjlow⟩ := exists_of_firstOf hc
    have hji : j = i := by
      rcases lt_trichotomy j i with hlt | heq | hgt
      · exact absurd hj (by simp [hlow j hlt])
      · exact heq
      · exact absurd h (by simp [hjlow i hgt])
    rw [← h, ← hj, hji]

theorem firstOf2_eq_some {β : Type} {n m i j : Nat} {f : Nat → Nat → Option β} {b : β} (hi : i < n)
    (hj : j < m) (h : f i j = some b)
    (hlow : ∀ i' < n, ∀ j' < m, i' < i ∨ (i' = i ∧ j' < j) → f i' j' = none) :
    firstOf2 n m f = some b :=
  firstOf_eq_some hi
    (firstOf_eq_some hj h fun j' hj' => hlow i hi j' (hj'.trans hj) (.inr ⟨rfl, hj'⟩))
    fun i' hi' => firstOf_eq_none.2 fun j' hj' => hlow i' (hi'.trans hi) j' hj' (.inl hi')

/-! ### Arrays told apart by their entries -/

theorem list_ext_entry {α : Type} {d : α} {l l' : List α} {n : Nat} (hl : l.length = n)
    (hl' : l'.length = n) (h : ∀ i < n, entry d l i = entry d l' i) : l = l' := by
  refine List.ext_getElem (hl.trans hl'.symm) fun i hi hi' => ?_
  have := h i (hl ▸ hi)
  simpa [entry, hi, hi'] using this

namespace Machine

theorem shaped_row {α : Type} {g : Grid α} {n m i : Nat} (h : Shaped g n m) (hi : i < n) :
    (entry [] g i).length = m :=
  h.2 _ (entry_mem [] (by rw [h.1]; exact hi))

theorem grid_ext {α : Type} {d : α} {g g' : Grid α} {n m : Nat} (hg : Shaped g n m)
    (hg' : Shaped g' n m) (h : ∀ i < n, ∀ j < m, cell d g i j = cell d g' i j) : g = g' :=
  list_ext_entry hg.1 hg'.1 fun i hi =>
    list_ext_entry (shaped_row hg hi) (shaped_row hg' hi) (h i hi)

theorem shaped_setCell {α : Type} {g : Grid α} {n m i j : Nat} {x : α} (h : Shaped g n m)
    (hi : i < n) : Shaped (setCell g i j x) n m := by
  refine ⟨by simpa [setCell] using h.1, fun row hrow => ?_⟩
  rcases List.mem_or_eq_of_mem_set hrow with hold | rfl
  · exact h.2 row hold
  · rw [List.length_set, shaped_row h hi]

theorem cell_setCell_self {α : Type} {g : Grid α} {n m i j : Nat} {x d : α} (h : Shaped g n m)
    (hi : i < n) (hj : j < m) : cell d (setCell g i j x) i j = x := by
  rw [cell_setCell, if_pos ⟨rfl, rfl, by rw [h.1]; exact hi, by rw [shaped_row h hi]; exact hj⟩]

theorem cell_setCell_of_pair_ne {α : Type} {g : Grid α} {i j i' j' : Nat} {x d : α}
    (h : (i', j') ≠ (i, j)) : cell d (setCell g i j x) i' j' = cell d g i' j' := by
  refine cell_setCell_of_ne d g x ?_
  by_contra hc
  push Not at hc
  exact h (by rw [hc.1, hc.2])

theorem sameOutside_withRouter (s : State) (r : Router) : SameOutside s (s.withRouter r) :=
  ⟨rfl, rfl, rfl, rfl, rfl, rfl, rfl⟩

theorem sameOutside_withEnv (s : State) (e : Env) : SameOutside s (s.withEnv e) :=
  ⟨rfl, rfl, rfl, rfl, rfl, rfl, rfl⟩

theorem onlyTickValues_withTv (s : State) (tv : TickVals) : OnlyTickValues s (s.withTv tv) :=
  ⟨⟨rfl, rfl, rfl, rfl, rfl, rfl, rfl⟩, rfl, rfl⟩

theorem SameOutside.trans {s t u : State} (hst : SameOutside s t) (htu : SameOutside t u) :
    SameOutside s u := by
  obtain ⟨h1, h2, h3, h4, h5, h6, h7⟩ := hst
  obtain ⟨g1, g2, g3, g4, g5, g6, g7⟩ := htu
  exact ⟨g1.trans h1, g2.trans h2, g3.trans h3, g4.trans h4, g5.trans h5, g6.trans h6, g7.trans h7⟩

/-! ### Faults -/

theorem raised_raiseFatal (s : State) (c : Code) (n : Nat) : Raised (s.raiseFatal c n) c n :=
  ⟨rfl, rfl, rfl⟩

theorem runOp_raised {op : State → Res} {s : State} {c : Code} {n : Nat} (hf : s.r.fault = none)
    (h : op s = .error (.raise c n)) : ∃ t, runOp op s = .next t ∧ Raised t c n :=
  ⟨_, runOp_of_raise hf h, raised_raiseFatal s c n⟩

/-! ### The operation of an instruction -/

/-- What the router does for an instruction that is an operation of it; none for a peer's message and
for RESET, which a faulted router accepts too. -/
def operation : Instr → Option (State → Res)
  | .routeSr p => some (routePort .sr p)
  | .routeLutUcast p => some (routePort .ucast p)
  | .routeLutMcast p => some (routePort .mcast p)
  | .routeHold p => some (routePort .hold p)
  | .flitBody _ _ _ => none
  | .flitTail _ _ _ => none
  | .flitHead _ _ _ => none
  | .flitSngl _ _ _ => none
  | .creditMsg _ _ _ => none
  | .reset => none
  | .tick => some tick
  | .creditRx => some creditRx
  | .ingressRx => some ingressRx
  | .vcSelect => some vcSelect
  | .peek => some peek
  | .reqBuild => some reqBuild
  | .mcastWithdraw => some mcastWithdraw
  | .outArb => some outArb
  | .mcastForce => some mcastForce
  | .grantFinal => some grantFinal
  | .grantCommit => some grantCommit
  | .creditDec k v => some (creditDec k v)
  | .creditOwe i v => some (creditOwe i v)
  | .xbar => some xbar
  | .hdrRewriteLut i k => some (hdrRewriteLut i k)
  | .egressTx => some egressTx
  | .creditTx => some creditTx
  | .arbPick a valid => some (arbPick a valid)

/-- An operation without operands is well-formed, so it is a checked operation like the others. -/
theorem exec_eq_runChecked {i : Instr} {op : State → Res} (h : operation i = some op) (s : State) :
    exec i s = runChecked i op s := by
  cases i <;> cases h <;> rfl

theorem exec_of_wellFormed {i : Instr} {op : State → Res} {s : State} (h : operation i = some op)
    (hi : i.wellFormed s.par = true) : exec i s = runOp op s := by
  rw [exec_eq_runChecked h, runChecked_of_wellFormed hi]

theorem exec_flitInstr (p : Nat) (f : Flit) (s : State) :
    exec (flitInstr p f) s = offerFlit p f s := by
  obtain ⟨pos, vc, x⟩ := f
  cases pos <;> rfl

theorem exec_creditMsg (k v : Nat) (a : BitVec 1) (s : State) :
    exec (.creditMsg k v a) s = execCreditMsg k v a s := rfl

theorem exec_reset (s : State) : exec .reset s = execReset s := rfl

/-- An instruction that is no operation of the router is RESET or a message. -/
theorem operation_eq_none {i : Instr} (h : operation i = none) :
    i = .reset ∨ (∃ p f, i = flitInstr p f) ∨ ∃ k v a, i = .creditMsg k v a := by
  cases i with
  | reset => exact .inl rfl
  | flitBody p vc x => exact .inr (.inl ⟨p, ⟨.body, vc, x⟩, rfl⟩)
  | flitTail p vc x => exact .inr (.inl ⟨p, ⟨.tail, vc, x⟩, rfl⟩)
  | flitHead p vc x => exact .inr (.inl ⟨p, ⟨.head, vc, x⟩, rfl⟩)
  | flitSngl p vc x => exact .inr (.inl ⟨p, ⟨.sngl, vc, x⟩, rfl⟩)
  | creditMsg k v a => exact .inr (.inr ⟨k, v, a, rfl⟩)
  | _ => cases h

theorem offerFlit_next {p : Nat} {f : Flit} {s t : State} (h : offerFlit p f s = .next t) :
    flitFits s.par p f.vc f.payload = true ∧
      t = s.withEnv { s.env with inFlit := s.env.inFlit.set p (some f) } := by
  unfold offerFlit at h
  split at h
  · exact ⟨‹_›, by simpa [eq_comm] using h⟩
  · cases h

theorem execCreditMsg_next {k v : Nat} {a : BitVec 1} {s t : State}
    (h : execCreditMsg k v a s = .next t) :
    (Instr.creditMsg k v a).wellFormed s.par = true ∧
      t = s.withEnv { s.env with inCredit := setCell s.env.inCredit k v (some a) } := by
  unfold execCreditMsg at h
  split at h
  · exact ⟨‹_›, by simpa [eq_comm] using h⟩
  · cases h

theorem execReset_next {s t : State} (h : execReset s = .next t) :
    s.par.ok = true ∧ t = s.afterReset := by
  unfold execReset at h
  split at h
  · exact ⟨‹_›, by simpa [eq_comm] using h⟩
  · cases h

/-- What a message of a peer leaves: the router as it is, with the message in the environment record. -/
def Offered (i : Instr) (s t : State) : Prop :=
  (∃ p f, i = flitInstr p f ∧ flitFits s.par p f.vc f.payload = true ∧
      t = s.withEnv { s.env with inFlit := s.env.inFlit.set p (some f) }) ∨
    ∃ k v a, i = .creditMsg k v a ∧ i.wellFormed s.par = true ∧
      t = s.withEnv { s.env with inCredit := setCell s.env.inCredit k v (some a) }

/-- Everything an instruction can do when it answers a next state. -/
theorem exec_next {i : Instr} {s t : State} (h : exec i s = .next t) :
    (i = .reset ∧ s.par.ok = true ∧ t = s.afterReset) ∨ Offered i s t ∨
      ∃ op, operation i = some op ∧ i.wellFormed s.par = true ∧ s.r.fault = none ∧
        (op s = .ok t ∨ ∃ c n, op s = .error (.raise c n) ∧ t = s.raiseFatal c n) := by
  cases hop : operation i with
  | some op =>
    rw [exec_eq_runChecked hop] at h
    obtain ⟨hi, hrun⟩ := runChecked_next h
    exact .inr (.inr ⟨op, rfl, hi, runOp_next hrun⟩)
  | none =>
    rcases operation_eq_none hop with rfl | ⟨p, f, rfl⟩ | ⟨k, v, a, rfl⟩
    · exact .inl ⟨rfl, execReset_next h⟩
    · rw [exec_flitInstr] at h
      exact .inr (.inl (.inl ⟨p, f, rfl, offerFlit_next h⟩))
    · exact .inr (.inl (.inr ⟨k, v, a, rfl, execCreditMsg_next h⟩))

/-! ### Steps -/

/-- A next state of a step is the next state of an instruction, on a router that is built. -/
theorem step_next {s t : State} (h : step s = .next t) :
    s.par.ok = true ∧ ∃ i, exec i (s.withSel none) = .next t := by
  unfold step at h
  split at h
  · split at h
    · exact ⟨‹_›, _, h⟩
    · cases h
  · cases h

/-- Settles O5: the request names the instruction, and the step runs it. -/
theorem stepRunsTheDecodedInstruction : Obligations.StepRunsTheDecodedInstruction := by
  intro s cells i hok hsel hdec hwf
  have hnext : nextOperation s = .ok i := by simp [nextOperation, hsel, hdec, hwf]
  simp [step, hok, hnext]

/-- Settles O6: with no request the state is its own copy without one. -/
theorem stepWithoutRequestTicksOrResets : Obligations.StepWithoutRequestTicksOrResets := by
  intro s hok hsel
  have hself : s.withSel none = s := by rw [← hsel]; rfl
  have hnext : nextOperation s = .ok (if s.rst then .reset else .tick) := by
    simp [nextOperation, hsel]
  cases hr : s.rst <;> simp [step, hok, hnext, hself, hr]

/-- Settles O9: a tick is an operation of the router, and none is applied to a faulted one. -/
theorem faultedRouterTakesNoTick : Obligations.FaultedRouterTakesNoTick :=
  fun _ _ hf => runOp_of_faulted hf

/-- Settles O8: on a faulted router an operation answers no next state; a message replaces the
environment record alone. -/
theorem onlyResetLeavesTheFaultState : Obligations.OnlyResetLeavesTheFaultState := by
  intro i s t e hf h
  rcases exec_next h with ⟨rfl, -⟩ | hmsg | ⟨op, -, -, hnone, -⟩
  · exact .inl rfl
  · right
    rcases hmsg with ⟨p, ⟨pos, vc, x⟩, rfl, -, rfl⟩ | ⟨k, v, a, rfl, -, rfl⟩
    · refine ⟨.inl ⟨p, vc, x, ?_⟩, rfl⟩
      cases pos <;> simp [flitInstr]
    · exact ⟨.inr ⟨k, v, a, rfl⟩, rfl⟩
  · rw [hf] at hnone
    cases hnone

/-! ### Messages -/

/-- Settles O11: the message is its flit's, presented in the slot of its port. -/
theorem flitMessageIsOffered : Obligations.FlitMessageIsOffered := by
  intro s p vc x hlen hp hvc hx i pos hi
  have hmsg : i = flitInstr p ⟨pos, vc, x⟩ := by
    rcases hi with ⟨rfl, rfl⟩ | ⟨rfl, rfl⟩ | ⟨rfl, rfl⟩ | ⟨rfl, rfl⟩ <;> rfl
  have hfits : flitFits s.par p vc x = true := by simp [flitFits, hp, hvc, hx]
  refine ⟨s.withEnv { s.env with inFlit := s.env.inFlit.set p (some ⟨pos, vc, x⟩) },
    ?_, ?_, fun p' hp' => ?_, rfl, rfl, rfl, sameOutside_withEnv ..⟩
  · rw [hmsg, exec_flitInstr, offerFlit, if_pos hfits]
  · simp [Env.flitAt, entry_set, hlen, hp]
  · simp [Env.flitAt, entry_set, Ne.symm hp']

/-- Settles O12: the bit is presented in the slot of its pair. -/
theorem creditMessageIsOffered : Obligations.CreditMessageIsOffered := by
  intro s k v a hshape hk hv
  have hwf : (Instr.creditMsg k v a).wellFormed s.par = true := by simp [Instr.wellFormed, hk, hv]
  refine ⟨s.withEnv { s.env with inCredit := setCell s.env.inCredit k v (some a) },
    ?_, ?_, fun k' v' hne => ?_, rfl, rfl, rfl, sameOutside_withEnv ..⟩
  · rw [exec_creditMsg, execCreditMsg, if_pos hwf]
  · exact cell_setCell_self hshape hk hv
  · exact cell_setCell_of_pair_ne hne

/-! ### RESET -/

theorem latchCfg_of_isLut {par : Params} (h : par.isLut = true) (c : Cfg) :
    latchCfg par c =
      { myId := c.myId % 2 ^ par.RIDW
        lutL := tab par.NLD fun j => entry 0 c.lutL j % 2 ^ par.N
        lutR := tab par.NRD fun g => entry 0 c.lutR g % 2 ^ par.N } := by
  simp [latchCfg, h]

theorem latchCfg_of_sr {par : Params} (h : par.isLut = false) (c : Cfg) :
    latchCfg par c = { myId := 0, lutL := [], lutR := [] } := by
  simp [latchCfg, h]

/-- A table is latched entry for entry where the inputs have the entries' width. -/
theorem getD_latched {n w j : Nat} {l : List Nat} (hj : j < n) (h : l.getD j 0 < 2 ^ w) :
    (tab n fun i => entry 0 l i % 2 ^ w).getD j 0 = l.getD j 0 :=
  (entry_tab_of_lt _ 0 hj).trans (Nat.mod_eq_of_lt h)

/-- Settles O7, field by field of the reset state. -/
theorem resetGivesTheResetState : Obligations.ResetGivesTheResetState := by
  intro s hok
  refine ⟨s.afterReset, by rw [exec_reset, execReset, if_pos hok], fun p hp v hv => ?_,
    fun k hk => ?_, rfl, fun hlut => ?_, fun hsr => ?_, ?_, rfl, rfl, rfl, rfl⟩
  · simp [Router.atReset, Router.qAt, Router.caAt, Router.coAt, Router.igpAt, Router.outDestAt,
      Router.isLocalAt, hp, hv]
  · simp [Router.atReset, Router.arbOutAt, Router.arbVcAt, Router.eqAt, hk]
  · rw [show s.afterReset.r.cfg = latchCfg s.par s.cfgIn from rfl, latchCfg_of_isLut hlut]
    exact ⟨Nat.mod_eq_of_lt, length_tab .., length_tab .., fun j => getD_latched,
      fun g => getD_latched⟩
  · exact latchCfg_of_sr hsr _
  · simp [Router.atReset, configFault]

end Machine

end Sys2Proof
end

section
/-! The credit counters (43_credit_flow.md R150, R152, R153), the ingress (45_ingress_vcselect.md R180,
R182) and the arbiter (40_priority_arbiter.md R101 to R104), each operation by itself. -/

namespace Sys2Proof.Machine

/-! ### CREDIT.RX -/

theorem creditRxStop_of_le {s : State} {k v : Nat}
    (h : ∀ a, s.env.creditAt k v = some a → s.r.caAt k v + a.toNat ≤ s.par.B) :
    creditRxStop s k v = none := by
  unfold creditRxStop creditAfter
  cases ha : s.env.creditAt k v with
  | none => rfl
  | some a => simp only [counterAdd, if_pos (h a ha)]

theorem creditRxStop_of_lt {s : State} {k v : Nat} {a : BitVec 1} (ha : s.env.creditAt k v = some a)
    (h : s.par.B < s.r.caAt k v + a.toNat) :
    creditRxStop s k v = some (.raise .creditAvailOverflow (pairIndex s.par k v)) := by
  simp only [creditRxStop, creditAfter, ha, counterAdd_eq_none.2 h]

theorem exists_creditRx_ok {s : State}
    (h : ∀ k < s.par.N, ∀ v < s.par.V, creditRxStop s k v = none) : ∃ t, creditRx s = .ok t :=
  ⟨_, unlessStop_ok.2 ⟨firstOf2_eq_none.2 h, rfl⟩⟩

/-- R150 takes a message wherever one is offered (decision D25). -/
theorem creditRx_taken {s t : State} (h : creditRx s = .ok t) {k v : Nat} (hk : k < s.par.N)
    (hv : v < s.par.V) : cell false t.tv.out.creditTaken k v = (s.env.creditAt k v).isSome := by
  obtain ⟨-, rfl⟩ := unlessStop_ok.1 h
  simp [hk, hv]

/-- The first pair, in ascending index, whose counter its message would take past `B`. -/
theorem creditRx_raises {s : State} {k v : Nat} {a : BitVec 1} (hk : k < s.par.N) (hv : v < s.par.V)
    (ha : s.env.creditAt k v = some a) (hover : s.par.B < s.r.caAt k v + a.toNat)
    (hlow : ∀ k' < s.par.N, ∀ v' < s.par.V, k' < k ∨ (k' = k ∧ v' < v) → ∀ a',
      s.env.creditAt k' v' = some a' → s.r.caAt k' v' + a'.toNat ≤ s.par.B) :
    creditRx s = .error (.raise .creditAvailOverflow (pairIndex s.par k v)) :=
  unlessStop_error.2 (firstOf2_eq_some hk hv (creditRxStop_of_lt ha hover)
    fun k' hk' v' hv' hkv => creditRxStop_of_le (hlow k' hk' v' hv' hkv))

/-- Settles O13: no pair stops CREDIT.RX, and `creditRx_ok` says what it writes. -/
theorem creditRxAddsEveryAmount : Obligations.CreditRxAddsEveryAmount := by
  intro s hf hfit
  obtain ⟨t, ht⟩ := exists_creditRx_ok fun k hk v hv => creditRxStop_of_le (hfit k hk v hv)
  obtain ⟨-, hpair, hr, -, henv, htv, hout⟩ := creditRx_ok ht
  refine ⟨t, runOp_of_ok hf ht, fun k hk v hv => ?_, hr, henv, htv, hout⟩
  obtain ⟨hca, hnone⟩ := hpair k hk v hv
  exact ⟨hca, hnone, creditRx_taken ht hk hv⟩

/-- Settles O14: the named pair is the first that stops. -/
theorem creditRxFaultsOnOverflow : Obligations.CreditRxFaultsOnOverflow :=
  fun _ _ _ _ hf hk hv ha hover hlow => runOp_raised hf (creditRx_raises hk hv ha hover hlow)

/-! ### CREDIT.DEC and CREDIT.OWE -/

theorem creditDec_ok {k v : Nat} {s t : State} (h : creditDec k v s = .ok t) :
    1 ≤ s.r.caAt k v ∧
      t = s.withRouter { s.r with ca := setCell s.r.ca k v (s.r.caAt k v - 1) } := by
  unfold creditDec at h
  split at h
  · next c hc =>
    obtain ⟨hle, rfl⟩ := counterSub_eq_some.1 hc
    exact ⟨hle, by simpa [eq_comm] using h⟩
  · cases h

theorem creditOwe_ok {i v : Nat} {s t : State} (h : creditOwe i v s = .ok t) :
    s.r.coAt i v + 1 ≤ s.par.B ∧
      t = s.withRouter { s.r with co := setCell s.r.co i v (s.r.coAt i v + 1) } := by
  unfold creditOwe at h
  split at h
  · next c hc =>
    obtain ⟨hle, rfl⟩ := counterAdd_eq_some.1 hc
    exact ⟨hle, by simpa [eq_comm] using h⟩
  · cases h

/-- Settles O15: the counter holds a credit and its cell alone is rewritten, or it holds none. -/
theorem creditDecLowersOneCounter : Obligations.CreditDecLowersOneCounter := by
  intro s k v hf hshape hk hv
  have hwf : (Instr.creditDec k v).wellFormed s.par = true := by simp [Instr.wellFormed, hk, hv]
  rw [exec_of_wellFormed rfl hwf]
  refine ⟨fun hpos => ⟨s.withRouter { s.r with ca := setCell s.r.ca k v (s.r.caAt k v - 1) },
    ?_, ?_, fun k' v' hne => ?_, rfl, rfl, rfl, sameOutside_withRouter ..⟩, fun hzero => ?_⟩
  · exact runOp_of_ok hf (by simp [creditDec, counterSub, hpos])
  · rw [State.withRouter_r, Router.caAt, cell_setCell_self hshape hk hv]
    omega
  · exact cell_setCell_of_pair_ne hne
  · exact runOp_of_refuse hf (by simp [creditDec, counterSub, hzero])

/-- Settles O16: the sum stays within `B` and its cell alone is rewritten, or F4 is raised. -/
theorem creditOweRaisesOneCounter : Obligations.CreditOweRaisesOneCounter := by
  intro s i v hf hshape hi hv
  have hwf : (Instr.creditOwe i v).wellFormed s.par = true := by simp [Instr.wellFormed, hi, hv]
  rw [exec_of_wellFormed rfl hwf]
  refine ⟨fun hfit => ⟨s.withRouter { s.r with co := setCell s.r.co i v (s.r.coAt i v + 1) },
    ?_, ?_, fun i' v' hne => ?_, rfl, rfl, rfl, sameOutside_withRouter ..⟩, fun hover => ?_⟩
  · exact runOp_of_ok hf (by simp [creditOwe, counterAdd, hfit])
  · exact cell_setCell_self hshape hi hv
  · exact cell_setCell_of_pair_ne hne
  · exact runOp_raised hf (by simp only [creditOwe, counterAdd_eq_none.2 hover, pairIndex])

/-! ### INGRESS.RX -/

theorem exists_ingressRx_ok {s : State} (h : ∀ p < s.par.N, ingressRxStop s p = none) :
    ∃ t, ingressRx s = .ok t :=
  ⟨_, unlessStop_ok.2 ⟨firstOf_eq_none.2 h, rfl⟩⟩

/-- R180 takes a flit wherever one is offered (decision D25). -/
theorem ingressRx_taken {s t : State} (h : ingressRx s = .ok t) {p : Nat} (hp : p < s.par.N) :
    entry false t.tv.out.inTaken p = (s.env.flitAt p).isSome := by
  obtain ⟨-, rfl⟩ := unlessStop_ok.1 h
  simp [hp]

theorem ingressRxStop_of_badVc {s : State} {p : Nat} {f : Flit} (hf : s.env.flitAt p = some f)
    (hvc : s.par.V ≤ f.vc) : ingressRxStop s p = some (.raise .badVc p) := by
  simp [ingressRxStop, hf, hvc]

theorem ingressRxStop_of_full {s : State} {p : Nat} {f : Flit} (hf : s.env.flitAt p = some f)
    (hvc : f.vc < s.par.V) (hfull : s.par.B ≤ (s.r.qAt p f.vc).length) :
    ingressRxStop s p = some (.raise .queueOverflow (pairIndex s.par p f.vc)) := by
  simp [ingressRxStop, hf, Nat.not_le.2 hvc, queueFull, hfull]

/-- The first port whose flit cannot be queued stops INGRESS.RX. -/
theorem ingressRx_error {s : State} {p : Nat} {e : Stop} (hp : p < s.par.N)
    (hlow : ∀ p' < p, ∀ f', s.env.flitAt p' = some f' →
      f'.vc < s.par.V ∧ (s.r.qAt p' f'.vc).length < s.par.B)
    (h : ingressRxStop s p = some e) : ingressRx s = .error e :=
  unlessStop_error.2 (firstOf_eq_some hp h fun p' hp' => ingressRxStop_eq_none.2 (hlow p' hp'))

theorem arrival_eq_none {s : State} {p v : Nat} (h : ∀ f, s.env.flitAt p = some f → f.vc ≠ v) :
    arrival s p v = none :=
  Option.eq_none_iff_forall_not_mem.2 fun f hf => by
    obtain ⟨hoffer, hvc⟩ := arrival_eq_some.1 hf
    exact h f hoffer hvc

/-- Settles O18: no port stops INGRESS.RX, and a queue gets the flit that names it, if there is one. -/
theorem ingressRxQueuesEveryFlit : Obligations.IngressRxQueuesEveryFlit := by
  intro s hnf hroom
  obtain ⟨t, ht⟩ := exists_ingressRx_ok fun p hp => ingressRxStop_eq_none.2 (hroom p hp)
  obtain ⟨-, hq, hflit, hr, -, henv, htv, hout⟩ := ingressRx_ok ht
  refine ⟨t, runOp_of_ok hnf ht, fun p hp v hv => ?_,
    fun p hp => ⟨hflit p hp, ingressRx_taken ht hp⟩, hr, henv, htv, hout⟩
  obtain ⟨hqueue, hpushed⟩ := hq p hp v hv
  refine ⟨fun f hf hvc => ?_, fun hnone => ?_⟩
  · rw [arrival_eq_some.2 ⟨hf, hvc⟩] at hqueue hpushed
    exact ⟨hqueue, hpushed⟩
  · rw [arrival_eq_none hnone] at hqueue hpushed
    exact ⟨by simpa using hqueue, hpushed⟩

/-- Settles O19: the named port is the first that stops, by F9 before F1. -/
theorem ingressRxFaultsOnBadFlit : Obligations.IngressRxFaultsOnBadFlit :=
  fun _ _ _ hnf hp hf hlow =>
    ⟨fun hvc => runOp_raised hnf (ingressRx_error hp hlow (ingressRxStop_of_badVc hf hvc)),
      fun hvc hfull =>
        runOp_raised hnf (ingressRx_error hp hlow (ingressRxStop_of_full hf hvc hfull))⟩

/-! ### VC.SELECT -/

theorem vcSelect_inValid {s t : State} (h : vcSelect s = .ok t) {p : Nat} (hp : p < s.par.N) :
    entry false t.tv.inValid p = (nonemptyMask s p != 0) := by
  cases h
  simp [hp]

theorem nonemptyMask_testBit_iff {s : State} {p v : Nat} :
    (nonemptyMask s p).testBit v = true ↔ v < s.par.V ∧ s.r.qAt p v ≠ [] := by
  rw [nonemptyMask_testBit, Bool.and_eq_true, decide_eq_true_eq, Bool.not_eq_true',
    List.isEmpty_eq_false_iff]

theorem nonemptyMask_lt (s : State) (p : Nat) : nonemptyMask s p < 2 ^ s.par.V := maskOf_lt ..

theorem nonemptyMask_eq_zero {s : State} {p : Nat} (h : ∀ v < s.par.V, s.r.qAt p v = []) :
    nonemptyMask s p = 0 :=
  Nat.eq_of_testBit_eq fun v => by
    rw [Nat.zero_testBit, Bool.eq_false_iff]
    intro hbit
    obtain ⟨hv, hq⟩ := nonemptyMask_testBit_iff.1 hbit
    exact hq (h v hv)

/-- Settles O20: the pick from the port's pointer over the non-empty queues. -/
theorem vcSelectPicksANonEmptyQueue : Obligations.VcSelectPicksANonEmptyQueue := by
  intro s hnf hptr
  obtain ⟨t, ht⟩ : ∃ t, vcSelect s = .ok t := ⟨_, rfl⟩
  obtain ⟨hport, -, hr, -, henv, htv, hout⟩ := vcSelect_ok ht
  refine ⟨t, runOp_of_ok hnf ht, fun p hp => ?_, hr, henv, htv, hout⟩
  obtain ⟨hvc, hmove⟩ := hport p hp
  have hzero := pick_eq_none_iff_zero (nonemptyMask_lt s p) (hptr p hp)
  refine ⟨fun v hv => ?_, fun hnone => ?_, ?_⟩
  · obtain ⟨-, hlt, hq⟩ := vcSelect_vcAt ht hv
    rw [hvc] at hv
    rw [hmove, pickPtr_of_some hv]
    exact ⟨hlt, hq, rfl, fun u hu hqu =>
      pick_nearest hv (hptr p hp) hu (nonemptyMask_testBit_iff.2 ⟨hu, hqu⟩)⟩
  · rw [hvc] at hnone
    rw [hmove, pickPtr_of_none hnone]
    refine ⟨fun v hv => ?_, rfl⟩
    by_contra hq
    have hbit := nonemptyMask_testBit_iff.2 ⟨hv, hq⟩
    rw [hzero.1 hnone, Nat.zero_testBit] at hbit
    cases hbit
  · rw [vcSelect_inValid ht hp, hvc]
    cases hpick : pick s.par.V (s.r.arbVcAt p) (nonemptyMask s p) with
    | none => simp [hzero.1 hpick]
    | some v => simpa using mt hzero.2 (by simp [hpick])

/-! ### ARB.PICK -/

/-- How many steps above the pointer requester `w` is, in cyclic order. -/
def stepsTo (n ptr w : Nat) : Nat := (w + n - ptr) % n

theorem stepsTo_lt {n ptr w : Nat} (hn : 0 < n) : stepsTo n ptr w < n := Nat.mod_lt _ hn

theorem stepsTo_zero {n ptr w : Nat} (hw : w < n) (hp : ptr < n) (h : stepsTo n ptr w = 0) :
    w = ptr := by
  obtain ⟨-, hmod⟩ := exists_offset hw hp
  rw [show (w + n - ptr) % n = 0 from h, Nat.add_zero, Nat.mod_eq_of_lt hp] at hmod
  exact hmod.symm

/-- Where a pick names another requester, the pointer comes nearer to one that stays valid: it moves
past the winner, which is nearer than the one that waits. -/
theorem stepsTo_pickPtr_lt {n ptr w u : Nat} {valid : Mask} (hw : w < n) (hp : ptr < n)
    (hvalid : valid.testBit w = true) (hpick : pick n ptr valid = some u) (hne : u ≠ w) :
    stepsTo n (pickPtr n ptr valid) w < stepsTo n ptr w := by
  have hu : u < n := pick_lt hpick
  have hnear : (u + n - ptr) % n ≤ (w + n - ptr) % n := pick_nearest hpick hp hw hvalid
  obtain ⟨hdu, hmu⟩ := exists_offset hu hp
  obtain ⟨hdw, hmw⟩ := exists_offset hw hp
  obtain ⟨c, hc⟩ : ∃ c, (w + n - ptr) % n = (u + n - ptr) % n + 1 + c := by
    refine ⟨(w + n - ptr) % n - (u + n - ptr) % n - 1, ?_⟩
    have : (u + n - ptr) % n ≠ (w + n - ptr) % n := fun heq => hne (by rw [← hmu, ← hmw, heq])
    omega
  have hpast : w = (pickPtr n ptr valid + c) % n :=
    calc w = (ptr + (u + n - ptr) % n + (1 + c)) % n := by rw [← hmw, hc]; congr 1; omega
      _ = (u + (1 + c)) % n := by rw [← Nat.mod_add_mod, hmu]
      _ = (pickPtr n ptr valid + c) % n := by
        rw [pickPtr_of_some hpick, Nat.mod_add_mod, Nat.add_assoc]
  have hsteps : stepsTo n (pickPtr n ptr valid) w = c := by
    unfold stepsTo
    conv_lhs => rw [hpast]
    exact offset_mod (by omega) (pickPtr_lt hp)
  unfold stepsTo at hsteps ⊢
  omega

/-- Settles O23: while another requester is picked, the pointer comes nearer to the waiting one, and it
is fewer than `n` steps away to begin with. -/
theorem arbiterServesAWaitingRequester : Obligations.ArbiterServesAWaitingRequester := by
  intro n w valid ptr hw hp0 hvalid hptr
  have hp : ∀ j, ptr j < n := fun j => by
    induction j with
    | zero => exact hp0
    | succ j ih => rw [hptr]; exact pickPtr_lt ih
  by_contra hnever
  push Not at hnever
  have hnear : ∀ j ≤ n, stepsTo n (ptr j) w + j ≤ stepsTo n (ptr 0) w := fun j => by
    induction j with
    | zero => exact fun _ => le_rfl
    | succ j ih =>
      intro hj
      have hsome : pick n (ptr j) (valid j) ≠ none := fun hnone => by
        obtain ⟨hd, hmod⟩ := exists_offset hw (hp j)
        have := pick_eq_none.1 hnone _ hd
        rw [hmod, hvalid] at this
        cases this
      obtain ⟨u, hu⟩ := Option.ne_none_iff_exists'.1 hsome
      have hne : u ≠ w := fun heq => hnever j hj (heq ▸ hu)
      have hlt := stepsTo_pickPtr_lt hw (hp j) (hvalid j) hu hne
      rw [← hptr] at hlt
      have := ih (by omega)
      omega
  have hfar := hnear n le_rfl
  have := stepsTo_lt (ptr := ptr 0) (w := w) (by omega : 0 < n)
  omega

/-- What a pick from a pointer in range does: with no requester it names none and leaves the pointer,
otherwise it names the first in cyclic order and moves the pointer past it. -/
theorem pick_rotates {n ptr : Nat} {valid : Mask} (hv : valid < 2 ^ n) :
    (valid = 0 → pickMask n ptr valid = 0 ∧ pickPtr n ptr valid = ptr) ∧
    (ptr < n → valid ≠ 0 → ∃ d < n, ∃ w < n, w = (ptr + d) % n ∧ valid.testBit w = true ∧
      (∀ d' < d, valid.testBit ((ptr + d') % n) = false) ∧
      pickMask n ptr valid = 2 ^ w ∧ pickPtr n ptr valid = (w + 1) % n) := by
  refine ⟨fun hzero => ?_, fun hp hne => ?_⟩
  · have hnone : pick n ptr valid = none := by simp [pick_eq_none, hzero]
    exact ⟨pickMask_of_none hnone, pickPtr_of_none hnone⟩
  · obtain ⟨w, hw⟩ := Option.ne_none_iff_exists'.1 (mt (pick_eq_none_iff_zero hv hp).1 hne)
    obtain ⟨d, hd, hwd, hbit, hfirst⟩ := pick_eq_some hw
    exact ⟨d, hd, w, pick_lt hw, hwd, hbit, hfirst, pickMask_of_some hw, pickPtr_of_some hw⟩

/-- Settles O24: `pick_rotates` for the pointer of the named arbiter, the only one written. -/
theorem arbPickRotatesItsPointer : Obligations.ArbPickRotatesItsPointer := by
  intro s a valid hnf hwf hout hvc
  rw [exec_of_wellFormed (i := .arbPick a valid) rfl hwf]
  cases a with
  | out k =>
    simp only [ArbId.wellFormed, Bool.and_eq_true, decide_eq_true_eq] at hwf
    obtain ⟨hk, hvalid⟩ := hwf
    refine ⟨_, runOp_of_ok hnf rfl, fun k' heq => ?_, nofun, rfl, rfl, rfl, rfl, rfl, rfl, rfl, rfl,
      rfl⟩
    cases heq
    have hptr : entry 0 (s.r.arbOut.set k (pickPtr s.par.N (s.r.arbOutAt k) valid)) k =
        pickPtr s.par.N (s.r.arbOutAt k) valid := by simp [entry_set, hout, hk]
    obtain ⟨hzero, hpick⟩ := pick_rotates (ptr := s.r.arbOutAt k) hvalid
    exact ⟨fun h0 => ⟨(hzero h0).1, hptr.trans (hzero h0).2⟩,
      fun hp hne => by
        obtain ⟨d, hd, w, hw, hwd, hbit, hfirst, hwin, hmove⟩ := hpick hp hne
        exact ⟨d, hd, w, hw, hwd, hbit, hfirst, hwin, hptr.trans hmove⟩,
      fun k' hne => by simp [Router.arbOutAt, entry_set, Ne.symm hne], rfl⟩
  | vc p =>
    simp only [ArbId.wellFormed, Bool.and_eq_true, decide_eq_true_eq] at hwf
    obtain ⟨hp, hvalid⟩ := hwf
    refine ⟨_, runOp_of_ok hnf rfl, nofun, fun p' heq => ?_, rfl, rfl, rfl, rfl, rfl, rfl, rfl, rfl,
      rfl⟩
    cases heq
    have hptr : entry 0 (s.r.arbVc.set p (pickPtr s.par.V (s.r.arbVcAt p) valid)) p =
        pickPtr s.par.V (s.r.arbVcAt p) valid := by simp [entry_set, hvc, hp]
    obtain ⟨hzero, hpick⟩ := pick_rotates (ptr := s.r.arbVcAt p) hvalid
    exact ⟨fun h0 => ⟨(hzero h0).1, hptr.trans (hzero h0).2⟩,
      fun hp hne => by
        obtain ⟨d, hd, w, hw, hwd, hbit, hfirst, hwin, hmove⟩ := hpick hp hne
        exact ⟨d, hd, w, hw, hwd, hbit, hfirst, hwin, hptr.trans hmove⟩,
      fun p' hne => by simp [Router.arbVcAt, entry_set, Ne.symm hne], rfl⟩

end Sys2Proof.Machine
end

section
/-! The route resolver (41_route_resolver.md R110 to R118), one port at a time. -/

namespace Sys2Proof

/-- A field of a field is a field. -/
theorem field_field {v lo w a n : Nat} (h : a + n ≤ w) : field (field v lo w) a n = field v (lo + a) n :=
  Nat.eq_of_testBit_eq fun i => by
    simp only [testBit_field, Nat.add_assoc]
    by_cases hi : i < n
    · simp [hi, show a + i < w by omega]
    · simp [hi]

theorem field_shiftRight (v w a : Nat) : field v 0 w >>> a = field v a (w - a) :=
  Nat.eq_of_testBit_eq fun i => by
    simp only [Nat.testBit_shiftRight, testBit_field, Nat.zero_add]
    by_cases hi : a + i < w
    · simp [hi, show i < w - a by omega]
    · simp [hi, show ¬i < w - a by omega]

namespace Machine

/-! ### The constraints of `MODE = SR` and of `MODE = LUT` -/

theorem srWidths_of_ok {par : Params} (hok : par.ok = true) (hsr : par.isLut = false) :
    par.DW ≤ par.RW ∧ par.RW ≤ par.W := by
  unfold Params.ok at hok
  unfold Params.isLut at hsr
  cases hm : par.mode with
  | lut l r => simp [hm] at hsr
  | sr h =>
    simp only [hm, Bool.and_eq_true, decide_eq_true_eq] at hok
    obtain ⟨-, ⟨-, hh⟩, hRW⟩ := hok
    have hH : par.H = h := by simp [Params.H, hm]
    exact ⟨by rw [Params.RW, hH]; exact Nat.le_mul_of_pos_left _ hh, hRW⟩

theorem lutWidths_of_ok {par : Params} (hok : par.ok = true) (hlut : par.isLut = true) :
    par.NLD + par.NRD ≤ par.MF ∧ par.MF + 1 ≤ par.W := by
  unfold Params.ok at hok
  unfold Params.isLut at hlut
  cases hm : par.mode with
  | sr h => simp [hm] at hlut
  | lut l r =>
    simp only [hm, Bool.and_eq_true, decide_eq_true_eq] at hok
    exact ⟨Nat.le_max_right .., hok.2.2⟩

/-! ### What a route operation does to its port -/

theorem exec_route {s : State} {p : Nat} (op : RouteOp) (hp : p < s.par.N) :
    exec (op.instr p) s = runOp (routePort op p) s :=
  exec_of_wellFormed (by cases op <;> rfl)
    (by cases op <;> simp [RouteOp.instr, Instr.wellFormed, hp])

theorem peeked_of_some {s : State} {p v : Nat} {f : Flit} (hv : s.tv.vcAt p = some v)
    (hf : s.tv.fAt p = some f) : peeked s p = some (v, f) := by
  simp [peeked, hv, hf]

theorem peeked_eq_some {s : State} {p v : Nat} {f : Flit} :
    peeked s p = some (v, f) ↔ s.tv.vcAt p = some v ∧ s.tv.fAt p = some f := by
  unfold peeked
  cases s.tv.vcAt p <;> cases s.tv.fAt p <;> simp

theorem peeked_eq_none {s : State} {p : Nat} :
    peeked s p = none ↔ s.tv.vcAt p = none ∨ s.tv.fAt p = none := by
  unfold peeked
  cases s.tv.vcAt p <;> cases s.tv.fAt p <;> simp

theorem routePort_of_no_flit {s : State} {p : Nat} (op : RouteOp) (h : peeked s p = none) :
    routePort op p s =
      .ok (s.withTv { s.tv with dm := s.tv.dm.set p 0, fr := s.tv.fr.set p none }) := by
  simp [routePort, h]

theorem routePort_of_unselected {s : State} {op : RouteOp} {p v : Nat} {f : Flit}
    (h : peeked s p = some (v, f)) (hop : keyOp (routeKey s.par f) ≠ op) :
    routePort op p s = .ok s := by
  simp [routePort, h, hop]

theorem routePort_of_selected {s : State} {op : RouteOp} {p v : Nat} {f : Flit} {x : Routed}
    (h : peeked s p = some (v, f)) (hop : keyOp (routeKey s.par f) = op)
    (hx : routed s op p v f = .ok x) : routePort op p s = .ok (s.writeRouted p v x) := by
  simp [routePort, h, hop, hx]

theorem routePort_of_stop {s : State} {op : RouteOp} {p v : Nat} {f : Flit} {e : Stop}
    (h : peeked s p = some (v, f)) (hop : keyOp (routeKey s.par f) = op)
    (hx : routed s op p v f = .error e) : routePort op p s = .error e := by
  simp [routePort, h, hop, hx]

/-- Everything a route operation that completes has done. -/
theorem routePort_ok {op : RouteOp} {p : Nat} {s t : State} (h : routePort op p s = .ok t) :
    (peeked s p = none ∧
        t = s.withTv { s.tv with dm := s.tv.dm.set p 0, fr := s.tv.fr.set p none }) ∨
      ∃ v f, peeked s p = some (v, f) ∧
        ((keyOp (routeKey s.par f) ≠ op ∧ t = s) ∨
          keyOp (routeKey s.par f) = op ∧
            ∃ x, routed s op p v f = .ok x ∧ t = s.writeRouted p v x) := by
  cases hp : peeked s p with
  | none =>
    rw [routePort_of_no_flit op hp] at h
    cases h
    exact .inl ⟨rfl, rfl⟩
  | some y =>
    obtain ⟨v, f⟩ := y
    refine .inr ⟨v, f, rfl, ?_⟩
    by_cases hop : keyOp (routeKey s.par f) = op
    · cases hx : routed s op p v f with
      | ok x =>
        rw [routePort_of_selected hp hop hx] at h
        cases h
        exact .inr ⟨hop, x, rfl, rfl⟩
      | error e => rw [routePort_of_stop hp hop hx] at h; cases h
    · rw [routePort_of_unselected hp hop] at h
      cases h
      exact .inl ⟨hop, rfl⟩

/-! ### Reading what a route operation wrote -/

/-- The result of a route operation is in the tick's values of its port, and of no other. -/
theorem writeRouted_tick {s : State} {p v : Nat} {x : Routed} (htv : TickOk s.par s.tv)
    (hp : p < s.par.N) :
    (s.writeRouted p v x).tv.dmAt p = x.dm ∧ (s.writeRouted p v x).tv.frAt p = some x.fr ∧
      ∀ p', p' ≠ p → (s.writeRouted p v x).tv.dmAt p' = s.tv.dmAt p' ∧
        (s.writeRouted p v x).tv.frAt p' = s.tv.frAt p' := by
  have hdm : p < s.tv.dm.length := by rw [htv.dmShape]; exact hp
  have hfr : p < s.tv.fr.length := by rw [htv.frShape]; exact hp
  refine ⟨?_, ?_, fun p' hne => ⟨?_, ?_⟩⟩
  · simp [State.writeRouted, TickVals.dmAt, entry_set, hdm]
  · simp [State.writeRouted, TickVals.frAt, entry_set, hfr]
  · simp [State.writeRouted, TickVals.dmAt, entry_set, Ne.symm hne]
  · simp [State.writeRouted, TickVals.frAt, entry_set, Ne.symm hne]

/-- A mask written to the queue's entry of `out_dest` is there, and no other entry changes. -/
theorem writeRouted_outDest {s : State} {p v : Nat} {x : Routed} {m : Mask}
    (hshape : Shaped s.r.outDest s.par.N s.par.V) (hp : p < s.par.N) (hv : v < s.par.V)
    (hx : x.dest = some m) :
    (s.writeRouted p v x).r.outDestAt p v = some m ∧
      ∀ p' v', (p', v') ≠ (p, v) →
        (s.writeRouted p v x).r.outDestAt p' v' = s.r.outDestAt p' v' := by
  have hgrid : (s.writeRouted p v x).r.outDest = setCell s.r.outDest p v (some m) := by
    simp [State.writeRouted, hx]
  simp only [Router.outDestAt, hgrid]
  exact ⟨cell_setCell_self hshape hp hv, fun p' v' => cell_setCell_of_pair_ne⟩

/-- The same for `is_local`. -/
theorem writeRouted_isLocal {s : State} {p v : Nat} {x : Routed} {m : Mask}
    (hshape : Shaped s.r.isLocal s.par.N s.par.V) (hp : p < s.par.N) (hv : v < s.par.V)
    (hx : x.loc = some m) :
    (s.writeRouted p v x).r.isLocalAt p v = some m ∧
      ∀ p' v', (p', v') ≠ (p, v) →
        (s.writeRouted p v x).r.isLocalAt p' v' = s.r.isLocalAt p' v' := by
  have hgrid : (s.writeRouted p v x).r.isLocal = setCell s.r.isLocal p v (some m) := by
    simp [State.writeRouted, hx]
  simp only [Router.isLocalAt, hgrid]
  exact ⟨cell_setCell_self hshape hp hv, fun p' v' => cell_setCell_of_pair_ne⟩

theorem writeRouted_sameOutside (s : State) (p v : Nat) (x : Routed) :
    SameOutside s (s.writeRouted p v x) :=
  ⟨rfl, rfl, rfl, rfl, rfl, rfl, rfl⟩

/-! ### ROUTE.SR -/

theorem keyOp_of_isContinuation {par : Params} {f : Flit} (h : isContinuation f = true) :
    keyOp (routeKey par f) = .hold := by
  have hh : isHeader f = false := by simpa [isContinuation] using h
  rw [keyOp_routeKey, if_pos hh]

theorem keyOp_of_sr {par : Params} {f : Flit} (hh : isHeader f = true) (hsr : par.isLut = false) :
    keyOp (routeKey par f) = .sr := by
  simp [keyOp_routeKey, hh, hsr]

theorem keyOp_of_ucast {par : Params} {f : Flit} (hh : isHeader f = true) (hlut : par.isLut = true)
    (hmf : f.payload.testBit par.MF = false) : keyOp (routeKey par f) = .ucast := by
  simp [keyOp_routeKey, hh, hlut, mflag, hmf]

theorem keyOp_of_mcast {par : Params} {f : Flit} (hh : isHeader f = true) (hlut : par.isLut = true)
    (hmf : f.payload.testBit par.MF = true) : keyOp (routeKey par f) = .mcast := by
  simp [keyOp_routeKey, hh, hlut, mflag, hmf]

/-- R111 and R112 bit by bit, from the payload. -/
theorem srMask_testBit {par : Params} (hDW : par.DW ≤ par.RW) (x : Payload) (k : Nat) :
    (srMask par (routeField par x)).testBit k =
      ((decide (k < par.NL) && x.testBit k) ||
        (decide (field x par.DW (par.RW - par.DW) ≠ 0) &&
          decide (field x par.NL par.RSELW < par.NR) &&
          decide (k = par.NL + field x par.NL par.RSELW))) := by
  have hwidth : par.NL + par.RSELW = par.DW := rfl
  have hlocal : descLocal par (descriptor par (routeField par x)) = field x 0 par.NL := by
    rw [descLocal, descriptor, routeField, field_field (by omega), field_field (by omega)]
  have hrsel : descRsel par (descriptor par (routeField par x)) = field x par.NL par.RSELW := by
    rw [descRsel, descriptor, routeField, field_field (by omega), field_field (by omega),
      Nat.zero_add, Nat.zero_add]
  have hrest : routeField par x >>> par.DW = field x par.DW (par.RW - par.DW) := field_shiftRight ..
  rw [srMask, hlocal, hrsel, hrest, Nat.testBit_or, testBit_field, Nat.zero_add]
  congr 1
  by_cases h1 : field x par.DW (par.RW - par.DW) = 0
  · simp [h1]
  · by_cases h2 : field x par.NL par.RSELW < par.NR
    · have hport : par.NL + field x par.NL par.RSELW < par.N := by rw [Params.N]; omega
      simp [h1, h2, testBit_onehot, hport, eq_comm]
    · simp [h1, h2]

theorem srForward_lt {par : Params} (hRW : par.RW ≤ par.W) (x : Payload) :
    srForward par x < 2 ^ par.W := by
  have h := concat_lt (lo := routeField par x >>> par.DW) (w := par.RW)
    (field_lt x par.RW (par.W - par.RW))
  rwa [show par.RW + (par.W - par.RW) = par.W by omega] at h

theorem srForward_testBit {par : Params} {x : Payload} {b : Nat} (hb : b < par.W) :
    (srForward par x).testBit b =
      if b < par.RW then decide (b + par.DW < par.RW) && x.testBit (b + par.DW) else x.testBit b := by
  rw [srForward, testBit_concat]
  by_cases h : b < par.RW
  · simp [h, routeField, Nat.testBit_shiftRight, testBit_field, Nat.add_comm]
  · simp [h, srOpaque, testBit_field, show b - par.RW < par.W - par.RW by omega,
      show par.RW + (b - par.RW) = b by omega]

/-- Settles O25: the operation of the header's key, its mask and its forwarded payload bit by bit. -/
theorem routeSrResolvesTheFirstDescriptor : Obligations.RouteSrResolvesTheFirstDescriptor := by
  intro s p v f hnf hok hsr htv hshape hp hv hf hh
  obtain ⟨hDW, hRW⟩ := srWidths_of_ok hok hsr
  have hvV : v < s.par.V := htv.vcBound p v hv
  have hrun := routePort_of_selected (peeked_of_some hv hf) (keyOp_of_sr hh hsr)
    (x := routedSr s.par f) rfl
  obtain ⟨hdm, hfr, hothers⟩ := writeRouted_tick (v := v) (x := routedSr s.par f) htv hp
  obtain ⟨hdest, hdests⟩ := writeRouted_outDest (x := routedSr s.par f) hshape hp hvV rfl
  refine ⟨_, (exec_route .sr hp).trans (runOp_of_ok hnf hrun), fun k => ?_,
    ⟨srForward s.par f.payload, hfr, srForward_lt hRW _, fun b hb => srForward_testBit hb⟩, ?_,
    hdests, hothers, rfl, rfl, rfl, writeRouted_sameOutside ..⟩
  · rw [hdm]
    exact srMask_testBit hDW f.payload k
  · rw [hdest, hdm]
    rfl

theorem routeField_srForward (par : Params) (x : Payload) :
    routeField par (srForward par x) = routeField par x >>> par.DW := by
  have hlt : routeField par x >>> par.DW < 2 ^ par.RW := by
    rw [Nat.shiftRight_eq_div_pow]
    exact (Nat.div_le_self ..).trans_lt (field_lt ..)
  rw [routeField, srForward, field_concat_low, Nat.mod_eq_of_lt hlt]

theorem srOpaque_srForward (par : Params) (x : Payload) :
    srOpaque par (srForward par x) = srOpaque par x := by
  rw [srOpaque, srForward, field_concat_high]
  exact Nat.mod_eq_of_lt (field_lt ..)

theorem routeField_iterate (par : Params) (x : Payload) (h : Nat) :
    routeField par ((srForward par)^[h] x) = routeField par x >>> (h * par.DW) := by
  induction h with
  | zero => simp
  | succ h ih =>
    rw [Function.iterate_succ_apply', routeField_srForward, ih, ← Nat.shiftRight_add, Nat.succ_mul]

theorem srOpaque_iterate (par : Params) (x : Payload) (h : Nat) :
    srOpaque par ((srForward par)^[h] x) = srOpaque par x := by
  induction h with
  | zero => rfl
  | succ h ih => rw [Function.iterate_succ_apply', srOpaque_srForward, ih]

/-- Settles O26, by induction on the hops: each takes one descriptor off and keeps the opaque bits. -/
theorem sourceRouteSurvivesItsHops : Obligations.SourceRouteSurvivesItsHops :=
  fun par x h _ _ => ⟨routeField_iterate par x h, srOpaque_iterate par x h,
    congrArg (srMask par) (routeField_iterate par x h)⟩

/-! ### ROUTE.LUT.UCAST and ROUTE.LUT.MCAST -/

/-- Settles O27: the operation of the header's key, with one table read. -/
theorem routeUcastReadsOneTable : Obligations.RouteUcastReadsOneTable := by
  intro s p v f hnf hlut htv hdest hloc hp hv hf hh hmf
  have hvV : v < s.par.V := htv.vcBound p v hv
  have hrun := routePort_of_selected (peeked_of_some hv hf) (keyOp_of_ucast hh hlut hmf)
    (x := routedUcast s.par s.r.cfg f) rfl
  obtain ⟨hdm, hfr, hothers⟩ := writeRouted_tick (v := v) (x := routedUcast s.par s.r.cfg f) htv hp
  obtain ⟨hd, hds⟩ := writeRouted_outDest (x := routedUcast s.par s.r.cfg f) hdest hp hvV rfl
  obtain ⟨hl, hls⟩ := writeRouted_isLocal (x := routedUcast s.par s.r.cfg f) hloc hp hvV rfl
  refine ⟨_, (exec_route .ucast hp).trans (runOp_of_ok hnf hrun), hdm, hfr, ?_, ?_,
    fun p' v' hne => ⟨hds p' v' hne, hls p' v' hne⟩, hothers, rfl, rfl, rfl,
    writeRouted_sameOutside ..⟩
  · rw [hd, hdm]
    rfl
  · rw [hl, hdm]
    rfl

/-- `lmask` of R116: the own group is requested, and a requested local destination's entry names `k`. -/
theorem mcastLocalMask_testBit {par : Params} {cfg : Cfg} {x : Payload} {k : Nat} :
    (mcastLocalMask par cfg x).testBit k = true ↔
      cfg.myId < par.NRD ∧ x.testBit (par.NLD + cfg.myId) = true ∧
        ∃ j < par.NLD, x.testBit j = true ∧ (cfg.lutL.getD j 0).testBit k = true := by
  have hown : (gvec par x).testBit cfg.myId = true ↔
      cfg.myId < par.NRD ∧ x.testBit (par.NLD + cfg.myId) = true := by
    simp [gvec, testBit_field]
  have hleg : ∀ j < par.NLD, (lvec par x).testBit j = x.testBit j := fun j hj => by
    simp [lvec, testBit_field, hj]
  unfold mcastLocalMask
  by_cases hreq : (gvec par x).testBit cfg.myId = true
  · obtain ⟨hid, hbit⟩ := hown.1 hreq
    simp only [hreq, if_true, hid, hbit, true_and, testBit_orOver, anyBelow_iff, Bool.and_eq_true]
    refine exists_congr fun j => and_congr_right fun hj => ?_
    rw [hleg j hj]
    rfl
  · rw [if_neg hreq, Nat.zero_testBit]
    simp only [Bool.false_eq_true, false_iff]
    exact fun ⟨hid, hbit, _⟩ => hreq (hown.2 ⟨hid, hbit⟩)

/-- `rmask` of R116: the entry of another requested group names `k`. -/
theorem mcastRemoteMask_testBit {par : Params} {cfg : Cfg} {x : Payload} {k : Nat} :
    (mcastRemoteMask par cfg x).testBit k = true ↔
      ∃ g < par.NRD, g ≠ cfg.myId ∧ x.testBit (par.NLD + g) = true ∧
        (cfg.lutR.getD g 0).testBit k = true := by
  simp only [mcastRemoteMask, testBit_orOver, anyBelow_iff, Bool.and_eq_true, bne_iff_ne]
  refine exists_congr fun g => and_congr_right fun hg => ?_
  rw [show (gvec par x).testBit g = x.testBit (par.NLD + g) by simp [gvec, testBit_field, hg]]
  exact ⟨fun ⟨⟨h1, h2⟩, h3⟩ => ⟨h2, h1, h3⟩, fun ⟨h2, h1, h3⟩ => ⟨⟨h1, h2⟩, h3⟩⟩

/-- Settles O28: the operation of the header's key, with the two masks bit by bit. -/
theorem routeMcastUnitesTableEntries : Obligations.RouteMcastUnitesTableEntries := by
  intro s p v f hnf hlut htv hdest hloc hp hv hf hh hmf
  have hvV : v < s.par.V := htv.vcBound p v hv
  have hrun := routePort_of_selected (peeked_of_some hv hf) (keyOp_of_mcast hh hlut hmf)
    (x := routedMcast s.par s.r.cfg f) rfl
  obtain ⟨hdm, hfr, hothers⟩ := writeRouted_tick (v := v) (x := routedMcast s.par s.r.cfg f) htv hp
  obtain ⟨hd, hds⟩ := writeRouted_outDest (x := routedMcast s.par s.r.cfg f) hdest hp hvV rfl
  obtain ⟨hl, hls⟩ := writeRouted_isLocal (x := routedMcast s.par s.r.cfg f) hloc hp hvV rfl
  refine ⟨_, mcastLocalMask s.par s.r.cfg f.payload,
    (exec_route .mcast hp).trans (runOp_of_ok hnf hrun), hl, fun k => mcastLocalMask_testBit,
    fun k => ?_, hfr, ?_, fun p' v' hne => ⟨hds p' v' hne, hls p' v' hne⟩, hothers, rfl, rfl, rfl,
    writeRouted_sameOutside ..⟩
  · rw [hdm, routedMcast, Nat.testBit_or, Bool.or_eq_true, mcastRemoteMask_testBit]
  · rw [hd, hdm]
    rfl

/-! ### ROUTE.HOLD, an operation not selected, a port without a flit -/

theorem routed_hold_of_some {s : State} {p v : Nat} {f : Flit} {m : Mask}
    (h : s.r.outDestAt p v = some m) : routed s .hold p v f = .ok (routedHold m f) := by
  simp [routed, h]

theorem routed_hold_of_none {s : State} {p v : Nat} {f : Flit} (h : s.r.outDestAt p v = none) :
    routed s .hold p v f = .error (.raise .outDestUndefined (pairIndex s.par p v)) := by
  simp [routed, h]

/-- Settles O29: ROUTE.HOLD is the operation of a continuation flit, and a stored mask is what it asks
for. -/
theorem routeHoldReusesTheStoredMask : Obligations.RouteHoldReusesTheStoredMask := by
  intro s p v f hnf htv hp hv hf hc
  have hpeek := peeked_of_some hv hf
  have hkey : keyOp (routeKey s.par f) = .hold := keyOp_of_isContinuation hc
  refine ⟨fun m hm => ?_, fun hnone => ?_⟩
  · have hrun := routePort_of_selected hpeek hkey (routed_hold_of_some hm)
    obtain ⟨hdm, hfr, hothers⟩ := writeRouted_tick (v := v) (x := routedHold m f) htv hp
    exact ⟨_, (exec_route .hold hp).trans (runOp_of_ok hnf hrun), hdm, hfr, hothers, rfl,
      writeRouted_sameOutside .., rfl, rfl⟩
  · rw [show Instr.routeHold p = RouteOp.hold.instr p from rfl, exec_route .hold hp]
    exact runOp_raised hnf (routePort_of_stop hpeek hkey (routed_hold_of_none hnone))

/-- Settles O30. -/
theorem unselectedRouteHasNoEffect : Obligations.UnselectedRouteHasNoEffect :=
  fun _ _ _ _ op hnf hp hv hf hop =>
    (exec_route op hp).trans (runOp_of_ok hnf (routePort_of_unselected (peeked_of_some hv hf) hop))

/-- Settles O57: the entries of the port alone are written, whichever of the two is missing. -/
theorem routeWithoutFlitClearsTheMask : Obligations.RouteWithoutFlitClearsTheMask := by
  intro s p op hnf hp hnone
  refine ⟨_, (exec_route op hp).trans
    (runOp_of_ok hnf (routePort_of_no_flit op (peeked_eq_none.2 hnone))), ?_, ?_,
    fun p' hne => ⟨?_, ?_⟩, rfl, onlyTickValues_withTv ..⟩
  · by_cases hl : p < s.tv.dm.length
    · simp [TickVals.dmAt, entry_set, hl]
    · simp [TickVals.dmAt, entry, hl]
  · by_cases hl : p < s.tv.fr.length
    · simp [TickVals.frAt, entry_set, hl]
    · simp [TickVals.frAt, entry, hl]
  · simp [TickVals.dmAt, entry_set, Ne.symm hne]
  · simp [TickVals.frAt, entry_set, Ne.symm hne]

end Machine

end Sys2Proof
end

section
/-! The grant protocol (42_arbitration.md R130 to R139), phase by phase. -/

namespace Sys2Proof

/-- A set bit of a mask of `n` bits is one of them. -/
theorem lt_of_testBit {m n k : Nat} (hm : m < 2 ^ n) (hk : m.testBit k = true) : k < n := by
  by_contra hle
  rw [Nat.testBit_lt_two_pow (hm.trans_le (Nat.pow_le_pow_right (by decide) (not_lt.1 hle)))] at hk
  cases hk

namespace Machine

/-! ### REQ.BUILD, MCAST.WITHDRAW, OUT.ARB -/

/-- Settles O31: every leg's request is the formula R130. -/
theorem reqBuildGatesEveryLeg : Obligations.ReqBuildGatesEveryLeg := by
  intro s hnf
  obtain ⟨t, ht⟩ : ∃ t, reqBuild s = .ok t := ⟨_, rfl⟩
  obtain ⟨hreq, htv, honly⟩ := reqBuild_ok ht
  exact ⟨t, runOp_of_ok hnf ht, fun i hi k hk => by rw [hreq i hi k hk, request_iff], htv, honly⟩

/-- Settles O32: every destination is requested, or one is not and the row goes. -/
theorem withdrawIsAllOrNothing : Obligations.WithdrawIsAllOrNothing := by
  intro s hnf hdm
  obtain ⟨t, ht⟩ : ∃ t, mcastWithdraw s = .ok t := ⟨_, rfl⟩
  obtain ⟨hok, hreq2, htv, honly⟩ := mcastWithdraw_ok ht
  refine ⟨t, runOp_of_ok hnf ht, fun i hi => ⟨fun hall => ?_, fun hsome => ?_⟩, htv, honly⟩
  · have hi' : allRequested s i = true := allRequested_iff.2 fun k _ => hall k
    exact ⟨(hok i hi).trans hi', fun k hk => by rw [hreq2 i hi k hk, hi', Bool.and_true]⟩
  · obtain ⟨k, hdest, hnot⟩ := hsome
    have hi' : allRequested s i = false := Bool.eq_false_iff.2 fun hc => by
      rw [allRequested_iff.1 hc k (lt_of_testBit (hdm i hi) hdest) hdest] at hnot
      cases hnot
    exact ⟨(hok i hi).trans hi', fun k hk => by rw [hreq2 i hi k hk, hi', Bool.and_false]⟩

theorem column_testBit_iff {s : State} {k i : Nat} :
    (column s k).testBit i = true ↔ i < s.par.N ∧ s.tv.req2At i k = true := by
  rw [column_testBit, Bool.and_eq_true, decide_eq_true_eq]

/-- Settles O33: the pick from the output's pointer over the inputs that request it. -/
theorem outArbPicksOneInputPerOutput : Obligations.OutArbPicksOneInputPerOutput := by
  intro s hnf hptr
  obtain ⟨t, ht⟩ : ∃ t, outArb s = .ok t := ⟨_, rfl⟩
  obtain ⟨hpick, hr, -, htv, henv, hout⟩ := outArb_ok ht
  refine ⟨t, runOp_of_ok hnf ht, fun k hk => ?_, hr, htv, henv, hout⟩
  obtain ⟨hwin, hmove⟩ := hpick k hk
  have hnone := pick_eq_none_iff_zero (ptr := s.r.arbOutAt k) (maskOf_lt _ _ : column s k < _)
    (hptr k hk)
  rw [hwin, hmove]
  refine ⟨fun hno => ?_, fun ⟨i, hi, hreq⟩ => ?_⟩
  · have hzero : column s k = 0 := Nat.eq_of_testBit_eq fun i => by
      rw [Nat.zero_testBit, Bool.eq_false_iff]
      intro hbit
      obtain ⟨hi, hreq⟩ := column_testBit_iff.1 hbit
      rw [hno i hi] at hreq
      cases hreq
    exact ⟨pickMask_of_none (hnone.2 hzero), pickPtr_of_none (hnone.2 hzero)⟩
  · have hcol : column s k ≠ 0 := fun hzero => by
      have hbit := column_testBit_iff.2 ⟨hi, hreq⟩
      rw [hzero, Nat.zero_testBit] at hbit
      cases hbit
    obtain ⟨w, hw⟩ := Option.ne_none_iff_exists'.1 (mt hnone.1 hcol)
    obtain ⟨hwN, hwreq⟩ := column_testBit_iff.1 (pick_testBit hw)
    exact ⟨w, hwN, hwreq, pickMask_of_some hw, pickPtr_of_some hw, fun j hj hjreq =>
      pick_nearest hw (hptr k hk) hj (column_testBit_iff.2 ⟨hj, hjreq⟩)⟩

/-! ### MCAST.FORCE -/

/-- The loop's body for an input that takes its outputs. -/
theorem forceInput_taken {s : State} {x : Forced} {i : Nat} (hi : isForcer s i = true)
    (hv : forceValid s x i = true) {k : Nat} (hk : k < s.par.N) :
    entry none (forceInput s x i).sel k =
        (if (s.tv.dmAt i).testBit k then some i else entry none x.sel k) ∧
      entry false (forceInput s x i).claimed k =
        ((s.tv.dmAt i).testBit k || entry false x.claimed k) := by
  simp [forceInput, hi, hv, hk]

/-- An output once claimed stays with the input that claimed it: a later one asks for unclaimed outputs. -/
theorem forceLoop_keeps {s : State} {k n m : Nat} (hk : k < s.par.N) (hnm : n ≤ m)
    (h : entry false (forceLoop s n).claimed k = true) :
    entry false (forceLoop s m).claimed k = true ∧
      entry none (forceLoop s m).sel k = entry none (forceLoop s n).sel k := by
  induction m, hnm using Nat.le_induction with
  | base => exact ⟨h, rfl⟩
  | succ m hnm ih =>
    obtain ⟨hclaimed, hsel⟩ := ih
    rw [forceLoop]
    by_cases hc : isForcer s m = true ∧ forceValid s (forceLoop s m) m = true
    · obtain ⟨hm, hv⟩ := hc
      have hdest : (s.tv.dmAt m).testBit k = false := Bool.eq_false_iff.2 fun hbit => by
        rw [(forceValid_iff.1 hv k hk hbit).2] at hclaimed
        cases hclaimed
      obtain ⟨hs, hcl⟩ := forceInput_taken hm hv hk
      rw [hs, hcl, hdest]
      exact ⟨by simpa using hclaimed, by simpa using hsel⟩
    · have hstay : forceInput s (forceLoop s m) m = forceLoop s m := by
        rw [forceInput, if_neg (by simpa using hc)]
      rw [hstay]
      exact ⟨hclaimed, hsel⟩

/-- A forcer with all its legs requested takes all its outputs, or a lower forcer holds one of them. -/
theorem forcer_takes_or_is_turned_away {s : State} {i : Nat} (hi : i < s.par.N)
    (hforcer : isForcer s i = true)
    (hlegs : ∀ k, (s.tv.dmAt i).testBit k = true → s.tv.req2At i k = true) :
    (∀ k < s.par.N, (s.tv.dmAt i).testBit k = true →
      entry none (forceLoop s s.par.N).sel k = some i) ∨
    ∃ j < i, isForcer s j = true ∧ ∃ k < s.par.N, (s.tv.dmAt i).testBit k = true ∧
      (s.tv.dmAt j).testBit k = true ∧ entry false (forceLoop s s.par.N).claimed k = true ∧
      entry none (forceLoop s s.par.N).sel k = some j := by
  by_cases hv : forceValid s (forceLoop s i) i = true
  · refine .inl fun k hk hdest => ?_
    obtain ⟨hsel, hclaimed⟩ := forceInput_taken hforcer hv hk
    rw [hdest, Bool.true_or] at hclaimed
    rw [hdest, if_pos rfl] at hsel
    exact (forceLoop_keeps hk hi hclaimed).2.trans hsel
  · right
    rw [forceValid_iff] at hv
    push Not at hv
    obtain ⟨k, hk, hdest, hclaimed⟩ := hv
    have hclaimed : entry false (forceLoop s i).claimed k = true := by
      simpa using hclaimed (hlegs k hdest)
    obtain ⟨j, hj, hjf, hjdest, htaken⟩ := (forceLoop_spec s i).2 k hk hclaimed
    obtain ⟨-, -, hsel⟩ := htaken k hk hjdest
    obtain ⟨hkeep, hsame⟩ := forceLoop_keeps hk hi.le hclaimed
    exact ⟨j, hj, hjf, k, hk, hdest, hjdest, hkeep, hsame.trans hsel⟩

/-- Settles O34: `forceLoop_spec` for the outputs, `forcer_takes_or_is_turned_away` for the forcers. -/
theorem forcersTakeAllTheirOutputs : Obligations.ForcersTakeAllTheirOutputs := by
  intro s hnf hdm
  obtain ⟨t, ht⟩ : ∃ t, mcastForce s = .ok t := ⟨_, rfl⟩
  obtain ⟨hsel, hclaimed, htv, honly⟩ := mcastForce_ok ht
  have hselAt : ∀ k, t.tv.selAt k = entry none (forceLoop s s.par.N).sel k := fun k => by
    rw [TickVals.selAt, hsel]
  obtain ⟨hfree, htaken⟩ := forceLoop_spec s s.par.N
  refine ⟨t, runOp_of_ok hnf ht, fun k hk h => ?_, fun k hk h => ?_, fun i hi hforcer hlegs => ?_,
    fun i hi hforcer hlegs hapart k hdest => ?_, htv, honly⟩
  · rw [hclaimed] at h
    rw [hselAt, hfree k hk h]
  · rw [hclaimed] at h ⊢
    obtain ⟨i, hi, hforcer, hdest, hall⟩ := htaken k hk h
    refine ⟨i, hi, hdest, hforcer, fun k' hdest' => ?_⟩
    obtain ⟨hreq, hcl, hs⟩ := hall k' (lt_of_testBit (hdm i hi) hdest') hdest'
    exact ⟨hreq, (hselAt k').trans hs, hcl⟩
  · rcases forcer_takes_or_is_turned_away hi hforcer hlegs with
      htakes | ⟨j, hj, hjf, k, -, hdest, hjdest, hcl, hs⟩
    · exact .inl fun k hdest =>
        (hselAt k).trans (htakes k (lt_of_testBit (hdm i hi) hdest) hdest)
    · exact .inr ⟨j, hj, hjf, k, hdest, hjdest, by rw [hclaimed]; exact hcl, (hselAt k).trans hs⟩
  · rcases forcer_takes_or_is_turned_away hi hforcer hlegs with
      htakes | ⟨j, hj, hjf, k', -, hdest', hjdest, -⟩
    · exact (hselAt k).trans (htakes k (lt_of_testBit (hdm i hi) hdest) hdest)
    · exact absurd ⟨hdest', hjdest⟩ (hapart j hj hjf k')

/-! ### GRANT.FINAL -/

/-- Settles O35: an output is granted to the input selected there, and with the input's whole mask. -/
theorem grantsAreAllOrNothing : Obligations.GrantsAreAllOrNothing := by
  intro s hnf hdm
  obtain ⟨t, ht⟩ : ∃ t, grantFinal s = .ok t := ⟨_, rfl⟩
  obtain ⟨hgrant, htv, honly⟩ := grantFinal_ok ht
  refine ⟨t, runOp_of_ok hnf ht, fun i hi => ⟨?_, fun k hk => ?_⟩,
    fun i hi j hj k hk hgi hgj => ?_, htv, honly⟩
  · rw [(hgrant i hi).1, grantedWhole_iff]
    refine and_congr_right fun _ => and_congr_right fun _ => ⟨fun hall k hdest => ?_, fun hall k _ => hall k⟩
    exact hall k (lt_of_testBit (hdm i hi) hdest) hdest
  · rw [(hgrant i hi).2 k hk, (hgrant i hi).1, Bool.and_eq_true]
  · obtain ⟨-, hsi⟩ := selAt_of_grantAt ht hi hk hgi
    obtain ⟨-, hsj⟩ := selAt_of_grantAt ht hj hk hgj
    exact Option.some.inj (hsi.symm.trans hsj)

/-! ### GRANT.COMMIT -/

theorem commitStop_of_not_full {s : State} {i : Nat} (h : s.tv.fullAt i = false) :
    commitStop s i = none := by
  simp [commitStop, h]

theorem decStop_eq_none {s : State} {k v : Nat} :
    decStop s k v = none ↔ moved s k v ≤ s.r.caAt k v := by
  unfold decStop
  cases h : counterSub (s.r.caAt k v) (moved s k v) with
  | none => simpa using counterSub_eq_none.1 h
  | some c => simpa using (counterSub_eq_some.1 h).1

theorem exists_grantCommit_ok {s : State} (hc : ∀ i < s.par.N, commitStop s i = none)
    (hd : ∀ k < s.par.N, ∀ v < s.par.V, moved s k v ≤ s.r.caAt k v) :
    ∃ t, grantCommit s = .ok t :=
  ⟨_, unlessStop_ok.2 ⟨Option.or_eq_none_iff.2 ⟨firstOf_eq_none.2 hc,
    firstOf2_eq_none.2 fun k hk v hv => decStop_eq_none.2 (hd k hk v hv)⟩, rfl⟩⟩

/-- The first granted input that stops is reported, before any counter at 0. -/
theorem grantCommit_error {s : State} {i : Nat} {e : Stop} (hi : i < s.par.N)
    (h : commitStop s i = some e) (hlow : ∀ j < i, commitStop s j = none) :
    grantCommit s = .error e :=
  unlessStop_error.2 (by rw [firstOf_eq_some hi h hlow, Option.some_or])

theorem commitStop_storage {s : State} {i v : Nat} {f : Flit} (hfull : s.tv.fullAt i = true)
    (hv : s.tv.vcAt i = some v) (hf : s.tv.fAt i = some f) (hrw : s.par.rwForbidden = true)
    (hpushed : s.tv.pushedAt i v = true) :
    commitStop s i = some (.raise .storageRwConflict (pairIndex s.par i v)) := by
  simp [commitStop, hfull, hv, hf, hrw, hpushed]

theorem commitStop_owed {s : State} {i v : Nat} {f : Flit} (hfull : s.tv.fullAt i = true)
    (hv : s.tv.vcAt i = some v) (hf : s.tv.fAt i = some f) (hq : s.r.qAt i v ≠ [])
    (hrw : s.par.rwForbidden = false ∨ s.tv.pushedAt i v = false)
    (hover : s.par.B < s.r.coAt i v + 1) :
    commitStop s i = some (.raise .creditOwedOverflow (pairIndex s.par i v)) := by
  have hrw' : (s.par.rwForbidden && s.tv.pushedAt i v) = false := by
    rcases hrw with h | h <;> simp [h]
  have hfront : (qFront (s.r.qAt i v)).isNone = false := by simpa [qFront] using hq
  simp [commitStop, hfull, hv, hf, hrw', hfront, counterAdd_eq_none.2 hover]

/-- Settles O37: the inputs below can be committed, and the named one stops by F5 before F4. -/
theorem grantCommitFaults : Obligations.GrantCommitFaults := by
  intro s i v f hnf hi hfull hv hf hq hlow
  have hbelow : ∀ j < i, commitStop s j = none := fun j hj => by
    cases hj' : s.tv.fullAt j with
    | false => exact commitStop_of_not_full hj'
    | true =>
      obtain ⟨v', f', hv', hf', hq', hco, hrw⟩ := hlow j hj hj'
      exact (commitStop_eq_none hj').2 ⟨v', f', hv', hf', hrw, hq', hco⟩
  exact ⟨fun hrw hpushed =>
      runOp_raised hnf (grantCommit_error hi (commitStop_storage hfull hv hf hrw hpushed) hbelow),
    fun hrw hover =>
      runOp_raised hnf (grantCommit_error hi (commitStop_owed hfull hv hf hq hrw hover) hbelow)⟩

theorem commitsTo_eq_false {s : State} {k v : Nat}
    (h : ∀ i < s.par.N, s.tv.fullAt i = true → s.tv.grantAt i k = true → s.tv.vcAt i ≠ some v) :
    ∀ i < s.par.N, commitsTo s i k v = false := fun i hi =>
  Bool.eq_false_iff.2 fun hc => by
    obtain ⟨hfull, hv, hg⟩ := commitsTo_iff.1 hc
    exact h i hi hfull hg hv

/-- Where every granted leg has a credit and no output is granted twice, no counter is charged more
than it holds. -/
theorem moved_le {s : State} {k v : Nat}
    (huniq : ∀ a < s.par.N, ∀ b < s.par.N, commitsTo s a k v = true → commitsTo s b k v = true → a = b)
    (hcredit : ∀ i < s.par.N, commitsTo s i k v = true → 1 ≤ s.r.caAt k v) :
    moved s k v ≤ s.r.caAt k v := by
  by_cases h : ∃ i < s.par.N, commitsTo s i k v = true
  · obtain ⟨i, hi, hc⟩ := h
    rw [(moved_eq_one huniq hi hc).1]
    exact hcredit i hi hc
  · push Not at h
    rw [(moved_eq_zero fun i hi => Bool.eq_false_iff.2 (h i hi)).1]
    exact Nat.zero_le _

theorem GrantsReady.commitsTo_unique {s : State} (h : GrantsReady s) {k v : Nat} (hk : k < s.par.N) :
    ∀ a < s.par.N, ∀ b < s.par.N, commitsTo s a k v = true → commitsTo s b k v = true → a = b := by
  intro a ha b hb hca hcb
  obtain ⟨hfa, -, hga⟩ := commitsTo_iff.1 hca
  obtain ⟨hfb, -, hgb⟩ := commitsTo_iff.1 hcb
  exact h.once a ha b hb k hk hfa hfb hga hgb

theorem GrantsReady.exists_grantCommit_ok {s : State} (h : GrantsReady s) :
    ∃ t, grantCommit s = .ok t := by
  refine Machine.exists_grantCommit_ok (fun i hi => ?_) fun k hk v hv =>
    moved_le (h.commitsTo_unique hk) fun i hi hc => ?_
  · cases hfull : s.tv.fullAt i with
    | false => exact commitStop_of_not_full hfull
    | true =>
      obtain ⟨v, f, hv, hf, -, hq, hco, hrw, -⟩ := h.ready i hi hfull
      exact (commitStop_eq_none hfull).2 ⟨v, f, hv, hf, hrw, hq, hco⟩
  · obtain ⟨hfull, hvc, hg⟩ := commitsTo_iff.1 hc
    obtain ⟨v', f, hv', -, -, -, -, -, hca⟩ := h.ready i hi hfull
    obtain rfl : v = v' := Option.some.inj (hvc.symm.trans hv')
    exact hca k hk hg

/-- Settles O36: the commit completes, a queue is popped where `commits` says, and an output is charged
for its one granted input. -/
theorem grantCommitMovesGrantedFlits : Obligations.GrantCommitMovesGrantedFlits := by
  intro s hnf hready
  obtain ⟨t, ht⟩ := hready.exists_grantCommit_ok
  obtain ⟨-, hout, hin, hr, -, -, -, -, htv, henv, hsame⟩ := grantCommit_ok ht
  refine ⟨t, runOp_of_ok hnf ht, fun i hi v hv => ⟨fun hfull hvc => ?_, fun hnot => ?_⟩,
    fun k hk v hv => ⟨fun i hi f hfull hg hvc hf => ?_, fun hnone => ?_⟩, hr, htv, henv, hsame⟩
  · exact (hin i hi v hv).1 (commits_iff.2 ⟨hfull, hvc⟩)
  · refine (hin i hi v hv).2 (Bool.eq_false_iff.2 fun hc => ?_)
    obtain ⟨hfull, hvc⟩ := commits_iff.1 hc
    rcases hnot with h | h
    · rw [hfull] at h; cases h
    · exact h hvc
  · obtain ⟨hle, hca, higp⟩ := hout k hk v hv
    have hc : commitsTo s i k v = true := commitsTo_iff.2 ⟨hfull, hvc, hg⟩
    rw [(moved_eq_one (hready.commitsTo_unique hk) hi hc).1] at hle hca
    rw [higp, igpAfter_of_commitsTo (hready.commitsTo_unique hk) hi hc hf]
    exact ⟨by omega, rfl⟩
  · obtain ⟨-, hca, higp⟩ := hout k hk v hv
    have hno := commitsTo_eq_false hnone
    rw [(moved_eq_zero hno).1] at hca
    exact ⟨hca, higp.trans (igpAfter_of_none hno)⟩

end Machine

end Sys2Proof
end

section
/-! The crossbar, the rewriting of multicast headers, and the egress (44_crossbar_egress.md R166 to
R170). -/

namespace Sys2Proof.Machine

/-! ### XBAR -/

/-- The copy of multicast header `g` for output `k`, where `is_local` holds `loc`. -/
def rewritten (s : State) (loc : Mask) (k : Nat) (g : Flit) : Flit :=
  { g with payload := rewritePayload s.par s.r.cfg loc k g.payload }

theorem copyFor_of_other {s : State} {i k : Nat} {g : Flit} (h : isMcastHeader s.par g = false) :
    copyFor s i k g = .ok g := by
  simp [copyFor, h]

theorem copyFor_of_mcast {s : State} {i k v : Nat} {g : Flit} {loc : Mask}
    (h : isMcastHeader s.par g = true) (hv : s.tv.vcAt i = some v)
    (hl : s.r.isLocalAt i v = some loc) : copyFor s i k g = .ok (rewritten s loc k g) := by
  simp [copyFor, h, hv, hl, rewritten]

/-- Everything a copy can be. -/
theorem copyFor_ok {s : State} {i k : Nat} {g g' : Flit} (h : copyFor s i k g = .ok g') :
    (isMcastHeader s.par g = false ∧ g' = g) ∨
      isMcastHeader s.par g = true ∧ ∃ loc, g' = rewritten s loc k g := by
  unfold copyFor at h
  split at h
  · split at h
    · exact .inr ⟨‹_›, _, (Except.ok.inj h).symm⟩
    · cases h
  · exact .inl ⟨by simpa using ‹¬isMcastHeader s.par g = true›, (Except.ok.inj h).symm⟩

theorem xbarCopy_of_granted {s : State} {i k : Nat} {g : Flit} (hi : grantedInput s k = some i)
    (hg : s.tv.frAt i = some g) : xbarCopy s k = some (copyFor s i k g) := by
  simp [xbarCopy, hi, hg]

theorem xbarCopy_of_none {s : State} {k : Nat} (h : grantedInput s k = none) : xbarCopy s k = none := by
  simp [xbarCopy, h]

/-- An output that is granted stages the copy, where it has room for it. -/
theorem xbarStop_of_granted {s : State} {i k : Nat} {g g' : Flit} (hi : grantedInput s k = some i)
    (hg : s.tv.frAt i = some g) (hcopy : copyFor s i k g = .ok g')
    (hroom : (s.r.eqAt k).length < s.par.E) : xbarStop s k = none := by
  simp [xbarStop, xbarCopy_of_granted hi hg, hcopy, stagingFree, hroom]

theorem xbarFlit_of_granted {s : State} {i k : Nat} {g g' : Flit} (hi : grantedInput s k = some i)
    (hg : s.tv.frAt i = some g) (hcopy : copyFor s i k g = .ok g') : xbarFlit s k = some g' := by
  simp [xbarFlit, xbarCopy_of_granted hi hg, hcopy]

theorem xbarStop_of_none {s : State} {k : Nat} (h : grantedInput s k = none) : xbarStop s k = none := by
  simp [xbarStop, xbarCopy_of_none h]

theorem xbarFlit_of_none {s : State} {k : Nat} (h : grantedInput s k = none) : xbarFlit s k = none := by
  simp [xbarFlit, xbarCopy_of_none h]

theorem exists_xbar_ok {s : State} (h : ∀ k < s.par.N, xbarStop s k = none) : ∃ t, xbar s = .ok t :=
  ⟨_, unlessStop_ok.2 ⟨firstOf_eq_none.2 h, rfl⟩⟩

/-- Settles O38: the granted input of an output is its only one, and its copy is made as it is or
rewritten. -/
theorem xbarStagesOneCopyPerGrant : Obligations.XbarStagesOneCopyPerGrant := by
  intro s hnf hready huniq
  have hinput : ∀ k < s.par.N, ∀ i < s.par.N, s.tv.grantAt i k = true → grantedInput s k = some i :=
    fun k hk i hi hg => grantedInput_eq_some (fun a ha b hb => huniq a ha b hb k hk) hi hg
  have hstop : ∀ k < s.par.N, xbarStop s k = none := fun k hk => by
    by_cases hgrant : ∃ i < s.par.N, s.tv.grantAt i k = true
    · obtain ⟨i, hi, hg⟩ := hgrant
      obtain ⟨hroom, g, hfr, hloc⟩ := hready i hi k hk hg
      cases hm : isMcastHeader s.par g with
      | false => exact xbarStop_of_granted (hinput k hk i hi hg) hfr (copyFor_of_other hm) hroom
      | true =>
        obtain ⟨v, loc, hv, hl⟩ := hloc hm
        exact xbarStop_of_granted (hinput k hk i hi hg) hfr (copyFor_of_mcast hm hv hl) hroom
    · push Not at hgrant
      exact xbarStop_of_none (grantedInput_eq_none.2 fun i hi => Bool.eq_false_iff.2 (hgrant i hi))
  obtain ⟨t, ht⟩ := exists_xbar_ok hstop
  obtain ⟨-, heq, hr, -, htv, henv, hout⟩ := xbar_ok ht
  refine ⟨t, runOp_of_ok hnf ht, fun k hk => ⟨fun i hi g hg hfr => ⟨fun hm => ?_, fun hm v loc hv hl => ?_⟩,
    fun hnone => ?_⟩, hr, htv, henv, hout⟩
  · rw [heq k hk, xbarFlit_of_granted (hinput k hk i hi hg) hfr (copyFor_of_other hm)]
    rfl
  · rw [heq k hk, xbarFlit_of_granted (hinput k hk i hi hg) hfr (copyFor_of_mcast hm hv hl)]
    rfl
  · rw [heq k hk, xbarFlit_of_none (grantedInput_eq_none.2 hnone)]
    simp

/-! ### HDR.REWRITE.LUT -/

theorem withVectors_testBit {par : Params} {x : Payload} {g l i : Nat} (hx : x < 2 ^ par.W) :
    (withVectors par x g l).testBit i =
      if i < par.NLD then l.testBit i
      else if i < par.NLD + par.NRD then g.testBit (i - par.NLD)
      else x.testBit i := by
  rw [withVectors, testBit_concat, testBit_concat, testBit_field]
  by_cases h1 : i < par.NLD
  · simp [h1]
  · by_cases h2 : i < par.NLD + par.NRD
    · simp [h1, h2, show i - par.NLD < par.NRD by omega]
    · simp only [h1, h2, if_false, show ¬i - par.NLD < par.NRD by omega,
        show par.NLD + par.NRD + (i - par.NLD - par.NRD) = i by omega]
      by_cases h3 : i < par.W
      · simp [show i - par.NLD - par.NRD < par.W - (par.NLD + par.NRD) by omega]
      · simp [Nat.testBit_lt_two_pow (hx.trans_le (Nat.pow_le_pow_right (by decide) (not_lt.1 h3)))]

theorem withVectors_lt {par : Params} (hW : par.NLD + par.NRD ≤ par.W) (x : Payload) (g l : Nat) :
    withVectors par x g l < 2 ^ par.W := by
  have h := concat_lt (lo := l) (w := par.NLD) (concat_lt (lo := g) (w := par.NRD)
    (field_lt x (par.NLD + par.NRD) (par.W - (par.NLD + par.NRD))))
  rwa [show par.NLD + (par.NRD + (par.W - (par.NLD + par.NRD))) = par.W by omega] at h

theorem rewritePayload_lt {par : Params} (hW : par.NLD + par.NRD ≤ par.W) (cfg : Cfg) (loc : Mask)
    (k : Nat) (x : Payload) : rewritePayload par cfg loc k x < 2 ^ par.W := by
  unfold rewritePayload
  split <;> exact withVectors_lt hW ..

/-- The local vector of the copy: on a local leg what goes through the output, on a remote one all. -/
theorem rewritePayload_local {par : Params} {cfg : Cfg} {loc : Mask} {k j : Nat} {x : Payload}
    (hx : x < 2 ^ par.W) (hj : j < par.NLD) :
    (rewritePayload par cfg loc k x).testBit j =
      (x.testBit j && (!loc.testBit k || (cfg.lutL.getD j 0).testBit k)) := by
  have hlvec : (lvec par x).testBit j = x.testBit j := by simp [lvec, testBit_field, hj]
  have hreach : (localReach par cfg k).testBit j = (cfg.lutL.getD j 0).testBit k := by
    rw [localReach, testBit_maskOf, decide_eq_true hj, Bool.true_and]
    rfl
  unfold rewritePayload
  cases hl : loc.testBit k with
  | true => simp [withVectors_testBit hx, hj, hlvec, hreach]
  | false => simp [withVectors_testBit hx, hj, hlvec]

/-- The group vector of the copy: on a local leg the own group alone, on a remote one the others that
go through the output. -/
theorem rewritePayload_group {par : Params} {cfg : Cfg} {loc : Mask} {k h : Nat} {x : Payload}
    (hx : x < 2 ^ par.W) (hh : h < par.NRD) :
    (rewritePayload par cfg loc k x).testBit (par.NLD + h) =
      if loc.testBit k then decide (h = cfg.myId)
      else x.testBit (par.NLD + h) && decide (h ≠ cfg.myId) && (cfg.lutR.getD h 0).testBit k := by
  have hpos : ¬par.NLD + h < par.NLD := by omega
  have hgvec : (gvec par x).testBit h = x.testBit (par.NLD + h) := by simp [gvec, testBit_field, hh]
  unfold rewritePayload
  cases hl : loc.testBit k with
  | true =>
    have hown : (onehot par.NRD cfg.myId).testBit h = decide (h = cfg.myId) := by
      rw [testBit_onehot]
      by_cases heq : cfg.myId = h
      · simp [heq, hh]
      · simp [heq, Ne.symm heq]
    simp [withVectors_testBit hx, hpos, hh, hown]
  | false =>
    have hreach : (remoteReach par cfg k).testBit h =
        (decide (h ≠ cfg.myId) && (cfg.lutR.getD h 0).testBit k) := by
      rw [remoteReach, testBit_maskOf, decide_eq_true hh, Bool.true_and]
      congr 1
      by_cases heq : h = cfg.myId <;> simp [heq]
    simp only [Bool.false_eq_true, if_false, withVectors_testBit hx, hpos, Nat.add_lt_add_iff_left,
      hh, if_true, Nat.add_sub_cancel_left, Nat.testBit_and, hgvec, hreach, Bool.and_assoc]

theorem rewritePayload_rest {par : Params} {cfg : Cfg} {loc : Mask} {k b : Nat} {x : Payload}
    (hx : x < 2 ^ par.W) (hb : par.NLD + par.NRD ≤ b) :
    (rewritePayload par cfg loc k x).testBit b = x.testBit b := by
  unfold rewritePayload
  split <;> rw [withVectors_testBit hx, if_neg (by omega), if_neg (by omega)]

/-- Everything HDR.REWRITE.LUT that completes has done. -/
theorem hdrRewriteLut_ok {i k : Nat} {s t : State} (h : hdrRewriteLut i k s = .ok t) :
    t = s ∨ ∃ g g', s.tv.frAt i = some g ∧ copyFor s i k g = .ok g' ∧
      t = s.withTv { s.tv with cp := s.tv.cp.set k (some g') } := by
  unfold hdrRewriteLut at h
  split at h
  · exact .inl (Except.ok.inj h).symm
  · split at h
    · split at h
      · exact .inr ⟨_, _, ‹_›, ‹_›, (Except.ok.inj h).symm⟩
      · cases h
    · exact .inl (Except.ok.inj h).symm

theorem hdrRewriteLut_of_mcast {s : State} {i k v : Nat} {g : Flit} {loc : Mask}
    (hfr : s.tv.frAt i = some g) (hm : isMcastHeader s.par g = true) (hv : s.tv.vcAt i = some v)
    (hl : s.r.isLocalAt i v = some loc) :
    hdrRewriteLut i k s =
      .ok (s.withTv { s.tv with cp := s.tv.cp.set k (some (rewritten s loc k g)) }) := by
  simp [hdrRewriteLut, hfr, hm, copyFor_of_mcast hm hv hl]

theorem hdrRewriteLut_of_other {s : State} {i k : Nat}
    (h : ∀ g, s.tv.frAt i = some g → isMcastHeader s.par g = false) : hdrRewriteLut i k s = .ok s := by
  cases hfr : s.tv.frAt i with
  | none => simp [hdrRewriteLut, hfr]
  | some g => simp [hdrRewriteLut, hfr, h g hfr]

theorem isMcastHeader_iff {par : Params} {f : Flit} :
    isMcastHeader par f = true ↔
      par.isLut = true ∧ isHeader f = true ∧ f.payload.testBit par.MF = true := by
  simp [isMcastHeader, mflag, and_assoc]

theorem exec_hdrRewriteLut {s : State} {i k : Nat} (hi : i < s.par.N) (hk : k < s.par.N) :
    exec (.hdrRewriteLut i k) s = runOp (hdrRewriteLut i k) s :=
  exec_of_wellFormed rfl (by simp [Instr.wellFormed, hi, hk])

/-- Settles O39: the copy made for output `k`, one part of the payload at a time. -/
theorem hdrRewriteKeepsWhatGoesThroughTheOutput :
    Obligations.HdrRewriteKeepsWhatGoesThroughTheOutput := by
  intro s i k v g loc hnf hok htv hi hk hlut hfr hh hmf hv hl
  obtain ⟨hvec, hMF⟩ := lutWidths_of_ok hok hlut
  obtain ⟨-, hx⟩ := htv.frOk i g hfr
  have hrun := hdrRewriteLut_of_mcast (k := k) hfr (isMcastHeader_iff.2 ⟨hlut, hh, hmf⟩) hv hl
  have hcp : k < s.tv.cp.length := by rw [htv.cpShape]; exact hk
  refine ⟨_, rewritePayload s.par s.r.cfg loc k g.payload,
    (exec_hdrRewriteLut hi hk).trans (runOp_of_ok hnf hrun), ?_, rewritePayload_lt (by omega) ..,
    fun j hj => rewritePayload_local hx hj, fun h hh => rewritePayload_group hx hh,
    fun b hb => rewritePayload_rest hx hb, fun k' hne => ?_, rfl, onlyTickValues_withTv ..⟩
  · simp [entry_set, hcp, rewritten]
  · simp [entry_set, Ne.symm hne]

/-- Settles O58: none of these flits is a multicast header of `MODE = LUT`. -/
theorem hdrRewriteLeavesOtherFlitsAlone : Obligations.HdrRewriteLeavesOtherFlitsAlone := by
  intro s i k hnf hi hk hother
  refine (exec_hdrRewriteLut hi hk).trans
    (runOp_of_ok hnf (hdrRewriteLut_of_other fun g hg => Bool.eq_false_iff.2 fun hm => ?_))
  obtain ⟨hlut, hh, hmf⟩ := isMcastHeader_iff.1 hm
  rcases hother g hg with h | h | h
  · rw [hlut] at h; cases h
  · rw [hh] at h; cases h
  · rw [hmf] at h; cases h

/-! ### EGRESS.TX -/

/-- Settles O40: the front is delivered where there is one and the channel is ready. -/
theorem egressTxOffersTheFront : Obligations.EgressTxOffersTheFront := by
  intro s hnf
  obtain ⟨t, ht⟩ : ∃ t, egressTx s = .ok t := ⟨_, rfl⟩
  obtain ⟨hport, hr, -, henv, htv, hout⟩ := egressTx_ok ht
  refine ⟨t, runOp_of_ok hnf ht, fun k hk => ?_, hr, henv, htv, hout⟩
  obtain ⟨hoffer, hdel, hq⟩ := hport k hk
  refine ⟨hoffer, fun hne hready => ?_, fun hnot => ?_⟩
  · have hd : delivers s k = true := by
      simpa [delivers, qFront, hready, Option.isSome_iff_ne_none] using hne
    exact ⟨hdel.trans hd, by rw [hq, hd]; rfl⟩
  · have hd : delivers s k = false := by
      rcases hnot with h | h <;> simp [delivers, qFront, h]
    exact ⟨hdel.trans hd, by rw [hq, hd]; rfl⟩

end Sys2Proof.Machine
end

section
/-! The invariant (10_state.md R48 (a), the widths of R20 to R29): every operation of the router, every
message, RESET and every fault keeps the bounds of the state. With it what no operation but RESET
writes: the parameters, the latched configuration and the fault record. -/

namespace Sys2Proof.Machine

/-! ### What an operation that completes never writes -/

/-- The parameters, the latched configuration and the fault record are as they were. -/
def SameSetup (s t : State) : Prop :=
  t.par = s.par ∧ t.r.cfg = s.r.cfg ∧ t.r.fault = s.r.fault

theorem SameSetup.trans {s t u : State} (hst : SameSetup s t) (htu : SameSetup t u) :
    SameSetup s u := by
  obtain ⟨hpar, hcfg, hfault⟩ := hst
  obtain ⟨hpar', hcfg', hfault'⟩ := htu
  exact ⟨hpar'.trans hpar, hcfg'.trans hcfg, hfault'.trans hfault⟩

theorem sameSetup_of_router {s t : State} {r : Router} (ho : SameOutside s t) (hr : t.r = r)
    (hcfg : r.cfg = s.r.cfg) (hfault : r.fault = s.r.fault) : SameSetup s t :=
  ⟨ho.1, hr ▸ hcfg, hr ▸ hfault⟩

theorem sameSetup_of_onlyTickValues {s t : State} (h : OnlyTickValues s t) : SameSetup s t :=
  sameSetup_of_router h.1 h.2.1 rfl rfl

theorem phase_keeps_setup {op : State → Res} (hop : op ∈ phases) {s t : State} (h : op s = .ok t) :
    SameSetup s t := by
  simp only [phases, List.mem_cons, List.not_mem_nil, or_false] at hop
  rcases hop with
    rfl | rfl | rfl | rfl | rfl | rfl | rfl | rfl | rfl | rfl | rfl | rfl | rfl | rfl
  · obtain ⟨-, -, hr, -, -, -, ho⟩ := creditRx_ok h
    exact sameSetup_of_router ho hr rfl rfl
  · obtain ⟨-, -, -, hr, -, -, -, ho⟩ := ingressRx_ok h
    exact sameSetup_of_router ho hr rfl rfl
  · obtain ⟨-, -, hr, -, -, -, ho⟩ := vcSelect_ok h
    exact sameSetup_of_router ho hr rfl rfl
  · obtain ⟨-, -, -, -, ho⟩ := peek_ok h
    exact sameSetup_of_onlyTickValues ho
  · obtain ⟨-, -, -, -, hr, -, -, -, -, ho⟩ := routeAll_ok h
    exact sameSetup_of_router ho hr rfl rfl
  · obtain ⟨-, -, ho⟩ := reqBuild_ok h
    exact sameSetup_of_onlyTickValues ho
  · obtain ⟨-, -, -, ho⟩ := mcastWithdraw_ok h
    exact sameSetup_of_onlyTickValues ho
  · obtain ⟨-, hr, -, -, -, ho⟩ := outArb_ok h
    exact sameSetup_of_router ho hr rfl rfl
  · obtain ⟨-, -, -, ho⟩ := mcastForce_ok h
    exact sameSetup_of_onlyTickValues ho
  · obtain ⟨-, -, ho⟩ := grantFinal_ok h
    exact sameSetup_of_onlyTickValues ho
  · obtain ⟨-, -, -, hr, -, -, -, -, -, -, ho⟩ := grantCommit_ok h
    exact sameSetup_of_router ho hr rfl rfl
  · obtain ⟨-, -, hr, -, -, -, ho⟩ := xbar_ok h
    exact sameSetup_of_router ho hr rfl rfl
  · obtain ⟨-, hr, -, -, -, ho⟩ := egressTx_ok h
    exact sameSetup_of_router ho hr rfl rfl
  · obtain ⟨-, hr, -, -, -, ho⟩ := creditTx_ok h
    exact sameSetup_of_router ho hr rfl rfl

theorem runPhases_keeps_setup {l : List (State → Res)} (hl : l ⊆ phases) {s t : State}
    (h : runPhases l s = .ok t) : SameSetup s t :=
  runPhases_keeps (P := SameSetup s)
    (fun _ hop _ _ hs hab => hs.trans (phase_keeps_setup (hl hop) hab)) ⟨rfl, rfl, rfl⟩ h

theorem tick_keeps_setup {s t : State} (h : tick s = .ok t) : SameSetup s t := by
  obtain ⟨u, hu, rfl⟩ := tick_ok h
  obtain ⟨hpar, hcfg, hfault⟩ := runPhases_keeps_setup (List.Subset.refl _) hu
  exact ⟨hpar, hcfg, hfault⟩

theorem routePort_keeps_setup {op : RouteOp} {p : Nat} {s t : State} (h : routePort op p s = .ok t) :
    SameSetup s t := by
  rcases routePort_ok h with ⟨-, rfl⟩ | ⟨v, f, -, ⟨-, rfl⟩ | ⟨-, x, -, rfl⟩⟩ <;> exact ⟨rfl, rfl, rfl⟩

theorem operation_keeps_setup {i : Instr} {op : State → Res} (hop : operation i = some op)
    {s t : State} (h : op s = .ok t) : SameSetup s t := by
  cases i with
  | routeSr p => cases hop; exact routePort_keeps_setup h
  | routeLutUcast p => cases hop; exact routePort_keeps_setup h
  | routeLutMcast p => cases hop; exact routePort_keeps_setup h
  | routeHold p => cases hop; exact routePort_keeps_setup h
  | creditDec k v =>
    cases hop
    obtain ⟨-, rfl⟩ := creditDec_ok h
    exact ⟨rfl, rfl, rfl⟩
  | creditOwe i v =>
    cases hop
    obtain ⟨-, rfl⟩ := creditOwe_ok h
    exact ⟨rfl, rfl, rfl⟩
  | hdrRewriteLut i k =>
    cases hop
    rcases hdrRewriteLut_ok h with rfl | ⟨g, g', -, -, rfl⟩ <;> exact ⟨rfl, rfl, rfl⟩
  | arbPick a valid =>
    cases hop
    cases a <;> cases h <;> exact ⟨rfl, rfl, rfl⟩
  | tick => cases hop; exact tick_keeps_setup h
  | _ => cases hop <;> exact phase_keeps_setup (by simp [phases]) h

/-- Settles O10: a message writes the environment record alone, an operation that completes keeps the
latches, and one that does not records a fault. -/
theorem configurationIsReadOnceAtReset : Obligations.ConfigurationIsReadOnceAtReset := by
  intro i s t hne h
  rcases exec_next h with ⟨heq, -⟩ | hmsg | ⟨op, hop, -, -, hok | ⟨c, n, -, rfl⟩⟩
  · exact absurd heq hne
  · rcases hmsg with ⟨p, f, -, -, rfl⟩ | ⟨k, v, a, -, -, rfl⟩ <;> exact ⟨rfl, fun _ => rfl⟩
  · obtain ⟨hpar, hcfg, -⟩ := operation_keeps_setup hop hok
    exact ⟨hpar, fun _ => hcfg⟩
  · exact ⟨rfl, fun hf => by cases hf⟩

/-! ### The bounds of a state, part by part -/

/-- The bounds of a state with no fault recorded, on a router that is built. -/
structure Bounded (s : State) : Prop where
  ok : s.par.ok = true
  router : RouterOk s.par s.r
  tick : TickOk s.par s.tv
  env : EnvOk s.par s.env

theorem Bounded.inBounds {s : State} (h : Bounded s) : InBounds s := ⟨fun _ => h.router, h.tick, h.env⟩

theorem InBounds.bounded {s : State} (hok : s.par.ok = true) (h : InBounds s)
    (hf : s.r.fault = none) : Bounded s :=
  ⟨hok, h.1 hf, h.2.1, h.2.2⟩

/-- The bounds after an operation, from the bounds of what it wrote. -/
theorem Bounded.next {s t : State} (hb : Bounded s) (hpar : t.par = s.par)
    (hr : RouterOk s.par t.r) (htv : TickOk s.par t.tv) (henv : EnvOk s.par t.env) : Bounded t :=
  ⟨hpar ▸ hb.ok, hpar ▸ hr, hpar ▸ htv, hpar ▸ henv⟩

theorem ok_sizes {par : Params} (h : par.ok = true) : 1 ≤ par.N ∧ 1 ≤ par.V := by
  simp only [Params.ok, Bool.and_eq_true, decide_eq_true_eq] at h
  obtain ⟨⟨⟨⟨hN, hV⟩, -⟩, -⟩, -⟩ := h
  exact ⟨hN, hV⟩

section Parts

variable {par : Params} {r : Router} (h : RouterOk par r)
include h

theorem RouterOk.with_q {q : Grid (List Flit)} (hq : Shaped q par.N par.V)
    (hlen : ∀ p < par.N, ∀ v < par.V, (cell [] q p v).length ≤ par.B)
    (hflits : ∀ p < par.N, ∀ v < par.V, ∀ f ∈ cell [] q p v, FlitOn par v f) :
    RouterOk par { r with q := q } :=
  { h with qShape := hq, qBound := hlen, qFlits := hflits }

theorem RouterOk.with_ca {ca : Grid Nat} (hca : Shaped ca par.N par.V)
    (hle : ∀ k < par.N, ∀ v < par.V, cell 0 ca k v ≤ par.B) : RouterOk par { r with ca := ca } :=
  { h with caShape := hca, caBound := hle }

theorem RouterOk.with_co {co : Grid Nat} (hco : Shaped co par.N par.V)
    (hle : ∀ p < par.N, ∀ v < par.V, cell 0 co p v ≤ par.B) : RouterOk par { r with co := co } :=
  { h with coShape := hco, coBound := hle }

theorem RouterOk.with_igp {igp : Grid Bool} (higp : Shaped igp par.N par.V) :
    RouterOk par { r with igp := igp } :=
  { h with igpShape := higp }

theorem RouterOk.with_outDest {d : Grid (Option Mask)} (hd : Shaped d par.N par.V)
    (hlt : ∀ p < par.N, ∀ v < par.V, ∀ m, cell none d p v = some m → m < 2 ^ par.N) :
    RouterOk par { r with outDest := d } :=
  { h with outDestShape := hd, outDestBound := hlt }

theorem RouterOk.with_isLocal {d : Grid (Option Mask)} (hd : Shaped d par.N par.V)
    (hlt : ∀ p < par.N, ∀ v < par.V, ∀ m, cell none d p v = some m → m < 2 ^ par.N) :
    RouterOk par { r with isLocal := d } :=
  { h with isLocalShape := hd, isLocalBound := hlt }

theorem RouterOk.with_arbOut {l : List Nat} (hl : l.length = par.N)
    (hlt : ∀ k < par.N, entry 0 l k < par.N) : RouterOk par { r with arbOut := l } :=
  { h with arbOutShape := hl, arbOutBound := hlt }

theorem RouterOk.with_arbVc {l : List Nat} (hl : l.length = par.N)
    (hlt : ∀ p < par.N, entry 0 l p < par.V) : RouterOk par { r with arbVc := l } :=
  { h with arbVcShape := hl, arbVcBound := hlt }

theorem RouterOk.with_eq {l : List (List Flit)} (hl : l.length = par.N)
    (hlen : ∀ k < par.N, (entry [] l k).length ≤ par.E)
    (hflits : ∀ k < par.N, ∀ f ∈ entry [] l k, FlitOk par f) : RouterOk par { r with eq := l } :=
  { h with eqShape := hl, eqBound := hlen, eqFlits := hflits }

end Parts

/-- The bounds of the tick's values do not speak of the values of the grant protocol. -/
theorem TickOk.of_same {par : Params} {t t' : TickVals} (h : TickOk par t) (hdm : t'.dm = t.dm)
    (hfr : t'.fr = t.fr) (hcp : t'.cp.length = par.N) (hvalid : t'.inValid = t.inValid)
    (hvc : t'.vc = t.vc) (hf : t'.f = t.f) : TickOk par t' where
  dmShape := hdm ▸ h.dmShape
  frShape := hfr ▸ h.frShape
  cpShape := hcp
  vcBound p v hv := h.vcBound p v (by rwa [TickVals.vcAt, hvalid, hvc] at hv)
  fOk p f hp := h.fOk p f (by rwa [TickVals.fAt, hf] at hp)
  frOk p f hp := h.frOk p f (by rwa [TickVals.frAt, hfr] at hp)
  dmBound p := by rw [TickVals.dmAt, hdm]; exact h.dmBound p

theorem tickOk_idle (par : Params) : TickOk par (TickVals.idle par) where
  dmShape := length_tab ..
  frShape := length_tab ..
  cpShape := length_tab ..
  vcBound p v hv := by
    have hnone : (TickVals.idle par).vcAt p = none := by simp [TickVals.idle, TickVals.vcAt, entry_tab]
    rw [hnone] at hv; cases hv
  fOk p f hf := by
    have hnone : (TickVals.idle par).fAt p = none := by simp [TickVals.idle, TickVals.fAt, entry_tab]
    rw [hnone] at hf; cases hf
  frOk p f hf := by
    have hnone : (TickVals.idle par).frAt p = none := by simp [TickVals.idle, TickVals.frAt, entry_tab]
    rw [hnone] at hf; cases hf
  dmBound p := by
    have hzero : (TickVals.idle par).dmAt p = 0 := by simp [TickVals.idle, TickVals.dmAt, entry_tab]
    rw [hzero]; exact Nat.two_pow_pos _

/-- A drawn record offers flits cut to the widths of the flit word (log entry 14). -/
theorem envOk_draw (par : Params) (i n : Nat) : EnvOk par (Env.draw par i n) where
  flitShape := length_tab ..
  creditShape := shaped_tab2 ..
  flitFits p f hf := by
    simp only [Env.flitAt, Env.draw, entry_tab] at hf
    split at hf
    · obtain ⟨g, -, rfl⟩ := Option.map_eq_some_iff.1 hf
      exact ⟨Nat.mod_lt _ (Nat.two_pow_pos _), Nat.mod_lt _ (Nat.two_pow_pos _)⟩
    · cases hf

/-! ### The masks and flits of the route resolver -/

theorem keyOp_eq_sr {par : Params} {f : Flit} (h : keyOp (routeKey par f) = .sr) :
    isHeader f = true ∧ par.isLut = false := by
  rw [keyOp_routeKey] at h
  split_ifs at h
  simp_all

theorem keyOp_eq_ucast {par : Params} {f : Flit} (h : keyOp (routeKey par f) = .ucast) :
    isHeader f = true ∧ par.isLut = true ∧ f.payload.testBit par.MF = false := by
  rw [keyOp_routeKey] at h
  split_ifs at h
  simp_all [mflag]

theorem keyOp_eq_mcast {par : Params} {f : Flit} (h : keyOp (routeKey par f) = .mcast) :
    isHeader f = true ∧ par.isLut = true ∧ f.payload.testBit par.MF = true := by
  rw [keyOp_routeKey] at h
  split_ifs at h
  simp_all [mflag]

theorem keyOp_eq_hold {par : Params} {f : Flit} (h : keyOp (routeKey par f) = .hold) :
    isContinuation f = true := by
  rw [keyOp_routeKey] at h
  split_ifs at h
  simp_all [isContinuation]

theorem lutRead_lt {t : List Mask} {n : Nat} (h : ∀ m ∈ t, m < 2 ^ n) (i : Nat) : lutRead t i < 2 ^ n := by
  by_cases hi : i < t.length
  · exact h _ (entry_mem 0 hi)
  · rw [lutRead, entry_of_length_le 0 (not_lt.1 hi)]
    exact Nat.two_pow_pos n

theorem srMask_lt (par : Params) (route : Nat) : srMask par route < 2 ^ par.N := by
  refine Nat.or_lt_two_pow ((field_lt ..).trans_le ?_) ?_
  · exact Nat.pow_le_pow_right (by decide) (Nat.le_add_right ..)
  · split
    · exact onehot_lt ..
    · exact Nat.two_pow_pos _

theorem ucastMask_lt {par : Params} {c : Cfg} (hlut : par.isLut = true) (hc : CfgOk par c)
    (x : Payload) : ucastMask par c x < 2 ^ par.N := by
  obtain ⟨-, -, -, hL, hR⟩ := hc hlut
  unfold ucastMask
  split
  · exact lutRead_lt hL _
  · exact lutRead_lt hR _

theorem mcastLocalMask_lt {par : Params} {c : Cfg} (hlut : par.isLut = true) (hc : CfgOk par c)
    (x : Payload) : mcastLocalMask par c x < 2 ^ par.N := by
  obtain ⟨-, -, -, hL, -⟩ := hc hlut
  unfold mcastLocalMask
  split
  · exact orOver_lt (lutRead_lt hL)
  · exact Nat.two_pow_pos _

theorem mcastRemoteMask_lt {par : Params} {c : Cfg} (hlut : par.isLut = true) (hc : CfgOk par c)
    (x : Payload) : mcastRemoteMask par c x < 2 ^ par.N := by
  obtain ⟨-, -, -, -, hR⟩ := hc hlut
  exact orOver_lt (lutRead_lt hR)

/-- The bounds of what a route operation produces. -/
structure RoutedOk (par : Params) (x : Routed) : Prop where
  dm : x.dm < 2 ^ par.N
  fr : FlitOk par x.fr
  dest : ∀ m, x.dest = some m → m < 2 ^ par.N
  loc : ∀ m, x.loc = some m → m < 2 ^ par.N

/-- The route operation of a flit's key gives a mask over the ports and a flit of the format. -/
theorem routedOk_of_key {s : State} {p v : Nat} {f : Flit} {x : Routed} (hb : Bounded s)
    (hp : p < s.par.N) (hv : v < s.par.V) (hf : FlitOk s.par f)
    (h : routed s (keyOp (routeKey s.par f)) p v f = .ok x) : RoutedOk s.par x := by
  cases hop : keyOp (routeKey s.par f) with
  | sr =>
    rw [hop] at h
    cases h
    obtain ⟨-, hsr⟩ := keyOp_eq_sr hop
    have hm := srMask_lt s.par (routeField s.par f.payload)
    exact ⟨hm, ⟨hf.1, srForward_lt (srWidths_of_ok hb.ok hsr).2 _⟩,
      fun m hd => Option.some.inj hd ▸ hm, nofun⟩
  | ucast =>
    rw [hop] at h
    cases h
    obtain ⟨-, hlut, -⟩ := keyOp_eq_ucast hop
    have hm := ucastMask_lt hlut hb.router.cfgOk f.payload
    refine ⟨hm, hf, fun m hd => Option.some.inj hd ▸ hm, fun m hl => Option.some.inj hl ▸ ?_⟩
    split
    · exact hm
    · exact Nat.two_pow_pos _
  | mcast =>
    rw [hop] at h
    cases h
    obtain ⟨-, hlut, -⟩ := keyOp_eq_mcast hop
    have hl := mcastLocalMask_lt hlut hb.router.cfgOk f.payload
    have hm := Nat.or_lt_two_pow hl (mcastRemoteMask_lt hlut hb.router.cfgOk f.payload)
    exact ⟨hm, hf, fun m hd => Option.some.inj hd ▸ hm, fun m hd => Option.some.inj hd ▸ hl⟩
  | hold =>
    rw [hop] at h
    cases hd : s.r.outDestAt p v with
    | none => rw [routed_hold_of_none hd] at h; cases h
    | some m =>
      rw [routed_hold_of_some hd] at h
      cases h
      exact ⟨hb.router.outDestBound p hp v hv m hd, hf, nofun, nofun⟩

/-- A peeked flit and its VC are in range, and so is what its route operation makes of it. -/
theorem portResult_bounds {s : State} {p v : Nat} {x : Routed} (hb : Bounded s) (hp : p < s.par.N)
    (h : portResult s p = some (v, x)) : v < s.par.V ∧ RoutedOk s.par x := by
  unfold portResult portRouted at h
  cases hpeek : peeked s p with
  | none => simp [hpeek] at h
  | some y =>
    obtain ⟨u, f⟩ := y
    obtain ⟨hu, hf⟩ := peeked_eq_some.1 hpeek
    have huV := hb.tick.vcBound p u hu
    cases hr : routed s (keyOp (routeKey s.par f)) p u f with
    | error e => simp [hpeek, hr] at h
    | ok x' =>
      simp only [hpeek, hr, Option.some.injEq, Prod.mk.injEq] at h
      obtain ⟨rfl, rfl⟩ := h
      exact ⟨huV, routedOk_of_key hb hp huV (hb.tick.fOk p f hf) hr⟩

theorem afterWrite_bound {par : Params} {res : Option (Nat × Routed)} {w : Routed → Option Mask}
    {v : Nat} {old : Option Mask} (hnew : ∀ v' x m, res = some (v', x) → w x = some m → m < 2 ^ par.N)
    (hold : ∀ m, old = some m → m < 2 ^ par.N) (m : Mask) (h : afterWrite res w v old = some m) :
    m < 2 ^ par.N := by
  unfold afterWrite at h
  split at h
  · next v' x =>
    split at h
    · rcases Option.or_eq_some_iff.1 h with hw | ⟨-, ho⟩
      · exact hnew v' x m rfl hw
      · exact hold m ho
    · exact hold m h
  · exact hold m h

/-! ### Every phase keeps the bounds -/

theorem creditRx_bounds {s t : State} (hb : Bounded s) (h : creditRx s = .ok t) : Bounded t := by
  obtain ⟨hstop, hpair, hr, hshape, henv, htv, hpar, -⟩ := creditRx_ok h
  have hcredit : Shaped t.env.inCredit s.par.N s.par.V := by
    obtain ⟨-, rfl⟩ := unlessStop_ok.1 h
    exact shaped_tab2 ..
  refine hb.next hpar ?_ ?_ ?_
  · rw [hr]
    refine hb.router.with_ca hshape fun k hk v hv => ?_
    rw [show cell 0 t.r.ca k v = t.r.caAt k v from rfl, (hpair k hk v hv).1]
    exact (creditRxStop_eq_none (hb.router.caBound k hk v hv)).1 (hstop k hk v hv)
  · rw [htv]
    exact hb.tick.of_same rfl rfl hb.tick.cpShape rfl rfl rfl
  · rw [henv]
    exact ⟨hb.env.flitShape, hcredit, hb.env.flitFits⟩

theorem ingressRx_bounds {s t : State} (hb : Bounded s) (h : ingressRx s = .ok t) : Bounded t := by
  obtain ⟨hstop, hq, -, hr, hshape, henv, htv, hpar, -⟩ := ingressRx_ok h
  have hflit : t.env.inFlit = tab s.par.N fun _ => none := by
    obtain ⟨-, rfl⟩ := unlessStop_ok.1 h
    rfl
  refine hb.next hpar ?_ ?_ ?_
  · rw [hr]
    refine hb.router.with_q hshape (fun p hp v hv => ?_) fun p hp v hv f hf => ?_
    · rw [show cell [] t.r.q p v = t.r.qAt p v from rfl, (hq p hp v hv).1]
      cases ha : arrival s p v with
      | none => simpa using hb.router.qBound p hp v hv
      | some f =>
        obtain ⟨hoffer, rfl⟩ := arrival_eq_some.1 ha
        have := (ingressRxStop_eq_none.1 (hstop p hp) f hoffer).2
        simpa using this
    · rw [show cell [] t.r.q p v = t.r.qAt p v from rfl, (hq p hp v hv).1, List.mem_append,
        Option.mem_toList] at hf
      rcases hf with hold | hnew
      · exact hb.router.qFlits p hp v hv f hold
      · obtain ⟨hoffer, hvc⟩ := arrival_eq_some.1 hnew
        exact ⟨hvc, (hb.env.flitFits p f hoffer).2⟩
  · rw [htv]
    exact hb.tick.of_same rfl rfl hb.tick.cpShape rfl rfl rfl
  · rw [henv, hflit]
    exact ⟨length_tab .., hb.env.creditShape, fun p f hf => by simp [Env.flitAt, entry_tab] at hf⟩

theorem vcSelect_bounds {s t : State} (hb : Bounded s) (h : vcSelect s = .ok t) : Bounded t := by
  have hvc : ∀ p v, t.tv.vcAt p = some v → v < s.par.V := fun p v hv => (vcSelect_vcAt h hv).2.1
  obtain ⟨hport, -, hr, hlen, henv, htv, hpar, -⟩ := vcSelect_ok h
  refine hb.next hpar ?_ ?_ (henv ▸ hb.env)
  · rw [hr]
    refine hb.router.with_arbVc hlen fun p hp => ?_
    rw [show entry 0 t.r.arbVc p = t.r.arbVcAt p from rfl, (hport p hp).2]
    exact pickPtr_lt (hb.router.arbVcBound p hp)
  · rw [htv] at hvc ⊢
    exact { hb.tick with vcBound := hvc }

theorem peek_bounds {s t : State} (hb : Bounded s) (h : peek s = .ok t) : Bounded t := by
  obtain ⟨-, hf, hout, htv, ⟨hpar, -⟩, hr, henv⟩ := peek_ok h
  have hfOk : ∀ p f, t.tv.fAt p = some f → FlitOk s.par f := fun p f hpf => by
    by_cases hp : p < s.par.N
    · rw [hf p hp] at hpf
      obtain ⟨v, hv, hhead⟩ := Option.bind_eq_some_iff.1 hpf
      have hvV := hb.tick.vcBound p v hv
      obtain ⟨hvc, hx⟩ := hb.router.qFlits p hp v hvV f (List.mem_of_head? hhead)
      exact ⟨hvc ▸ hvV, hx⟩
    · rw [hout p (not_lt.1 hp)] at hpf
      cases hpf
  refine hb.next hpar (hr ▸ hb.router) ?_ (henv ▸ hb.env)
  rw [htv] at hfOk ⊢
  exact { hb.tick with fOk := hfOk }

theorem routeAll_bounds {s t : State} (hb : Bounded s) (h : routeAll s = .ok t) : Bounded t := by
  obtain ⟨-, hport, hout, hdest, hr, hshapeD, hshapeL, htv, henv, hpar, -⟩ := routeAll_ok h
  have hdm : ∀ p, t.tv.dmAt p < 2 ^ s.par.N := fun p => by
    by_cases hp : p < s.par.N
    · rw [(hport p hp).1]
      cases hres : portResult s p with
      | none => exact Nat.two_pow_pos _
      | some y => exact (portResult_bounds hb hp hres).2.dm
    · rw [(hout p (not_lt.1 hp)).1]
      exact Nat.two_pow_pos _
  have hfr : ∀ p f, t.tv.frAt p = some f → FlitOk s.par f := fun p f hpf => by
    by_cases hp : p < s.par.N
    · rw [(hport p hp).2] at hpf
      obtain ⟨y, hres, rfl⟩ := Option.map_eq_some_iff.1 hpf
      exact (portResult_bounds hb hp hres).2.fr
    · rw [(hout p (not_lt.1 hp)).2] at hpf
      cases hpf
  have hlen : t.tv.dm.length = s.par.N ∧ t.tv.fr.length = s.par.N := by
    obtain ⟨-, rfl⟩ := unlessStop_ok.1 h
    exact ⟨length_tab .., length_tab ..⟩
  refine hb.next hpar ?_ ?_ (henv ▸ hb.env)
  · rw [hr]
    refine (hb.router.with_outDest hshapeD fun p hp v hv m hm => ?_).with_isLocal hshapeL
      fun p hp v hv m hm => ?_
    · rw [show cell none t.r.outDest p v = t.r.outDestAt p v from rfl, (hdest p hp v hv).1] at hm
      exact afterWrite_bound (fun _ x m hres => (portResult_bounds hb hp hres).2.dest m)
        (hb.router.outDestBound p hp v hv) m hm
    · rw [show cell none t.r.isLocal p v = t.r.isLocalAt p v from rfl, (hdest p hp v hv).2] at hm
      exact afterWrite_bound (fun _ x m hres => (portResult_bounds hb hp hres).2.loc m)
        (hb.router.isLocalBound p hp v hv) m hm
  · rw [htv] at hdm hfr ⊢
    exact { hb.tick with dmShape := hlen.1, frShape := hlen.2, dmBound := hdm, frOk := hfr }

theorem onlyTickValues_bounds {s t : State} (hb : Bounded s) (h : OnlyTickValues s t)
    (htv : TickOk s.par t.tv) : Bounded t := by
  obtain ⟨⟨hpar, -⟩, hr, henv⟩ := h
  exact hb.next hpar (hr ▸ hb.router) htv (henv ▸ hb.env)

theorem reqBuild_bounds {s t : State} (hb : Bounded s) (h : reqBuild s = .ok t) : Bounded t := by
  obtain ⟨-, htv, honly⟩ := reqBuild_ok h
  refine onlyTickValues_bounds hb honly ?_
  rw [htv]
  exact hb.tick.of_same rfl rfl hb.tick.cpShape rfl rfl rfl

theorem mcastWithdraw_bounds {s t : State} (hb : Bounded s) (h : mcastWithdraw s = .ok t) :
    Bounded t := by
  obtain ⟨-, -, htv, honly⟩ := mcastWithdraw_ok h
  refine onlyTickValues_bounds hb honly ?_
  rw [htv]
  exact hb.tick.of_same rfl rfl hb.tick.cpShape rfl rfl rfl

theorem outArb_bounds {s t : State} (hb : Bounded s) (h : outArb s = .ok t) : Bounded t := by
  obtain ⟨hpick, hr, hlen, htv, henv, hpar, -⟩ := outArb_ok h
  refine hb.next hpar ?_ ?_ (henv ▸ hb.env)
  · rw [hr]
    refine hb.router.with_arbOut hlen fun k hk => ?_
    rw [show entry 0 t.r.arbOut k = t.r.arbOutAt k from rfl, (hpick k hk).2]
    exact pickPtr_lt (hb.router.arbOutBound k hk)
  · rw [htv]
    exact hb.tick.of_same rfl rfl hb.tick.cpShape rfl rfl rfl

theorem mcastForce_bounds {s t : State} (hb : Bounded s) (h : mcastForce s = .ok t) : Bounded t := by
  obtain ⟨-, -, htv, honly⟩ := mcastForce_ok h
  refine onlyTickValues_bounds hb honly ?_
  rw [htv]
  exact hb.tick.of_same rfl rfl hb.tick.cpShape rfl rfl rfl

theorem grantFinal_bounds {s t : State} (hb : Bounded s) (h : grantFinal s = .ok t) : Bounded t := by
  obtain ⟨-, htv, honly⟩ := grantFinal_ok h
  refine onlyTickValues_bounds hb honly ?_
  rw [htv]
  exact hb.tick.of_same rfl rfl hb.tick.cpShape rfl rfl rfl

theorem grantCommit_bounds {s t : State} (hb : Bounded s) (h : grantCommit s = .ok t) : Bounded t := by
  obtain ⟨hstop, hout, hin, hr, hq, hco, hca, higp, htv, henv, hpar, -⟩ := grantCommit_ok h
  have hqueue : ∀ p < s.par.N, ∀ v < s.par.V, ∀ f ∈ t.r.qAt p v, f ∈ s.r.qAt p v := by
    intro p hp v hv f hf
    cases hc : commits s p v with
    | true => rw [((hin p hp v hv).1 hc).1] at hf; exact List.mem_of_mem_tail hf
    | false => rw [((hin p hp v hv).2 hc).1] at hf; exact hf
  refine hb.next hpar ?_ (htv ▸ hb.tick) (henv ▸ hb.env)
  rw [hr]
  refine (((hb.router.with_q hq (fun p hp v hv => ?_) fun p hp v hv f hf => ?_).with_co hco
    fun p hp v hv => ?_).with_ca hca fun k hk v hv => ?_).with_igp higp
  · have hbound := hb.router.qBound p hp v hv
    rw [show cell [] t.r.q p v = t.r.qAt p v from rfl]
    cases hc : commits s p v with
    | true =>
      rw [((hin p hp v hv).1 hc).1, List.length_tail]
      omega
    | false => rw [((hin p hp v hv).2 hc).1]; exact hbound
  · exact hb.router.qFlits p hp v hv f (hqueue p hp v hv f hf)
  · rw [show cell 0 t.r.co p v = t.r.coAt p v from rfl]
    cases hc : commits s p v with
    | true =>
      obtain ⟨hfull, hvc⟩ := commits_iff.1 hc
      obtain ⟨v', f, hv', -, -, -, hle⟩ := (commitStop_eq_none hfull).1 (hstop p hp)
      obtain rfl : v = v' := Option.some.inj (hvc.symm.trans hv')
      rw [((hin p hp v hv).1 hc).2]
      exact hle
    | false => rw [((hin p hp v hv).2 hc).2]; exact hb.router.coBound p hp v hv
  · obtain ⟨-, hca', -⟩ := hout k hk v hv
    rw [show cell 0 t.r.ca k v = t.r.caAt k v from rfl, hca']
    exact (Nat.sub_le ..).trans (hb.router.caBound k hk v hv)

theorem flitOk_of_copyFor {s : State} {i k : Nat} {g g' : Flit} (hb : Bounded s)
    (hg : FlitOk s.par g) (h : copyFor s i k g = .ok g') : FlitOk s.par g' := by
  rcases copyFor_ok h with ⟨-, rfl⟩ | ⟨hm, loc, rfl⟩
  · exact hg
  · obtain ⟨hlut, -, -⟩ := isMcastHeader_iff.1 hm
    obtain ⟨hvec, hMF⟩ := lutWidths_of_ok hb.ok hlut
    exact ⟨hg.1, rewritePayload_lt (by omega) ..⟩

/-- What XBAR stages at an output: the copy of its granted input's flit. -/
theorem xbarFlit_eq_some {s : State} {k : Nat} {g' : Flit} (h : xbarFlit s k = some g') :
    ∃ i g, grantedInput s k = some i ∧ s.tv.frAt i = some g ∧ copyFor s i k g = .ok g' := by
  unfold xbarFlit xbarCopy at h
  cases hi : grantedInput s k with
  | none => simp [hi] at h
  | some i =>
    cases hg : s.tv.frAt i with
    | none => simp [hi, hg] at h
    | some g =>
      cases hc : copyFor s i k g with
      | error e => simp [hi, hg, hc] at h
      | ok g'' =>
        simp only [hi, hg, hc, Option.some.injEq] at h
        exact ⟨i, g, rfl, hg, h ▸ hc⟩

/-- XBAR that completes had room wherever it stages a flit. -/
theorem room_of_xbarStop {s : State} {k : Nat} {g : Flit} (hstop : xbarStop s k = none)
    (h : xbarFlit s k = some g) : (s.r.eqAt k).length < s.par.E := by
  obtain ⟨i, g', hi, hg, hc⟩ := xbarFlit_eq_some h
  simpa [xbarStop, xbarCopy_of_granted hi hg, hc, stagingFree] using hstop

theorem xbar_bounds {s t : State} (hb : Bounded s) (h : xbar s = .ok t) : Bounded t := by
  obtain ⟨hstop, heq, hr, hlen, htv, henv, hpar, -⟩ := xbar_ok h
  have hcp : t.tv.cp.length = s.par.N := by
    obtain ⟨-, rfl⟩ := unlessStop_ok.1 h
    exact length_tab ..
  refine hb.next hpar ?_ ?_ (henv ▸ hb.env)
  · rw [hr]
    refine hb.router.with_eq hlen (fun k hk => ?_) fun k hk f hf => ?_
    · rw [show entry [] t.r.eq k = t.r.eqAt k from rfl, heq k hk]
      cases hx : xbarFlit s k with
      | none => simpa using hb.router.eqBound k hk
      | some g => simpa using room_of_xbarStop (hstop k hk) hx
    · rw [show entry [] t.r.eq k = t.r.eqAt k from rfl, heq k hk, List.mem_append,
        Option.mem_toList] at hf
      rcases hf with hold | hnew
      · exact hb.router.eqFlits k hk f hold
      · obtain ⟨i, g, -, hg, hc⟩ := xbarFlit_eq_some hnew
        exact flitOk_of_copyFor hb (hb.tick.frOk i g hg) hc
  · rw [htv]
    exact hb.tick.of_same rfl rfl hcp rfl rfl rfl

theorem egressTx_bounds {s t : State} (hb : Bounded s) (h : egressTx s = .ok t) : Bounded t := by
  obtain ⟨hport, hr, hlen, henv, htv, hpar, -⟩ := egressTx_ok h
  have heq : ∀ k < s.par.N, t.r.eqAt k = s.r.eqAt k ∨ t.r.eqAt k = (s.r.eqAt k).tail := fun k hk => by
    rw [(hport k hk).2.2]
    cases delivers s k <;> simp
  refine hb.next hpar ?_ ?_ (henv ▸ hb.env)
  · rw [hr]
    refine hb.router.with_eq hlen (fun k hk => ?_) fun k hk f hf => ?_
    · have hbound := hb.router.eqBound k hk
      rw [show entry [] t.r.eq k = t.r.eqAt k from rfl]
      rcases heq k hk with he | he
      · rw [he]; exact hbound
      · rw [he, List.length_tail]; omega
    · rw [show entry [] t.r.eq k = t.r.eqAt k from rfl] at hf
      rcases heq k hk with he | he
      · rw [he] at hf; exact hb.router.eqFlits k hk f hf
      · rw [he] at hf; exact hb.router.eqFlits k hk f (List.mem_of_mem_tail hf)
  · rw [htv]
    exact hb.tick.of_same rfl rfl hb.tick.cpShape rfl rfl rfl

theorem creditTx_bounds {s t : State} (hb : Bounded s) (h : creditTx s = .ok t) : Bounded t := by
  obtain ⟨hpair, hr, hshape, henv, htv, hpar, -⟩ := creditTx_ok h
  refine hb.next hpar ?_ ?_ (henv ▸ hb.env)
  · rw [hr]
    refine hb.router.with_co hshape fun p hp v hv => ?_
    rw [show cell 0 t.r.co p v = t.r.coAt p v from rfl, (hpair p hp v hv).2]
    exact (Nat.sub_le ..).trans (hb.router.coBound p hp v hv)
  · rw [htv]
    exact hb.tick.of_same rfl rfl hb.tick.cpShape rfl rfl rfl

theorem phase_keeps_bounds {op : State → Res} (hop : op ∈ phases) {s t : State} (hb : Bounded s)
    (h : op s = .ok t) : Bounded t := by
  simp only [phases, List.mem_cons, List.not_mem_nil, or_false] at hop
  rcases hop with
    rfl | rfl | rfl | rfl | rfl | rfl | rfl | rfl | rfl | rfl | rfl | rfl | rfl | rfl
  · exact creditRx_bounds hb h
  · exact ingressRx_bounds hb h
  · exact vcSelect_bounds hb h
  · exact peek_bounds hb h
  · exact routeAll_bounds hb h
  · exact reqBuild_bounds hb h
  · exact mcastWithdraw_bounds hb h
  · exact outArb_bounds hb h
  · exact mcastForce_bounds hb h
  · exact grantFinal_bounds hb h
  · exact grantCommit_bounds hb h
  · exact xbar_bounds hb h
  · exact egressTx_bounds hb h
  · exact creditTx_bounds hb h

/-- The phases of a tick, from any of them on, keep the bounds. -/
theorem runPhases_keeps_bounds {l : List (State → Res)} (hl : l ⊆ phases) {s t : State}
    (hb : Bounded s) (h : runPhases l s = .ok t) : Bounded t :=
  runPhases_keeps (P := Bounded) (fun _ hop _ _ ha hab => phase_keeps_bounds (hl hop) ha hab) hb h

theorem Bounded.beginTick {s : State} (hb : Bounded s) : Bounded (beginTick s) :=
  ⟨hb.ok, hb.router, tickOk_idle _, hb.env⟩

theorem tick_bounds {s t : State} (hb : Bounded s) (h : tick s = .ok t) : Bounded t := by
  obtain ⟨u, hu, rfl⟩ := tick_ok h
  have hbu := runPhases_keeps_bounds (List.Subset.refl _) hb.beginTick hu
  exact ⟨hbu.ok, hbu.router, tickOk_idle _, envOk_draw ..⟩

/-! ### Every other operation keeps the bounds -/

theorem routePort_bounds {op : RouteOp} {p : Nat} {s t : State} (hb : Bounded s) (hp : p < s.par.N)
    (h : routePort op p s = .ok t) : Bounded t := by
  rcases routePort_ok h with ⟨-, rfl⟩ | ⟨v, f, hpeek, ⟨-, rfl⟩ | ⟨hop, x, hx, rfl⟩⟩
  · refine onlyTickValues_bounds hb (onlyTickValues_withTv ..) ?_
    refine { hb.tick with dmShape := ?_, frShape := ?_, frOk := fun q f hf => ?_, dmBound := fun q => ?_ }
    · simpa using hb.tick.dmShape
    · simpa using hb.tick.frShape
    · simp only [TickVals.frAt, State.withTv_tv, entry_set] at hf
      split at hf
      · cases hf
      · exact hb.tick.frOk q f hf
    · simp only [TickVals.dmAt, State.withTv_tv, entry_set]
      split
      · exact Nat.two_pow_pos _
      · exact hb.tick.dmBound q
  · exact hb
  · obtain ⟨hvc, hf⟩ := peeked_eq_some.1 hpeek
    have hv := hb.tick.vcBound p v hvc
    rw [← hop] at hx
    have hx' := routedOk_of_key hb hp hv (hb.tick.fOk p f hf) hx
    have hwrite : ∀ {g : Grid (Option Mask)} {m : Mask}, m < 2 ^ s.par.N →
        (∀ p < s.par.N, ∀ v < s.par.V, ∀ m, cell none g p v = some m → m < 2 ^ s.par.N) →
        ∀ q < s.par.N, ∀ u < s.par.V, ∀ m', cell none (setCell g p v (some m)) q u = some m' →
          m' < 2 ^ s.par.N := by
      intro g m hm hg q hq u hu m' hm'
      rw [cell_setCell] at hm'
      split at hm'
      · exact Option.some.inj hm' ▸ hm
      · exact hg q hq u hu m' hm'
    refine hb.next rfl ?_ ?_ hb.env
    · have hdest : RouterOk s.par { s.r with outDest := (s.writeRouted p v x).r.outDest } := by
        cases hd : x.dest with
        | none => simpa [State.writeRouted, hd] using hb.router
        | some m =>
          simp only [State.writeRouted, hd, State.withTv_r, State.withRouter_r]
          exact hb.router.with_outDest (shaped_setCell hb.router.outDestShape hp)
            (hwrite (hx'.dest m hd) hb.router.outDestBound)
      cases hl : x.loc with
      | none => simpa [State.writeRouted, hl] using hdest
      | some m =>
        simp only [State.writeRouted, hl, State.withTv_r, State.withRouter_r] at hdest ⊢
        exact hdest.with_isLocal (shaped_setCell hb.router.isLocalShape hp)
          (hwrite (hx'.loc m hl) hb.router.isLocalBound)
    · refine { hb.tick with dmShape := ?_, frShape := ?_, frOk := fun q f hf => ?_, dmBound := fun q => ?_ }
      · simpa [State.writeRouted] using hb.tick.dmShape
      · simpa [State.writeRouted] using hb.tick.frShape
      · simp only [State.writeRouted, TickVals.frAt, State.withTv_tv, entry_set] at hf
        split at hf
        · exact Option.some.inj hf ▸ hx'.fr
        · exact hb.tick.frOk q f hf
      · simp only [State.writeRouted, TickVals.dmAt, State.withTv_tv, entry_set]
        split
        · exact hx'.dm
        · exact hb.tick.dmBound q

theorem creditDec_bounds {k v : Nat} {s t : State} (hb : Bounded s) (hk : k < s.par.N)
    (hv : v < s.par.V) (h : creditDec k v s = .ok t) : Bounded t := by
  obtain ⟨-, rfl⟩ := creditDec_ok h
  refine hb.next rfl (hb.router.with_ca (shaped_setCell hb.router.caShape hk) fun k' hk' v' hv' => ?_)
    hb.tick hb.env
  rw [cell_setCell]
  split
  · exact (Nat.sub_le ..).trans (hb.router.caBound k hk v hv)
  · exact hb.router.caBound k' hk' v' hv'

theorem creditOwe_bounds {i v : Nat} {s t : State} (hb : Bounded s) (hi : i < s.par.N)
    (h : creditOwe i v s = .ok t) : Bounded t := by
  obtain ⟨hle, rfl⟩ := creditOwe_ok h
  refine hb.next rfl (hb.router.with_co (shaped_setCell hb.router.coShape hi) fun p hp u hu => ?_)
    hb.tick hb.env
  rw [cell_setCell]
  split
  · exact hle
  · exact hb.router.coBound p hp u hu

theorem hdrRewriteLut_bounds {i k : Nat} {s t : State} (hb : Bounded s)
    (h : hdrRewriteLut i k s = .ok t) : Bounded t := by
  rcases hdrRewriteLut_ok h with rfl | ⟨g, g', -, -, rfl⟩
  · exact hb
  · exact onlyTickValues_bounds hb (onlyTickValues_withTv ..)
      (hb.tick.of_same rfl rfl (by simpa using hb.tick.cpShape) rfl rfl rfl)

/-- A pointer within its range stays there when an entry is moved to a value within it. -/
theorem entry_set_lt {l : List Nat} {n i x b : Nat} (hx : x < b) (h : ∀ j < n, entry 0 l j < b) :
    ∀ j < n, entry 0 (l.set i x) j < b := fun j hj => by
  rw [entry_set]
  split
  · exact hx
  · exact h j hj

theorem arbPick_bounds {a : ArbId} {valid : Mask} {s t : State} (hb : Bounded s)
    (ha : a.wellFormed s.par valid = true) (h : arbPick a valid s = .ok t) : Bounded t := by
  have htv : TickOk s.par t.tv := by
    cases a <;> cases h <;> exact hb.tick.of_same rfl rfl hb.tick.cpShape rfl rfl rfl
  cases a with
  | out k =>
    simp only [ArbId.wellFormed, Bool.and_eq_true, decide_eq_true_eq] at ha
    cases h
    exact hb.next rfl (hb.router.with_arbOut (by simpa using hb.router.arbOutShape)
      (entry_set_lt (pickPtr_lt (hb.router.arbOutBound k ha.1)) hb.router.arbOutBound)) htv hb.env
  | vc p =>
    simp only [ArbId.wellFormed, Bool.and_eq_true, decide_eq_true_eq] at ha
    cases h
    exact hb.next rfl (hb.router.with_arbVc (by simpa using hb.router.arbVcShape)
      (entry_set_lt (pickPtr_lt (hb.router.arbVcBound p ha.1)) hb.router.arbVcBound)) htv hb.env

theorem operation_keeps_bounds {i : Instr} {op : State → Res} (hop : operation i = some op)
    {s t : State} (hi : i.wellFormed s.par = true) (hb : Bounded s) (h : op s = .ok t) :
    Bounded t := by
  cases i with
  | routeSr p => cases hop; exact routePort_bounds hb (of_decide_eq_true hi) h
  | routeLutUcast p => cases hop; exact routePort_bounds hb (of_decide_eq_true hi) h
  | routeLutMcast p => cases hop; exact routePort_bounds hb (of_decide_eq_true hi) h
  | routeHold p => cases hop; exact routePort_bounds hb (of_decide_eq_true hi) h
  | creditDec k v =>
    cases hop
    simp only [Instr.wellFormed, Bool.and_eq_true, decide_eq_true_eq] at hi
    exact creditDec_bounds hb hi.1 hi.2 h
  | creditOwe i v =>
    cases hop
    simp only [Instr.wellFormed, Bool.and_eq_true, decide_eq_true_eq] at hi
    exact creditOwe_bounds hb hi.1 h
  | hdrRewriteLut i k => cases hop; exact hdrRewriteLut_bounds hb h
  | arbPick a valid => cases hop; exact arbPick_bounds hb hi h
  | tick => cases hop; exact tick_bounds hb h
  | _ => cases hop <;> exact phase_keeps_bounds (by simp [phases]) hb h

/-! ### Messages, faults, RESET -/

theorem flitMessage_envOk {par : Params} {e : Env} {p : Nat} {f : Flit} (he : EnvOk par e)
    (hf : flitFits par p f.vc f.payload = true) :
    EnvOk par { e with inFlit := e.inFlit.set p (some f) } := by
  simp only [flitFits, Bool.and_eq_true, decide_eq_true_eq] at hf
  obtain ⟨⟨-, hvc⟩, hx⟩ := hf
  refine ⟨by simpa using he.flitShape, he.creditShape, fun q g hg => ?_⟩
  simp only [Env.flitAt, entry_set] at hg
  split at hg
  · exact Option.some.inj hg ▸ ⟨hvc, hx⟩
  · exact he.flitFits q g hg

theorem offered_inBounds {i : Instr} {s t : State} (hs : InBounds s) (h : Offered i s t) :
    InBounds t := by
  obtain ⟨hr, htv, henv⟩ := hs
  rcases h with ⟨p, f, -, hfits, rfl⟩ | ⟨k, v, a, rfl, hwf, rfl⟩
  · exact ⟨hr, htv, flitMessage_envOk henv hfits⟩
  · simp only [Instr.wellFormed, Bool.and_eq_true, decide_eq_true_eq] at hwf
    exact ⟨hr, htv, henv.flitShape, shaped_setCell henv.creditShape hwf.1, henv.flitFits⟩

theorem raiseFatal_inBounds (s : State) (c : Code) (n : Nat) : InBounds (s.raiseFatal c n) :=
  ⟨nofun, tickOk_idle _, envOk_draw ..⟩

/-- With no configuration fault the latched configuration is in range: `my_id` is not past the groups. -/
theorem cfgOk_latchCfg {par : Params} {c : Cfg} (h : configFault par (latchCfg par c) = none) :
    CfgOk par (latchCfg par c) := by
  intro hlut
  have hid : (latchCfg par c).myId < par.NRD := by
    by_contra hge
    unfold configFault at h
    split at h
    · cases h
    · simp [hlut, not_lt.1 hge] at h
  have hentry : ∀ {n : Nat} {l : List Mask}, ∀ m ∈ (tab n fun j => entry 0 l j % 2 ^ par.N),
      m < 2 ^ par.N := fun m hm => by
    obtain ⟨j, -, rfl⟩ := mem_tab.1 hm
    exact Nat.mod_lt _ (Nat.two_pow_pos _)
  rw [latchCfg_of_isLut hlut] at hid ⊢
  exact ⟨hid, length_tab .., length_tab .., hentry, hentry⟩

theorem routerOk_atReset {par : Params} {c : Cfg} (hok : par.ok = true)
    (h : (Router.atReset par c).fault = none) : RouterOk par (Router.atReset par c) := by
  obtain ⟨hN, hV⟩ := ok_sizes hok
  refine ⟨shaped_tab2 .., shaped_tab2 .., shaped_tab2 .., shaped_tab2 .., shaped_tab2 ..,
    shaped_tab2 .., length_tab .., length_tab .., length_tab .., ?_, ?_, ?_, ?_, ?_, ?_, ?_, ?_, ?_, ?_,
    cfgOk_latchCfg h⟩
  · intro p hp v hv; simp [Router.atReset, Router.qAt, hp, hv]
  · intro p hp v hv f hf; simp [Router.atReset, Router.qAt, hp, hv] at hf
  · intro k hk v hv; simp [Router.atReset, Router.caAt, hk, hv]
  · intro p hp v hv; simp [Router.atReset, Router.coAt, hp, hv]
  · intro p hp v hv m hm; simp [Router.atReset, Router.outDestAt, hp, hv] at hm
  · intro p hp v hv m hm; simp [Router.atReset, Router.isLocalAt, hp, hv] at hm
  · intro k hk; simpa [Router.atReset, Router.arbOutAt, hk] using Nat.lt_of_lt_of_le Nat.zero_lt_one hN
  · intro p hp; simpa [Router.atReset, Router.arbVcAt, hp] using Nat.lt_of_lt_of_le Nat.zero_lt_one hV
  · intro k hk; simp [Router.atReset, Router.eqAt, hk]
  · intro k hk f hf; simp [Router.atReset, Router.eqAt, hk] at hf

/-- Settles O54: RESET, a message, an operation that completes, or a fault. -/
theorem everyStepKeepsTheInvariant : Obligations.EveryStepKeepsTheInvariant := by
  intro s t hs h
  obtain ⟨hok, i, h⟩ := step_next h
  have hs' : InBounds (s.withSel none) := hs
  rcases exec_next h with ⟨-, -, rfl⟩ | hmsg | ⟨op, hop, hi, hf, hrun | ⟨c, n, -, rfl⟩⟩
  · exact ⟨routerOk_atReset hok, tickOk_idle _, envOk_draw ..⟩
  · exact offered_inBounds hs' hmsg
  · exact (operation_keeps_bounds hop hi (hs'.bounded hok hf) hrun).inBounds
  · exact raiseFatal_inBounds ..

/-- Settles O55, by evaluation of the bounds and of the packet order at `State.reset`. -/
theorem resetMeetsTheInvariant : Obligations.ResetMeetsTheInvariant :=
  ⟨inv_of_check (by decide), packetsOk_of_check (by decide)⟩

end Sys2Proof.Machine
end

section
/-! A tick in two halves. `AtGrants` says what the phases P1 to P9, up to the final grants, have made of
the state a tick starts in; `Finished` says what the phases P10 to P13 make of the state at the grants.
Proofs about whole ticks go through the two. -/

namespace Sys2Proof.Machine

/-! ### The phases up to PEEK -/

/-- What the phases P1 to P4 leave: credits and flits taken, a VC chosen and its front flit seen at every
port that holds one. -/
structure AtPeek (s u : State) : Prop where
  par : u.par = s.par
  router : u.r = { s.r with ca := u.r.ca, q := u.r.q, arbVc := u.r.arbVc }
  env : u.env = { s.env with inCredit := u.env.inCredit, inFlit := u.env.inFlit }
  ca : ∀ k < s.par.N, ∀ v < s.par.V, u.r.caAt k v = s.r.caAt k v + amountAt s.env k v
  queue : ∀ p < s.par.N, ∀ v < s.par.V, u.r.qAt p v = s.r.qAt p v ++ (arrival s p v).toList
  pushed : ∀ p < s.par.N, ∀ v < s.par.V, u.tv.pushedAt p v = (arrival s p v).isSome
  chosen : ∀ p v, u.tv.vcAt p = some v → p < s.par.N ∧ v < s.par.V ∧
    ∃ f, u.tv.fAt p = some f ∧ (u.r.qAt p v).head? = some f
  seen : ∀ p f, u.tv.fAt p = some f → ∃ v, u.tv.vcAt p = some v

theorem atPeek_of_phases {s s1 s2 s3 u : State} (h1 : creditRx s = .ok s1) (h2 : ingressRx s1 = .ok s2)
    (h3 : vcSelect s2 = .ok s3) (h4 : peek s3 = .ok u) : AtPeek s u := by
  have hchosen := fun p v => vcSelect_vcAt (p := p) (v := v) h3
  obtain ⟨-, hca, hr1, -, henv1, htv1, hpar1, -⟩ := creditRx_ok h1
  obtain ⟨-, hq, -, hr2, -, henv2, htv2, hpar2, -⟩ := ingressRx_ok h2
  obtain ⟨-, -, hr3, -, henv3, htv3, hpar3, -⟩ := vcSelect_ok h3
  obtain ⟨-, hf, hfout, htv4, ⟨hpar4, -⟩, hr4, henv4⟩ := peek_ok h4
  have hpar : s3.par = s.par := hpar3.trans (hpar2.trans hpar1)
  have harrival : arrival s1 = arrival s := by
    funext p v
    simp only [arrival, Env.flitAt, congrArg Env.inFlit henv1]
  have hvc : ∀ p, u.tv.vcAt p = s3.tv.vcAt p := fun p => by rw [htv4]; rfl
  have hqAt : ∀ p v, u.r.qAt p v = s2.r.qAt p v := fun p v => by rw [hr4, hr3]; rfl
  have hfAt : ∀ p v, s3.tv.vcAt p = some v → p < s.par.N →
      u.tv.fAt p = (s2.r.qAt p v).head? := fun p v hv hp => by
    rw [hf p (hpar ▸ hp), hv, Option.bind_some, ← hqAt, hr4]
  rw [hpar1] at hq
  refine ⟨hpar4.trans hpar, ?_, ?_, fun k hk v hv => ?_, fun p hp v hv => ?_, fun p hp v hv => ?_,
    fun p v hv => ?_, fun p f hpf => ?_⟩
  · rw [hr4, hr3, hr2, hr1]
  · rw [henv4, henv3, henv2, henv1]
  · rw [hr4, hr3, hr2]
    exact (hca k hk v hv).1
  · rw [hqAt, (hq p hp v hv).1, harrival, hr1]
    rfl
  · rw [htv4, htv3, ← harrival]
    exact (hq p hp v hv).2
  · rw [hvc] at hv
    obtain ⟨hp, hvV, hne⟩ := hchosen p v hv
    rw [hpar2, hpar1] at hp hvV
    obtain ⟨f, hhead⟩ := Option.ne_none_iff_exists'.1 (mt List.head?_eq_none_iff.1 hne)
    exact ⟨hp, hvV, f, (hfAt p v hv hp).trans hhead, by rw [hqAt, hhead]⟩
  · by_cases hp : p < s3.par.N
    · rw [hf p hp] at hpf
      obtain ⟨v, hv, -⟩ := Option.bind_eq_some_iff.1 hpf
      exact ⟨v, (hvc p).trans hv⟩
    · rw [hfout p (not_lt.1 hp)] at hpf
      cases hpf

/-! ### The phases from the routes to the grants -/

/-- What the phases P6 to P9 write: the output pointers and the tick's values of the grant protocol. -/
structure Arbitrated (a u : State) : Prop where
  par : u.par = a.par
  router : u.r = { a.r with arbOut := u.r.arbOut }
  env : u.env = a.env
  tick : u.tv = { a.tv with
    req := u.tv.req, ok := u.tv.ok, req2 := u.tv.req2, win := u.tv.win, sel := u.tv.sel,
    claimed := u.tv.claimed, full := u.tv.full, grant := u.tv.grant }

theorem arbitrated_of_phases {a s6 s7 s8 s9 u : State} (h6 : reqBuild a = .ok s6)
    (h7 : mcastWithdraw s6 = .ok s7) (h8 : outArb s7 = .ok s8) (h9 : mcastForce s8 = .ok s9)
    (h10 : grantFinal s9 = .ok u) : Arbitrated a u := by
  cases h6; cases h7; cases h8; cases h9; cases h10
  exact ⟨rfl, rfl, rfl, rfl⟩

/-- What the route operations of a tick leave, for the VC of a port and for the others. -/
structure Routes (s u : State) : Prop where
  routed : ∀ p v f, u.tv.vcAt p = some v → u.tv.fAt p = some f →
    ∃ x, Machine.routed s (keyOp (routeKey s.par f)) p v f = .ok x ∧ u.tv.dmAt p = x.dm ∧
      u.tv.frAt p = some x.fr ∧ u.r.outDestAt p v = x.dest.or (s.r.outDestAt p v) ∧
      u.r.isLocalAt p v = x.loc.or (s.r.isLocalAt p v)
  unrouted : ∀ p, u.tv.vcAt p = none → u.tv.dmAt p = 0 ∧ u.tv.frAt p = none
  stored : ∀ p < s.par.N, ∀ v < s.par.V, u.tv.vcAt p ≠ some v →
    u.r.outDestAt p v = s.r.outDestAt p v ∧ u.r.isLocalAt p v = s.r.isLocalAt p v

/-- A route operation reads of the state the parameters, the configuration and the stored masks. -/
theorem routed_congr {s a : State} (hpar : a.par = s.par) (hcfg : a.r.cfg = s.r.cfg)
    (hdest : a.r.outDest = s.r.outDest) : routed a = routed s := by
  funext op p v f
  cases op <;> simp only [routed, Router.outDestAt, hpar, hcfg, hdest]

theorem routes_of_phase {s a u : State} (ha : AtPeek s a) (h : routeAll a = .ok u) : Routes s u := by
  obtain ⟨hstop, hport, hout, hmask, hr, -, -, htv, -⟩ := routeAll_ok h
  have hrouted : Machine.routed a = Machine.routed s :=
    routed_congr ha.par (by rw [ha.router]) (by rw [ha.router])
  have hvc : ∀ p, u.tv.vcAt p = a.tv.vcAt p := fun p => by rw [htv]; rfl
  have hf : ∀ p, u.tv.fAt p = a.tv.fAt p := fun p => by rw [htv]; rfl
  have hdest : ∀ p v, a.r.outDestAt p v = s.r.outDestAt p v := fun p v => by rw [ha.router]; rfl
  have hloc : ∀ p v, a.r.isLocalAt p v = s.r.isLocalAt p v := fun p v => by rw [ha.router]; rfl
  rw [ha.par] at hstop hport hout hmask
  refine ⟨fun p v f hv hpf => ?_, fun p hv => ?_, fun p hp v hvV hne => ?_⟩
  · rw [hvc] at hv
    rw [hf] at hpf
    obtain ⟨hp, hvV, -⟩ := ha.chosen p v hv
    have hpeek := peeked_of_some hv hpf
    rcases portResult_of_routeStop (hstop p hp) with ⟨hnone, -⟩ | ⟨v', f', x, hpeek', hx, hres⟩
    · rw [hpeek] at hnone; cases hnone
    · rw [hpeek] at hpeek'
      cases hpeek'
      obtain ⟨hdm, hfr⟩ := hport p hp
      obtain ⟨hd, hl⟩ := hmask p hp v hvV
      rw [hres] at hdm hfr hd hl
      rw [hrouted, ha.par] at hx
      exact ⟨x, hx, hdm, hfr, by rw [hd, afterWrite, if_pos rfl, hdest],
        by rw [hl, afterWrite, if_pos rfl, hloc]⟩
  · rw [hvc] at hv
    by_cases hp : p < s.par.N
    · have hnone : portResult a p = none := by
        simp [portResult, portRouted, peeked_eq_none.2 (.inl hv)]
      obtain ⟨hdm, hfr⟩ := hport p hp
      rw [hnone] at hdm hfr
      exact ⟨hdm, hfr⟩
    · exact hout p (not_lt.1 hp)
  · rw [hvc] at hne
    rw [(hmask p hp v hvV).1, (hmask p hp v hvV).2, ← hdest, ← hloc]
    rcases portResult_of_routeStop (hstop p hp) with ⟨-, hnone⟩ | ⟨v', f', x, hpeek, -, hres⟩
    · rw [hnone]
      exact ⟨rfl, rfl⟩
    · have hv' : v' ≠ v := fun heq => hne (heq ▸ (peeked_eq_some.1 hpeek).1)
      rw [hres, afterWrite, afterWrite, if_neg hv', if_neg hv']
      exact ⟨rfl, rfl⟩

/-- What a tick has made of the state `s` it starts in when its final grants are there (P1 to P9). -/
structure AtGrants (s u : State) : Prop extends Routes s u where
  par : u.par = s.par
  ca : ∀ k < s.par.N, ∀ v < s.par.V, u.r.caAt k v = s.r.caAt k v + amountAt s.env k v
  queue : ∀ p < s.par.N, ∀ v < s.par.V, u.r.qAt p v = s.r.qAt p v ++ (arrival s p v).toList
  pushed : ∀ p < s.par.N, ∀ v < s.par.V, u.tv.pushedAt p v = (arrival s p v).isSome
  co : ∀ p v, u.r.coAt p v = s.r.coAt p v
  eq : ∀ k, u.r.eqAt k = s.r.eqAt k
  igp : ∀ k v, u.r.igpAt k v = s.r.igpAt k v
  ready : ∀ k, u.env.readyAt k = s.env.readyAt k
  creditReady : ∀ p v, u.env.creditReadyAt p v = s.env.creditReadyAt p v
  chosen : ∀ p v, u.tv.vcAt p = some v → p < s.par.N ∧ v < s.par.V ∧
    ∃ f, u.tv.fAt p = some f ∧ (u.r.qAt p v).head? = some f
  seen : ∀ p f, u.tv.fAt p = some f → ∃ v, u.tv.vcAt p = some v
  full : ∀ i < s.par.N, u.tv.fullAt i = true → u.tv.dmAt i ≠ 0 ∧ ∃ v, u.tv.vcAt i = some v
  grant : ∀ i < s.par.N, ∀ k < s.par.N,
    u.tv.grantAt i k = (u.tv.fullAt i && (u.tv.dmAt i).testBit k)
  asked : ∀ i < s.par.N, ∀ k < s.par.N, u.tv.grantAt i k = true → request u i k = true
  alone : ∀ i < s.par.N, ∀ j < s.par.N, ∀ k < s.par.N, u.tv.grantAt i k = true →
    u.tv.grantAt j k = true → i = j

/-- The states between the phases up to the final grants. -/
theorem phases_until_grants_ok {s u : State} (h : runPhases (phases.take 10) s = .ok u) :
    ∃ s1 s2 s3 s4 s5 s6 s7 s8 s9, creditRx s = .ok s1 ∧ ingressRx s1 = .ok s2 ∧
      vcSelect s2 = .ok s3 ∧ peek s3 = .ok s4 ∧ routeAll s4 = .ok s5 ∧ reqBuild s5 = .ok s6 ∧
      mcastWithdraw s6 = .ok s7 ∧ outArb s7 = .ok s8 ∧ mcastForce s8 = .ok s9 ∧
      grantFinal s9 = .ok u := by
  obtain ⟨s1, h1, h⟩ := runPhases_cons_ok h
  obtain ⟨s2, h2, h⟩ := runPhases_cons_ok h
  obtain ⟨s3, h3, h⟩ := runPhases_cons_ok h
  obtain ⟨s4, h4, h⟩ := runPhases_cons_ok h
  obtain ⟨s5, h5, h⟩ := runPhases_cons_ok h
  obtain ⟨s6, h6, h⟩ := runPhases_cons_ok h
  obtain ⟨s7, h7, h⟩ := runPhases_cons_ok h
  obtain ⟨s8, h8, h⟩ := runPhases_cons_ok h
  obtain ⟨s9, h9, h⟩ := runPhases_cons_ok h
  obtain ⟨s10, h10, h⟩ := runPhases_cons_ok h
  cases h
  exact ⟨s1, s2, s3, s4, s5, s6, s7, s8, s9, h1, h2, h3, h4, h5, h6, h7, h8, h9, h10⟩

/-- The route operations' results are as the grant protocol finds them. -/
theorem Routes.arbitrated {s a u : State} (h : Routes s a) (hu : Arbitrated a u) : Routes s u where
  routed p v f hv hf := by
    rw [hu.tick] at hv hf ⊢
    rw [hu.router]
    exact h.routed p v f hv hf
  unrouted p hv := by
    rw [hu.tick] at hv ⊢
    exact h.unrouted p hv
  stored p hp v hv hne := by
    rw [hu.tick] at hne
    rw [hu.router]
    exact h.stored p hp v hv hne

theorem atGrants {s u : State} (h : runPhases (phases.take 10) (beginTick s) = .ok u) :
    AtGrants s u := by
  obtain ⟨s1, s2, s3, s4, s5, s6, s7, s8, s9, h1, h2, h3, h4, h5, h6, h7, h8, h9, h10⟩ :=
    phases_until_grants_ok h
  have hpeek : AtPeek (beginTick s) s4 := atPeek_of_phases h1 h2 h3 h4
  have harb : Arbitrated s5 u := arbitrated_of_phases h6 h7 h8 h9 h10
  have hroutes : Routes (beginTick s) u := (routes_of_phase hpeek h5).arbitrated harb
  obtain ⟨-, -, -, -, hr5, -, -, htv5, henv5, hpar5, -⟩ := routeAll_ok h5
  obtain ⟨hfinal, htv10, ⟨hpar10, -⟩, -⟩ := grantFinal_ok h10
  have hpar : u.par = s.par := harb.par.trans (hpar5.trans hpeek.par)
  have hr : u.r = { s4.r with
      outDest := u.r.outDest, isLocal := u.r.isLocal, arbOut := u.r.arbOut } := by
    rw [harb.router, hr5]
  have henv : u.env = s4.env := harb.env.trans henv5
  have hvc : ∀ p, u.tv.vcAt p = s4.tv.vcAt p := fun p => by rw [harb.tick, htv5]; rfl
  have hf : ∀ p, u.tv.fAt p = s4.tv.fAt p := fun p => by rw [harb.tick, htv5]; rfl
  have hq : ∀ p v, u.r.qAt p v = s4.r.qAt p v := fun p v => by rw [hr]; rfl
  rw [← hpar10, hpar] at hfinal
  refine
    { toRoutes := ⟨hroutes.routed, hroutes.unrouted, hroutes.stored⟩
      par := hpar
      ca := fun k hk v hv => by rw [hr]; exact hpeek.ca k hk v hv
      queue := fun p hp v hv => by rw [hr]; exact hpeek.queue p hp v hv
      pushed := fun p hp v hv => by rw [harb.tick, htv5]; exact hpeek.pushed p hp v hv
      co := fun p v => by rw [hr, hpeek.router]; rfl
      eq := fun k => by rw [hr, hpeek.router]; rfl
      igp := fun k v => by rw [hr, hpeek.router]; rfl
      ready := fun k => by rw [henv, hpeek.env]; rfl
      creditReady := fun p v => by rw [henv, hpeek.env]; rfl
      chosen := fun p v hv => ?_
      seen := fun p f hpf => ?_
      full := fun i hi hfull => ?_
      grant := fun i hi k hk => ?_
      asked := fun i hi k hk => request_of_grantAt h (hpar ▸ hi) (hpar ▸ hk)
      alone := fun i hi j hj k hk => eq_of_grantAt h (hpar ▸ hi) (hpar ▸ hj) (hpar ▸ hk) }
  · rw [hvc] at hv
    rw [hf, hq]
    exact hpeek.chosen p v hv
  · rw [hf] at hpf
    rw [hvc]
    exact hpeek.seen p f hpf
  · obtain ⟨hvalid, hdm, -⟩ := grantedWhole_iff.1 ((hfinal i hi).1 ▸ hfull)
    rw [htv10]
    exact ⟨hdm, Option.isSome_iff_exists.1 hvalid⟩
  · obtain ⟨hfull, hleg⟩ := hfinal i hi
    rw [hleg k hk, hfull, htv10]
    rfl

/-- The VC and the flit of a granted input: the front of its queue, which the tick pops. -/
theorem AtGrants.granted_flit {s u : State} (h : AtGrants s u) {i : Nat} (hi : i < s.par.N)
    (hfull : u.tv.fullAt i = true) :
    ∃ v f, v < s.par.V ∧ u.tv.vcAt i = some v ∧ u.tv.fAt i = some f ∧
      (u.r.qAt i v).head? = some f := by
  obtain ⟨-, v, hv⟩ := h.full i hi hfull
  obtain ⟨-, hvV, f, hf, hhead⟩ := h.chosen i v hv
  exact ⟨v, f, hvV, hv, hf, hhead⟩

theorem AtGrants.fullAt_of_grantAt {s u : State} (h : AtGrants s u) {i k : Nat} (hi : i < s.par.N)
    (hk : k < s.par.N) (hg : u.tv.grantAt i k = true) :
    u.tv.fullAt i = true ∧ (u.tv.dmAt i).testBit k = true := by
  rw [h.grant i hi k hk, Bool.and_eq_true] at hg
  exact hg

theorem AtGrants.commitsTo_unique {s u : State} (h : AtGrants s u) {k v : Nat} (hk : k < s.par.N) :
    ∀ a < s.par.N, ∀ b < s.par.N, commitsTo u a k v = true → commitsTo u b k v = true → a = b := by
  intro a ha b hb hca hcb
  obtain ⟨-, -, hga⟩ := commitsTo_iff.1 hca
  obtain ⟨-, -, hgb⟩ := commitsTo_iff.1 hcb
  exact h.alone a ha b hb k hk hga hgb

/-! ### GRANT.COMMIT to the end of the tick -/

/-- The credits a pair owes once GRANT.COMMIT has counted the flit it popped (R139). -/
def owedAt (u : State) (p v : Nat) : Nat := u.r.coAt p v + (commits u p v).toNat

/-- The staging queue of an output with the copy XBAR made for it (R166). -/
def stagedAt (u : State) (k : Nat) : List Flit := u.r.eqAt k ++ (xbarFlit u k).toList

/-- What the phases P10 to P13 and the end of the tick make of the state `u` at the grants; `o` is the
output record. -/
structure Finished (u t : State) (o : Out) : Prop where
  par : t.par = u.par
  out : t.out = some o
  noStop : ∀ i < u.par.N, commitStop u i = none
  copied : ∀ k < u.par.N, xbarStop u k = none
  queue : ∀ p < u.par.N, ∀ v < u.par.V,
    t.r.qAt p v = if commits u p v then (u.r.qAt p v).tail else u.r.qAt p v
  offered : ∀ p < u.par.N, ∀ v < u.par.V,
    cell none o.credit p v = if 0 < owedAt u p v then some 1 else none
  accepted : ∀ p < u.par.N, ∀ v < u.par.V,
    creditAccepted o u.env p v = (decide (0 < owedAt u p v) && u.env.creditReadyAt p v).toNat
  owed : ∀ p < u.par.N, ∀ v < u.par.V, t.r.coAt p v = owedAt u p v - creditAccepted o u.env p v
  charged : ∀ k < u.par.N, ∀ v < u.par.V,
    moved u k v ≤ u.r.caAt k v ∧ t.r.caAt k v = u.r.caAt k v - moved u k v
  flag : ∀ k < u.par.N, ∀ v < u.par.V, t.r.igpAt k v = igpAfter u k v
  front : ∀ k < u.par.N, entry none o.flit k = (stagedAt u k).head?
  delivered : ∀ k < u.par.N,
    entry false o.delivered k = ((stagedAt u k).head?.isSome && u.env.readyAt k)
  staged : ∀ k < u.par.N,
    t.r.eqAt k = if entry false o.delivered k then (stagedAt u k).tail else stagedAt u k
  router : t.r = { u.r with
    q := t.r.q, co := t.r.co, ca := t.r.ca, igp := t.r.igp, eq := t.r.eq }

/-- XBAR reads nothing that GRANT.COMMIT writes. -/
theorem xbar_reads_after_grantCommit {u c : State} (h : grantCommit u = .ok c) :
    xbarFlit c = xbarFlit u ∧ xbarStop c = xbarStop u := by
  obtain ⟨-, rfl⟩ := unlessStop_ok.1 h
  exact ⟨rfl, rfl⟩

theorem finished_of_phases {u c d e w : State} (hc : grantCommit u = .ok c) (hd : xbar c = .ok d)
    (he : egressTx d = .ok e) (hw : creditTx e = .ok w) : Finished u (finishTick w) w.tv.out := by
  obtain ⟨hflit, hxstop⟩ := xbar_reads_after_grantCommit hc
  obtain ⟨hstop, hcharge, hcommit, hr1, -, -, -, -, htv1, henv1, hpar1, -⟩ := grantCommit_ok hc
  obtain ⟨hroom, heq, hr2, -, htv2, henv2, hpar2, -⟩ := xbar_ok hd
  obtain ⟨htx, hr3, -, henv3, htv3, hpar3, -⟩ := egressTx_ok he
  obtain ⟨hcredit, hr4, -, henv4, htv4, hpar4, -⟩ := creditTx_ok hw
  have henvd : d.env = u.env := henv2.trans henv1
  have henve : e.env = u.env := henv3.trans henvd
  have hco : ∀ p < u.par.N, ∀ v < u.par.V, e.r.coAt p v = owedAt u p v := fun p hp v hv => by
    rw [hr3, hr2]
    show c.r.coAt p v = owedAt u p v
    cases hcm : commits u p v with
    | true => rw [((hcommit p hp v hv).1 hcm).2, owedAt, hcm]; rfl
    | false => rw [((hcommit p hp v hv).2 hcm).2, owedAt, hcm]; rfl
  have hstaged : ∀ k < u.par.N, d.r.eqAt k = stagedAt u k := fun k hk => by
    rw [heq k (hpar1 ▸ hk), hflit, hr1]
    rfl
  rw [hpar1, hxstop] at hroom
  rw [hpar2, hpar1] at htx
  rw [hpar3, hpar2, hpar1, henve] at hcredit
  have haccepted : ∀ p < u.par.N, ∀ v < u.par.V, creditAccepted w.tv.out u.env p v =
      (decide (0 < owedAt u p v) && u.env.creditReadyAt p v).toNat := fun p hp v hv => by
    rw [creditAccepted, (hcredit p hp v hv).1, hco p hp v hv]
    by_cases h0 : 0 < owedAt u p v <;> simp [h0]
  refine
    { par := hpar4.trans (hpar3.trans (hpar2.trans hpar1))
      out := rfl
      noStop := hstop
      copied := hroom
      queue := fun p hp v hv => ?_
      offered := fun p hp v hv => by rw [(hcredit p hp v hv).1, hco p hp v hv]
      accepted := haccepted
      owed := fun p hp v hv => ?_
      charged := fun k hk v hv => ?_
      flag := fun k hk v hv => ?_
      front := fun k hk => ?_
      delivered := fun k hk => ?_
      staged := fun k hk => ?_
      router := ?_ }
  · rw [finishTick_r, hr4, hr3, hr2]
    show c.r.qAt p v = _
    cases hcm : commits u p v with
    | true => exact ((hcommit p hp v hv).1 hcm).1
    | false => exact ((hcommit p hp v hv).2 hcm).1
  · rw [finishTick_r, (hcredit p hp v hv).2, hco p hp v hv, haccepted p hp v hv]
  · obtain ⟨hle, hca, -⟩ := hcharge k hk v hv
    rw [finishTick_r, hr4, hr3, hr2]
    exact ⟨hle, hca⟩
  · rw [finishTick_r, hr4, hr3, hr2]
    exact (hcharge k hk v hv).2.2
  · rw [htv4, ← hstaged k hk]
    exact (htx k hk).1
  · rw [htv4, ← hstaged k hk, ← henvd]
    exact (htx k hk).2.1
  · obtain ⟨-, hdel, hq⟩ := htx k hk
    rw [finishTick_r, hr4, htv4, ← hstaged k hk]
    show e.r.eqAt k = if entry false e.tv.out.delivered k then _ else _
    rw [hdel, hq]
  · rw [finishTick_r, hr4, hr3, hr2, hr1]

/-- A tick that completes, cut at its final grants. -/
theorem tick_cut {s t : State} (h : tick s = .ok t) :
    ∃ u o, runPhases (phases.take 10) (beginTick s) = .ok u ∧ Finished u t o := by
  obtain ⟨w, hw, rfl⟩ := tick_ok h
  rw [← List.take_append_drop 10 phases, runPhases_append] at hw
  cases hu : runPhases (phases.take 10) (beginTick s) with
  | error e => rw [hu] at hw; cases hw
  | ok u =>
    rw [hu] at hw
    obtain ⟨c, hc, hw⟩ := runPhases_cons_ok hw
    obtain ⟨d, hd, hw⟩ := runPhases_cons_ok hw
    obtain ⟨e, he, hw⟩ := runPhases_cons_ok hw
    obtain ⟨w', hw', hw⟩ := runPhases_cons_ok hw
    cases hw
    exact ⟨u, w.tv.out, rfl, finished_of_phases hc hd he hw'⟩

/-- A tick without fault, cut at its final grants, with the grants and the output record it names. -/
theorem exec_tick_cut {s t : State} (h : exec .tick s = .next t) (hnf : t.r.fault = none) :
    ∃ u o, runPhases (phases.take 10) (beginTick s) = .ok u ∧ AtGrants s u ∧ Finished u t o := by
  obtain ⟨u, o, hu, hfin⟩ := tick_cut (tick_ok_of_no_fault h hnf)
  exact ⟨u, o, hu, atGrants hu, hfin⟩

theorem exec_tick_not_faulted {s t : State} (h : exec .tick s = .next t) : s.r.fault = none :=
  (runOp_next h).1

end Sys2Proof.Machine
end

section
/-! What a tick keeps (43_credit_flow.md R156, R157; 46_router_tick.md R194; 41_route_resolver.md R120):
the conservation laws of credits, the order and the number of the flits it moves, and the return of an
owed credit. -/

namespace Sys2Proof.Machine

/-! ### The inner values of a tick -/

/-- Settles O41: a tick starts on fresh values whatever stands there, and ends with none. -/
theorem tickCarriesNoInnerValueOver : Obligations.TickCarriesNoInnerValueOver := by
  intro s t x h
  obtain ⟨hf, hok | ⟨c, n, herr, rfl⟩⟩ := runOp_next h
  · have hsame : tick (s.withTv x) = .ok t := hok
    refine ⟨runOp_of_ok (s := s.withTv x) hf hsame, ?_⟩
    obtain ⟨hpar, -⟩ := tick_keeps_setup hok
    obtain ⟨u, -, rfl⟩ := tick_ok hok
    rw [finishTick_tv, ← hpar, finishTick_par]
  · have hsame : tick (s.withTv x) = .error (.raise c n) := herr
    exact ⟨runOp_of_raise (s := s.withTv x) hf hsame, rfl⟩

/-! ### The flits a tick moves -/

/-- At most one queue of a port is popped, that of the VC its granted flit is on. -/
theorem commits_of_other_vc {u : State} {p v w : Nat} (hv : u.tv.vcAt p = some v) (hne : w ≠ v) :
    commits u p w = false :=
  Bool.eq_false_iff.2 fun hc => hne (Option.some.inj ((commits_iff.1 hc).2.symm.trans hv))

theorem commits_of_no_vc {u : State} {p w : Nat} (hv : u.tv.vcAt p = none) :
    commits u p w = false :=
  Bool.eq_false_iff.2 fun hc => by
    have := (commits_iff.1 hc).2
    rw [hv] at this
    cases this

/-- The queue of a pair after the tick, from the queue before it: the arriving flit at its end, and its
front gone where it was granted. -/
theorem queue_after_tick {s u t : State} {o : Out} (hg : AtGrants s u) (hfin : Finished u t o)
    {p v : Nat} (hp : p < s.par.N) (hv : v < s.par.V) :
    t.r.qAt p v =
      if commits u p v then (s.r.qAt p v ++ (arrival s p v).toList).tail
      else s.r.qAt p v ++ (arrival s p v).toList := by
  rw [hfin.queue p (hg.par ▸ hp) v (hg.par ▸ hv), hg.queue p hp v hv]

theorem length_toList_le_one {α : Type} (o : Option α) : o.toList.length ≤ 1 := by
  cases o <;> simp

/-- Settles O50: the queue popped is that of the chosen VC, and XBAR stages one copy at most. -/
theorem tickMovesAtMostOneFlitPerPort : Obligations.TickMovesAtMostOneFlitPerPort := by
  intro s t o _ _ h hnf hout
  obtain ⟨u, o', -, hg, hfin⟩ := exec_tick_cut h hnf
  obtain rfl : o' = o := Option.some.inj (hfin.out.symm.trans hout)
  refine ⟨fun p hp => ?_, fun k hk => ?_⟩
  · obtain ⟨v, hother⟩ : ∃ v, ∀ w, w ≠ v → commits u p w = false := by
      cases hv : u.tv.vcAt p with
      | none => exact ⟨0, fun w _ => commits_of_no_vc hv⟩
      | some v => exact ⟨v, fun w => commits_of_other_vc hv⟩
    refine ⟨v, fun w hw => ?_⟩
    rw [queue_after_tick hg hfin hp hw]
    refine ⟨fun hne => by rw [hother w hne]; rfl, ?_⟩
    cases commits u p w
    · exact .inl rfl
    · exact .inr rfl
  · have hk' : k < u.par.N := hg.par ▸ hk
    have hstaged : stagedAt u k = s.r.eqAt k ++ (xbarFlit u k).toList := by rw [stagedAt, hg.eq]
    refine ⟨(xbarFlit u k).toList, length_toList_le_one _, ?_, ?_⟩
    · rw [hfin.front k hk', hstaged]
    · rw [hfin.staged k hk', hstaged]

/-! ### A header with the all-zero mask -/

/-- The mask of a routed header is the one R111, R114 or R116 gives its payload. -/
theorem dm_eq_zero_of_header {s : State} {p v : Nat} {f : Flit} {x : Routed} (hh : isHeader f = true)
    (hsr : s.par.isLut = false → srMask s.par (routeField s.par f.payload) = 0)
    (huc : s.par.isLut = true → f.payload.testBit s.par.MF = false →
      ucastMask s.par s.r.cfg f.payload = 0)
    (hmc : s.par.isLut = true → f.payload.testBit s.par.MF = true →
      mcastLocalMask s.par s.r.cfg f.payload = 0 ∧ mcastRemoteMask s.par s.r.cfg f.payload = 0)
    (hx : routed s (keyOp (routeKey s.par f)) p v f = .ok x) : x.dm = 0 := by
  cases hlut : s.par.isLut with
  | false =>
    rw [keyOp_of_sr hh hlut] at hx
    cases hx
    exact hsr hlut
  | true =>
    cases hmf : f.payload.testBit s.par.MF with
    | false =>
      rw [keyOp_of_ucast hh hlut hmf] at hx
      cases hx
      exact huc hlut hmf
    | true =>
      obtain ⟨hl, hr⟩ := hmc hlut hmf
      rw [keyOp_of_mcast hh hlut hmf] at hx
      cases hx
      simp [routedMcast, hl, hr]

/-- Settles O49: a granted input has a mask that is not 0, so a header that resolves to 0 is not granted
and its queue is not popped. -/
theorem zeroMaskStallsItsQueue : Obligations.ZeroMaskStallsItsQueue := by
  intro s t p v f _ _ hp hv hfront hh hsr huc hmc h hnf
  obtain ⟨u, o, -, hg, hfin⟩ := exec_tick_cut h hnf
  have hstall : commits u p v = false := Bool.eq_false_iff.2 fun hc => by
    obtain ⟨hfull, hvc⟩ := commits_iff.1 hc
    obtain ⟨-, -, g, hseen, hhead⟩ := hg.chosen p v hvc
    obtain rfl : f = g := by
      rw [hg.queue p hp v hv, List.head?_append, hfront, Option.some_or] at hhead
      exact Option.some.inj hhead
    obtain ⟨x, hx, hdm, -⟩ := hg.routed p v f hvc hseen
    exact (hg.full p hp hfull).1 (hdm.trans (dm_eq_zero_of_header hh hsr huc hmc hx))
  rw [queue_after_tick hg hfin hp hv, hstall, if_neg Bool.false_ne_true]
  congr 1
  unfold arrival
  cases s.env.flitAt p with
  | none => rfl
  | some g => by_cases hvc : g.vc = v <;> simp [hvc]

/-! ### The ingress side of the conservation law -/

theorem length_arrival (s : State) (p v : Nat) :
    (arrival s p v).toList.length = (((s.env.flitAt p).map fun f => f.vc == v).getD false).toNat := by
  unfold arrival
  cases s.env.flitAt p with
  | none => rfl
  | some f => by_cases hvc : f.vc = v <;> simp [hvc, beq_eq_false_iff_ne.2]

/-- A queue that GRANT.COMMIT pops holds a flit. -/
theorem length_of_commits {s u : State} (hg : AtGrants s u) {p v : Nat}
    (hc : commits u p v = true) : 1 ≤ (u.r.qAt p v).length := by
  obtain ⟨-, hvc⟩ := commits_iff.1 hc
  obtain ⟨-, -, f, -, hhead⟩ := hg.chosen p v hvc
  exact List.length_pos_iff.2 fun hnil => by rw [hnil] at hhead; cases hhead

theorem creditAccepted_congr {o : Out} {e e' : Env} {p v : Nat}
    (h : e.creditReadyAt p v = e'.creditReadyAt p v) :
    creditAccepted o e p v = creditAccepted o e' p v := by
  rw [creditAccepted, creditAccepted, h]

theorem creditAccepted_le_owed {u t : State} {o : Out} (hfin : Finished u t o) {p v : Nat}
    (hp : p < u.par.N) (hv : v < u.par.V) : creditAccepted o u.env p v ≤ owedAt u p v := by
  rw [hfin.accepted p hp v hv]
  by_cases h : 0 < owedAt u p v
  · exact (Bool.toNat_le _).trans h
  · simp [h]

/-- Queued flits, owed credits and the accepted credit of one pair over one tick (R157). -/
theorem ingress_balance {s u t : State} {o : Out} (hg : AtGrants s u) (hfin : Finished u t o)
    {p v : Nat} (hp : p < s.par.N) (hv : v < s.par.V) :
    (t.r.qAt p v).length + t.r.coAt p v + creditAccepted o s.env p v =
      (s.r.qAt p v).length + s.r.coAt p v + (arrival s p v).toList.length := by
  have hp' : p < u.par.N := hg.par ▸ hp
  have hv' : v < u.par.V := hg.par ▸ hv
  have haccept := creditAccepted_le_owed hfin hp' hv'
  have hlen : (u.r.qAt p v).length = (s.r.qAt p v).length + (arrival s p v).toList.length := by
    rw [hg.queue p hp v hv, List.length_append]
  have hpop : (t.r.qAt p v).length + (commits u p v).toNat = (u.r.qAt p v).length := by
    rw [hfin.queue p hp' v hv']
    cases hc : commits u p v with
    | false => rfl
    | true =>
      have := length_of_commits hg hc
      simp only [if_true, List.length_tail, Bool.toNat_true]
      omega
  rw [creditAccepted_congr (e' := u.env) (hg.creditReady p v).symm, hfin.owed p hp' v hv']
  rw [owedAt, hg.co] at haccept ⊢
  omega

/-- Settles O46. -/
theorem tickConservesIngressCredits : Obligations.TickConservesIngressCredits := by
  intro s t o _ _ h hnf hout p hp v hv
  obtain ⟨u, o', -, hg, hfin⟩ := exec_tick_cut h hnf
  obtain rfl : o' = o := Option.some.inj (hfin.out.symm.trans hout)
  rw [← length_arrival]
  exact ingress_balance hg hfin hp hv

/-! ### The egress side of the conservation law -/

/-- A route operation forwards the flit with its tag and on its VC. -/
theorem routed_keeps_vc {s : State} {op : RouteOp} {p v : Nat} {f : Flit} {x : Routed}
    (hx : routed s op p v f = .ok x) : x.fr.vc = f.vc ∧ x.fr.pos = f.pos := by
  cases op with
  | sr => cases hx; exact ⟨rfl, rfl⟩
  | ucast => cases hx; exact ⟨rfl, rfl⟩
  | mcast => cases hx; exact ⟨rfl, rfl⟩
  | hold =>
    cases hd : s.r.outDestAt p v with
    | none => rw [routed_hold_of_none hd] at hx; cases hx
    | some m =>
      rw [routed_hold_of_some hd] at hx
      cases hx
      exact ⟨rfl, rfl⟩

theorem copyFor_keeps_vc {s : State} {i k : Nat} {g g' : Flit} (h : copyFor s i k g = .ok g') :
    g'.vc = g.vc := by
  rcases copyFor_ok h with ⟨-, rfl⟩ | ⟨-, loc, rfl⟩ <;> rfl

/-- XBAR that does not stop at an output stages a copy there for its granted input. -/
theorem xbarFlit_of_xbarStop {s : State} {i k : Nat} (hi : grantedInput s k = some i)
    (hstop : xbarStop s k = none) :
    ∃ g g', s.tv.frAt i = some g ∧ copyFor s i k g = .ok g' ∧ xbarFlit s k = some g' := by
  cases hfr : s.tv.frAt i with
  | none => simp [xbarStop, xbarCopy, hi, hfr] at hstop
  | some g =>
    cases hc : copyFor s i k g with
    | error e => simp [xbarStop, xbarCopy_of_granted hi hfr, hc] at hstop
    | ok g' => exact ⟨g, g', rfl, hc, xbarFlit_of_granted hi hfr hc⟩

/-- The queues hold flits of their own VC once the arriving ones are in. -/
theorem vc_of_chosen {s u : State} (hr : RouterOk s.par s.r) (hg : AtGrants s u) {p v : Nat} {f : Flit}
    (hvc : u.tv.vcAt p = some v) (hf : u.tv.fAt p = some f) : f.vc = v := by
  obtain ⟨hp, hv, g, hg', hhead⟩ := hg.chosen p v hvc
  obtain rfl : f = g := Option.some.inj (hf.symm.trans hg')
  have hmem := List.mem_of_head? hhead
  rw [hg.queue p hp v hv, List.mem_append, Option.mem_toList] at hmem
  rcases hmem with hold | hnew
  · exact (hr.qFlits p hp v hv f hold).1
  · exact (arrival_eq_some.1 hnew).2

/-- The flits of VC `v` that XBAR stages at an output are those GRANT.COMMIT moved there. -/
theorem countVc_xbarFlit {s u t : State} {o : Out} (hr : RouterOk s.par s.r) (hg : AtGrants s u)
    (hfin : Finished u t o) {k v : Nat} (hk : k < s.par.N) :
    countVc v (xbarFlit u k).toList = moved u k v := by
  have hk' : k < u.par.N := hg.par ▸ hk
  by_cases hgrant : ∃ i < s.par.N, u.tv.grantAt i k = true
  · obtain ⟨i, hi, hgi⟩ := hgrant
    obtain ⟨hfull, -⟩ := hg.fullAt_of_grantAt hi hk hgi
    obtain ⟨w, f, -, hvc, hf, -⟩ := hg.granted_flit hi hfull
    have hinput : grantedInput u k = some i :=
      grantedInput_eq_some (fun a ha b hb => hg.alone a (hg.par ▸ ha) b (hg.par ▸ hb) k hk)
        (hg.par ▸ hi) hgi
    obtain ⟨g, g', hfr, hcopy, hflit⟩ := xbarFlit_of_xbarStop hinput (hfin.copied k hk')
    obtain ⟨x, hx, -, hfr', -⟩ := hg.routed i w f hvc hf
    obtain rfl : g = x.fr := Option.some.inj (hfr.symm.trans hfr')
    have hvc' : g'.vc = w := by
      rw [copyFor_keeps_vc hcopy, (routed_keeps_vc hx).1, vc_of_chosen hr hg hvc hf]
    rw [hflit]
    by_cases hw : w = v
    · have hc : commitsTo u i k v = true := commitsTo_iff.2 ⟨hfull, hw ▸ hvc, hgi⟩
      rw [(moved_eq_one (hg.par.symm ▸ hg.commitsTo_unique hk) (hg.par ▸ hi) hc).1]
      simp [countVc, hvc', hw]
    · have hno : ∀ j < u.par.N, commitsTo u j k v = false := fun j hj =>
        Bool.eq_false_iff.2 fun hc => by
          obtain ⟨-, hvj, hgj⟩ := commitsTo_iff.1 hc
          obtain rfl := hg.alone i hi j (hg.par ▸ hj) k hk hgi hgj
          exact hw (Option.some.inj (hvc.symm.trans hvj))
      rw [(moved_eq_zero hno).1]
      simp [countVc, hvc', hw]
  · push Not at hgrant
    have hnone : ∀ i < u.par.N, u.tv.grantAt i k = false := fun i hi =>
      Bool.eq_false_iff.2 (hgrant i (hg.par ▸ hi))
    have hno : ∀ i < u.par.N, commitsTo u i k v = false := fun i hi => by
      rw [commitsTo, hnone i hi, Bool.and_false]
    rw [xbarFlit_of_none (grantedInput_eq_none.2 hnone), (moved_eq_zero hno).1]
    rfl

theorem countVc_append (v : Nat) (l l' : List Flit) :
    countVc v (l ++ l') = countVc v l + countVc v l' :=
  List.countP_append

/-- A staging queue loses one flit of the VC exactly when one was delivered (R170). -/
theorem countVc_after_delivery {u t : State} {o : Out} (hfin : Finished u t o) {k v : Nat}
    (hk : k < u.par.N) :
    countVc v (t.r.eqAt k) + deliveredOn o k v = countVc v (stagedAt u k) := by
  rw [hfin.staged k hk, deliveredOn, hfin.front k hk]
  have hdel := hfin.delivered k hk
  cases hd : entry false o.delivered k with
  | false => simp
  | true =>
    rw [hd] at hdel
    cases hq : stagedAt u k with
    | nil => simp [hq] at hdel
    | cons f rest =>
      by_cases hvc : f.vc = v <;> simp [countVc, hvc]

/-- Credits held, staged and delivered flits of one pair over one tick (R157). -/
theorem egress_balance {s u t : State} {o : Out} (hr : RouterOk s.par s.r) (hg : AtGrants s u)
    (hfin : Finished u t o) {k v : Nat} (hk : k < s.par.N) (hv : v < s.par.V) :
    t.r.caAt k v + countVc v (t.r.eqAt k) + deliveredOn o k v =
      s.r.caAt k v + countVc v (s.r.eqAt k) + amountAt s.env k v := by
  have hk' : k < u.par.N := hg.par ▸ hk
  obtain ⟨hle, hca⟩ := hfin.charged k hk' v (hg.par ▸ hv)
  have hstaged := countVc_after_delivery (v := v) hfin hk'
  rw [stagedAt, countVc_append, countVc_xbarFlit hr hg hfin hk, hg.eq] at hstaged
  rw [hg.ca k hk v hv] at hle hca
  omega

/-- Settles O45. -/
theorem tickConservesEgressCredits : Obligations.TickConservesEgressCredits := by
  intro s t o _ hs h hnf hout k hk v hv
  obtain ⟨u, o', -, hg, hfin⟩ := exec_tick_cut h hnf
  obtain rfl : o' = o := Option.some.inj (hfin.out.symm.trans hout)
  exact egress_balance (hs.1 (exec_tick_not_faulted h)) hg hfin hk hv

/-! ### The return of an owed credit -/

/-- A pair that owes a credit has one accepted in the tick, exactly when the channel is ready; where it
is not, the credit is still owed (R155, R156). -/
theorem owed_after_tick {s t : State} {p v : Nat} (h : exec .tick s = .next t)
    (hnf : t.r.fault = none) (hp : p < s.par.N) (hv : v < s.par.V) (howed : 0 < s.r.coAt p v) :
    ∃ o, t.out = some o ∧ creditAccepted o s.env p v = (s.env.creditReadyAt p v).toNat ∧
      (s.env.creditReadyAt p v = false → 0 < t.r.coAt p v) := by
  obtain ⟨u, o, -, hg, hfin⟩ := exec_tick_cut h hnf
  have hp' : p < u.par.N := hg.par ▸ hp
  have hv' : v < u.par.V := hg.par ▸ hv
  have hpos : 0 < owedAt u p v := by rw [owedAt, hg.co]; omega
  have haccept := hfin.accepted p hp' v hv'
  rw [decide_eq_true hpos, Bool.true_and, hg.creditReady] at haccept
  refine ⟨o, hfin.out, ?_, fun hnot => ?_⟩
  · rw [creditAccepted_congr (e' := u.env) (hg.creditReady p v).symm, haccept]
  · rw [hfin.owed p hp' v hv', haccept, hnot]
    exact hpos

/-- Settles O53, by induction on the ticks: while no credit was accepted the pair still owes one. -/
theorem owedCreditIsReturned : Obligations.OwedCreditIsReturned := by
  intro envs run p v n hp hv howed hrun hready
  have hpar : ∀ j ≤ n + 1, (run j).par = (run 0).par := fun j => by
    induction j with
    | zero => exact fun _ => rfl
    | succ j ih =>
      intro hj
      obtain ⟨htick, hnf⟩ := hrun j (by omega)
      obtain ⟨hstep, -⟩ := tick_keeps_setup (tick_ok_of_no_fault htick hnf)
      exact hstep.trans (ih (by omega))
  by_contra hnever
  push Not at hnever
  have hstill : ∀ j ≤ n, 0 < (run j).r.coAt p v →
      (envs j).creditReadyAt p v = false ∧ 0 < (run (j + 1)).r.coAt p v := fun j hj hco => by
    obtain ⟨htick, hnf⟩ := hrun j hj
    have hj' : (run j).par = (run 0).par := hpar j (by omega)
    obtain ⟨o, hout, haccept, hkeep⟩ := owed_after_tick (p := p) (v := v) htick hnf
      (by rw [State.withEnv_par, hj']; exact hp) (by rw [State.withEnv_par, hj']; exact hv) hco
    have hnot : (envs j).creditReadyAt p v = false := Bool.eq_false_iff.2 fun hr =>
      hnever j hj o hout (by rw [State.withEnv_env, hr] at haccept; exact haccept)
    exact ⟨hnot, hkeep hnot⟩
  have hwait : ∀ j ≤ n, 0 < (run j).r.coAt p v := fun j => by
    induction j with
    | zero => exact fun _ => howed
    | succ j ih => exact fun hj => (hstill j (by omega) (ih (by omega))).2
  have hnot := (hstill n le_rfl (hwait n le_rfl)).1
  rw [hready] at hnot
  cases hnot

end Sys2Proof.Machine
end

section
/-! The grants of a tick and the packets in flight (42_arbitration.md R138, R141, R142,
70_reset_and_hazards.md R237): what a granted leg had, which packet it belongs to, and that the tick
keeps the packets apart. -/

namespace Sys2Proof.Machine

/-! ### The grants -/

/-- What a granted leg of input `i` had: the VC and the flit of the input, a credit, the packet rule and
a free staging slot (R130, R138). -/
theorem AtGrants.asked_for {s u : State} (h : AtGrants s u) {i k v : Nat} {f : Flit}
    (hi : i < s.par.N) (hk : k < s.par.N) (hg : u.tv.grantAt i k = true)
    (hv : u.tv.vcAt i = some v) (hf : u.tv.fAt i = some f) :
    u.r.caAt k v ≠ 0 ∧ (u.r.igpAt k v = true ∨ isContinuation f = true) ∧
      (u.r.eqAt k).length < u.par.E := by
  obtain ⟨v', f', hv', hf', hca, -, hrule, hroom⟩ := request_iff.1 (h.asked i hi k hk hg)
  obtain rfl : v = v' := Option.some.inj (hv.symm.trans hv')
  obtain rfl : f = f' := Option.some.inj (hf.symm.trans hf')
  exact ⟨hca, hrule, hroom⟩

/-- Settles O48: an input is granted on its whole mask when `full` holds and on nothing otherwise. -/
theorem grantedLegsWereAdmissible : Obligations.GrantedLegsWereAdmissible := by
  intro s u _ _ _ hu
  have hg := atGrants hu
  simp only [hg.par]
  refine ⟨fun i hi => ?_, hg.alone, fun i hi k hk hgrant => ?_⟩
  · cases hfull : u.tv.fullAt i with
    | true => exact .inl fun k hk => by rw [hg.grant i hi k hk, hfull, Bool.true_and]
    | false => exact .inr fun k hk => by rw [hg.grant i hi k hk, hfull, Bool.false_and]
  · obtain ⟨v, f, -, hv, hf, -⟩ := hg.granted_flit hi (hg.fullAt_of_grantAt hi hk hgrant).1
    obtain ⟨hca, hrule, hroom⟩ := hg.asked_for hi hk hgrant hv hf
    exact ⟨v, f, hv, hf, hca, hrule, hg.par ▸ hroom⟩

/-- Once the routes are resolved, the mask in use at a port is the one stored for its queue. -/
theorem AtGrants.stores_mask {s u : State} (h : AtGrants s u) {p v : Nat} {f : Flit}
    (hv : u.tv.vcAt p = some v) (hf : u.tv.fAt p = some f) :
    u.r.outDestAt p v = some (u.tv.dmAt p) := by
  obtain ⟨x, hx, hdm, -, hdest, -⟩ := h.routed p v f hv hf
  rw [hdest, hdm]
  cases hop : keyOp (routeKey s.par f) with
  | sr => rw [hop] at hx; cases hx; rfl
  | ucast => rw [hop] at hx; cases hx; rfl
  | mcast => rw [hop] at hx; cases hx; rfl
  | hold =>
    rw [hop] at hx
    cases hd : s.r.outDestAt p v with
    | none => rw [routed_hold_of_none hd] at hx; cases hx
    | some m =>
      rw [routed_hold_of_some hd] at hx
      cases hx
      rfl

/-- A continuation flit leaves the stored mask of its queue as it was (R118). -/
theorem AtGrants.keeps_mask_of_isContinuation {s u : State} (h : AtGrants s u) {p v : Nat} {f : Flit}
    (hv : u.tv.vcAt p = some v) (hf : u.tv.fAt p = some f) (hc : isContinuation f = true) :
    u.r.outDestAt p v = s.r.outDestAt p v := by
  obtain ⟨x, hx, -, -, hdest, -⟩ := h.routed p v f hv hf
  rw [hdest]
  rw [keyOp_of_isContinuation hc] at hx
  cases hd : s.r.outDestAt p v with
  | none => rw [routed_hold_of_none hd] at hx; cases hx
  | some m =>
    rw [routed_hold_of_some hd] at hx
    cases hx
    rfl

/-! ### The packets in flight, at the grants -/

/-- A granted header finds its output VC free. -/
theorem granted_header {s u : State} {opn : Nat → Nat → Bool} (hg : AtGrants s u)
    (hok : PacketsOk s opn) {i k v : Nat} {f : Flit} (hi : i < s.par.N) (hk : k < s.par.N)
    (hgrant : u.tv.grantAt i k = true) (hvc : u.tv.vcAt i = some v) (hf : u.tv.fAt i = some f)
    (hh : isHeader f = true) :
    s.r.igpAt k v = true ∧ ∀ p < s.par.N, ¬Holds s opn p v k := by
  obtain ⟨-, hv, -⟩ := hg.chosen i v hvc
  obtain ⟨-, hrule, -⟩ := hg.asked_for hi hk hgrant hvc hf
  have higp : s.r.igpAt k v = true := by
    rw [← hg.igp]
    simpa [isContinuation, hh] using hrule
  refine ⟨higp, fun p hp hholds => ?_⟩
  rw [(hok.held k hk v hv).2 ⟨p, hp, hholds⟩] at higp
  cases higp

section Packets

variable {s u : State} {opn : Nat → Nat → Bool} (hg : AtGrants s u) (hok : PacketsOk s opn)
  (hsend : SendersKeepPacketOrder s opn)

include hg hok hsend

/-- The packet order holds of every queue with the arrived flit. -/
theorem order_at_grants {p v : Nat} (hp : p < s.par.N) (hv : v < s.par.V) :
    inPacketOrder (opn p v) (u.r.qAt p v) = true := by
  rw [hg.queue p hp v hv]
  cases ha : arrival s p v with
  | none => simpa using hok.order p hp v hv
  | some f =>
    obtain ⟨hoffer, rfl⟩ := arrival_eq_some.1 ha
    exact hsend p hp f hoffer

/-- A queue's front flit continues its packet exactly while the packet is open. -/
theorem front_of_packet {p v : Nat} {f : Flit} (hv : u.tv.vcAt p = some v)
    (hf : u.tv.fAt p = some f) : isContinuation f = opn p v := by
  obtain ⟨hp, hvV, g, hg', hhead⟩ := hg.chosen p v hv
  obtain rfl : f = g := Option.some.inj (hf.symm.trans hg')
  have horder := order_at_grants hg hok hsend hp hvV
  obtain ⟨rest, hq⟩ := List.head?_eq_some_iff.1 hhead
  rw [hq, inPacketOrder, Bool.and_eq_true] at horder
  have hne := horder.1
  rw [isContinuation]
  cases hh : isHeader f <;> cases ho : opn p v <;> simp [hh, ho] at hne ⊢

/-- While a packet of the pair is open, the tick keeps the mask stored for it. -/
theorem mask_of_open {p v : Nat} (hp : p < s.par.N) (hv : v < s.par.V) (ho : opn p v = true) :
    u.r.outDestAt p v = s.r.outDestAt p v := by
  by_cases hvc : u.tv.vcAt p = some v
  · obtain ⟨-, -, f, hf, -⟩ := hg.chosen p v hvc
    exact hg.keeps_mask_of_isContinuation hvc hf ((front_of_packet hg hok hsend hvc hf).trans ho)
  · exact (hg.stored p hp v hv hvc).1

/-- A granted continuation flit is of the packet that holds its output VC. -/
theorem granted_continuation {i k v : Nat} {f : Flit} (hi : i < s.par.N) (hk : k < s.par.N)
    (hgrant : u.tv.grantAt i k = true) (hvc : u.tv.vcAt i = some v) (hf : u.tv.fAt i = some f)
    (hc : isContinuation f = true) : Holds s opn i v k := by
  obtain ⟨-, hdest⟩ := hg.fullAt_of_grantAt hi hk hgrant
  have ho : opn i v = true := (front_of_packet hg hok hsend hvc hf).symm.trans hc
  exact ⟨ho, u.tv.dmAt i,
    (hg.keeps_mask_of_isContinuation hvc hf hc).symm.trans (hg.stores_mask hvc hf), hdest⟩

/-- An output VC is granted to no flit but one of the packet that holds it. -/
theorem eq_of_granted_of_holds {i p k v : Nat} (hi : i < s.par.N) (hp : p < s.par.N)
    (hk : k < s.par.N) (hgrant : u.tv.grantAt i k = true) (hvc : u.tv.vcAt i = some v)
    (hholds : Holds s opn p v k) : p = i := by
  obtain ⟨-, hv, f, hf, -⟩ := hg.chosen i v hvc
  cases hh : isHeader f with
  | true => exact absurd hholds ((granted_header hg hok hi hk hgrant hvc hf hh).2 p hp)
  | false =>
    have hc : isContinuation f = true := by rw [isContinuation, hh]; rfl
    exact hok.alone k hk v hv p hp i hi hholds
      (granted_continuation hg hok hsend hi hk hgrant hvc hf hc)

/-- A packet that holds an output VC and sends a flit sends it there. -/
theorem commitsTo_of_holds {p v k : Nat} (hp : p < s.par.N) (hk : k < s.par.N)
    (hc : commits u p v = true) (hholds : Holds s opn p v k) : commitsTo u p k v = true := by
  obtain ⟨hfull, hvc⟩ := commits_iff.1 hc
  obtain ⟨hp', hv, f, hf, -⟩ := hg.chosen p v hvc
  obtain ⟨ho, m, hm, hbit⟩ := hholds
  have hmask := mask_of_open hg hok hsend hp' hv ho
  rw [hg.stores_mask hvc hf, hm] at hmask
  rw [commitsTo, hc, hg.grant p hp k hk, hfull, Option.some.inj hmask, hbit]
  rfl

end Packets

/-- Settles O59. -/
theorem onlyTheOpenPacketContinues : Obligations.OnlyTheOpenPacketContinues := by
  intro s u opn _ _ _ hok hsend hu k hk i hi v f hgrant hvc hf
  have hg := atGrants hu
  refine ⟨granted_header hg hok hi hk hgrant hvc hf, fun hc => ?_⟩
  obtain ⟨-, hv, -⟩ := hg.chosen i v hvc
  have hholds := granted_continuation hg hok hsend hi hk hgrant hvc hf hc
  exact ⟨(hok.held k hk v hv).2 ⟨i, hi, hholds⟩, hholds,
    fun p hp => eq_of_granted_of_holds hg hok hsend hi hp hk hgrant hvc⟩

/-! ### The packets in flight, after the tick -/

/-- Which packets are open after a tick whose grants are in `u`: those whose flit left the queue and was
not terminal, and those that were open and sent none. -/
def openAfter (u : State) (opn : Nat → Nat → Bool) (p v : Nat) : Bool :=
  if commits u p v then (u.tv.fAt p).any fun f => !isTerminal f else opn p v

theorem openAfter_of_commits {u : State} {opn : Nat → Nat → Bool} {p v : Nat} {f : Flit}
    (hc : commits u p v = true) (hf : u.tv.fAt p = some f) : openAfter u opn p v = !isTerminal f := by
  simp [openAfter, hc, hf]

theorem openAfter_of_not_commits {u : State} {opn : Nat → Nat → Bool} {p v : Nat}
    (hc : commits u p v = false) : openAfter u opn p v = opn p v := by
  simp [openAfter, hc]

theorem Finished.outDestAt {u t : State} {o : Out} (h : Finished u t o) (p v : Nat) :
    t.r.outDestAt p v = u.r.outDestAt p v := by
  rw [h.router]
  rfl

section PacketsAfter

variable {s u t : State} {o : Out} {opn : Nat → Nat → Bool} (hg : AtGrants s u)
  (hfin : Finished u t o) (hok : PacketsOk s opn) (hsend : SendersKeepPacketOrder s opn)

include hg hfin hok hsend

/-- A packet holds an output VC after the tick when a flit of it was moved there and more will come, or
when it held it before and sent no flit. -/
theorem holds_after_tick {p v k : Nat} (hp : p < s.par.N) (hv : v < s.par.V) (hk : k < s.par.N) :
    Holds t (openAfter u opn) p v k ↔
      (commitsTo u p k v = true ∧ ∃ f, u.tv.fAt p = some f ∧ isTerminal f = false) ∨
        (commits u p v = false ∧ Holds s opn p v k) := by
  unfold Holds
  rw [hfin.outDestAt]
  cases hc : commits u p v with
  | true =>
    obtain ⟨hfull, hvc⟩ := commits_iff.1 hc
    obtain ⟨-, -, f, hf, -⟩ := hg.chosen p v hvc
    rw [openAfter_of_commits hc hf, hg.stores_mask hvc hf, commitsTo, hc, hg.grant p hp k hk, hfull]
    simp [hf, and_comm]
  | false =>
    rw [openAfter_of_not_commits hc, commitsTo, hc]
    simp only [Bool.false_and, Bool.false_eq_true, false_and, false_or, true_and]
    exact and_congr_right fun ho => by rw [mask_of_open hg hok hsend hp hv ho]

/-- R141 with the ghost map: the flag is false exactly while one packet holds the output VC. -/
theorem held_after_tick {k v : Nat} (hk : k < s.par.N) (hv : v < s.par.V) :
    t.r.igpAt k v = false ↔ ∃ p < s.par.N, Holds t (openAfter u opn) p v k := by
  rw [hfin.flag k (hg.par ▸ hk) v (hg.par ▸ hv)]
  by_cases hmoved : ∃ i < s.par.N, commitsTo u i k v = true
  · obtain ⟨i, hi, hc⟩ := hmoved
    obtain ⟨hfull, hvc, hgrant⟩ := commitsTo_iff.1 hc
    obtain ⟨-, -, f, hf, -⟩ := hg.chosen i v hvc
    rw [igpAfter_of_commitsTo (hg.par.symm ▸ hg.commitsTo_unique hk) (hg.par ▸ hi) hc hf]
    refine ⟨fun hterm => ⟨i, hi, (holds_after_tick hg hfin hok hsend hi hv hk).2
      (.inl ⟨hc, f, hf, hterm⟩)⟩, fun ⟨p, hp, hholds⟩ => ?_⟩
    rcases (holds_after_tick hg hfin hok hsend hp hv hk).1 hholds with
      ⟨hcp, f', hf', hterm⟩ | ⟨hnot, hbefore⟩
    · obtain rfl := hg.commitsTo_unique hk p hp i hi hcp hc
      obtain rfl : f = f' := Option.some.inj (hf.symm.trans hf')
      exact hterm
    · obtain rfl := eq_of_granted_of_holds hg hok hsend hi hp hk hgrant hvc hbefore
      rw [commits_iff.2 ⟨hfull, hvc⟩] at hnot
      cases hnot
  · push Not at hmoved
    have hno : ∀ i < s.par.N, commitsTo u i k v = false := fun i hi =>
      Bool.eq_false_iff.2 (hmoved i hi)
    rw [igpAfter_of_none (hg.par.symm ▸ hno), hg.igp, hok.held k hk v hv]
    refine exists_congr fun p => and_congr_right fun hp => ?_
    rw [holds_after_tick hg hfin hok hsend hp hv hk, hno p hp]
    simp only [Bool.false_eq_true, false_and, false_or]
    refine ⟨fun hholds => ⟨Bool.eq_false_iff.2 fun hc => ?_, hholds⟩, fun h => h.2⟩
    exact hmoved p hp (commitsTo_of_holds hg hok hsend hp hk hc hholds)

/-- R142: no two packets hold an output VC after the tick. -/
theorem alone_after_tick {k v p p' : Nat} (hk : k < s.par.N) (hv : v < s.par.V) (hp : p < s.par.N)
    (hp' : p' < s.par.N) (h : Holds t (openAfter u opn) p v k)
    (h' : Holds t (openAfter u opn) p' v k) : p = p' := by
  have hmix : ∀ {a b : Nat}, a < s.par.N → b < s.par.N → commitsTo u a k v = true →
      Holds s opn b v k → b = a := fun ha hb hc hholds => by
    obtain ⟨-, hvc, hgrant⟩ := commitsTo_iff.1 hc
    exact eq_of_granted_of_holds hg hok hsend ha hb hk hgrant hvc hholds
  rcases (holds_after_tick hg hfin hok hsend hp hv hk).1 h with ⟨hc, -⟩ | ⟨-, hb⟩
  · rcases (holds_after_tick hg hfin hok hsend hp' hv hk).1 h' with ⟨hc', -⟩ | ⟨-, hb'⟩
    · exact hg.commitsTo_unique hk p hp p' hp' hc hc'
    · exact (hmix hp hp' hc hb').symm
  · rcases (holds_after_tick hg hfin hok hsend hp' hv hk).1 h' with ⟨hc', -⟩ | ⟨-, hb'⟩
    · exact hmix hp' hp hc' hb
    · exact hok.alone k hk v hv p hp p' hp' hb hb'

theorem order_after_tick {p v : Nat} (hp : p < s.par.N) (hv : v < s.par.V) :
    inPacketOrder (openAfter u opn p v) (t.r.qAt p v) = true := by
  have horder := order_at_grants hg hok hsend hp hv
  rw [hfin.queue p (hg.par ▸ hp) v (hg.par ▸ hv)]
  cases hc : commits u p v with
  | false => rw [openAfter_of_not_commits hc]; exact horder
  | true =>
    obtain ⟨-, hvc⟩ := commits_iff.1 hc
    obtain ⟨-, -, f, hf, hhead⟩ := hg.chosen p v hvc
    obtain ⟨rest, hq⟩ := List.head?_eq_some_iff.1 hhead
    rw [openAfter_of_commits hc hf, hq]
    rw [hq, inPacketOrder, Bool.and_eq_true] at horder
    exact horder.2

theorem masked_after_tick {p v : Nat} (hp : p < s.par.N) (hv : v < s.par.V)
    (ho : openAfter u opn p v = true) : t.r.outDestAt p v ≠ none := by
  rw [hfin.outDestAt]
  cases hc : commits u p v with
  | true =>
    obtain ⟨-, hvc⟩ := commits_iff.1 hc
    obtain ⟨-, -, f, hf, -⟩ := hg.chosen p v hvc
    rw [hg.stores_mask hvc hf]
    exact Option.some_ne_none _
  | false =>
    rw [openAfter_of_not_commits hc] at ho
    rw [mask_of_open hg hok hsend hp hv ho]
    exact hok.masked p hp v hv ho

theorem packetsOk_after_tick : PacketsOk t (openAfter u opn) := by
  have hpar : t.par = s.par := hfin.par.trans hg.par
  constructor
  · rw [hpar]; exact fun p hp v hv => order_after_tick hg hfin hok hsend hp hv
  · rw [hpar]; exact fun p hp v hv => masked_after_tick hg hfin hok hsend hp hv
  · rw [hpar]; exact fun k hk v hv => held_after_tick hg hfin hok hsend hk hv
  · rw [hpar]; exact fun k hk v hv p hp p' hp' => alone_after_tick hg hfin hok hsend hk hv hp hp'

end PacketsAfter

/-- Settles O60: the ghost map after the tick is `openAfter`. -/
theorem tickKeepsPacketsApart : Obligations.TickKeepsPacketsApart := by
  intro s t u opn _ _ hok hsend hu h hnf
  obtain ⟨u', o, hu', hg, hfin⟩ := exec_tick_cut h hnf
  obtain rfl : u' = u := Except.ok.inj (hu'.symm.trans hu)
  refine ⟨openAfter u' opn, packetsOk_after_tick hg hfin hok hsend, fun p _ v _ =>
    ⟨fun f hfull hvc hf => openAfter_of_commits (commits_iff.2 ⟨hfull, hvc⟩) hf, fun hnot => ?_⟩⟩
  refine openAfter_of_not_commits (Bool.eq_false_iff.2 fun hc => ?_)
  obtain ⟨hfull, hvc⟩ := commits_iff.1 hc
  rcases hnot with hnot | hnot
  · rw [hfull] at hnot; cases hnot
  · exact hnot hvc

end Sys2Proof.Machine
end

section
/-! Where a tick stops (46_router_tick.md R193, 60_exceptions.md R201, R209, R210): `TickStop` lists the
faults a tick can raise, each with its cause told of the state the tick starts in. Totality, the order
of the faults, the peers that never make a router fault, and the idle router follow from it. -/

namespace Sys2Proof.Machine

/-! ### The phase that stops -/

theorem runPhases_cons_error {op : State → Res} {l : List (State → Res)} {s : State} {e : Stop}
    (h : runPhases (op :: l) s = .error e) :
    op s = .error e ∨ ∃ u, op s = .ok u ∧ runPhases l u = .error e := by
  unfold runPhases at h
  cases ho : op s with
  | ok u => exact .inr ⟨u, rfl, by simpa [ho] using h⟩
  | error e' => exact .inl (by simpa [ho] using h)

theorem tick_of_error {s : State} {e : Stop} (h : runPhases phases (beginTick s) = .error e) :
    tick s = .error e := by
  simp [tick, h]

theorem phases_of_tick_error {s : State} {e : Stop} (h : tick s = .error e) :
    runPhases phases (beginTick s) = .error e := by
  unfold tick at h
  cases hp : runPhases phases (beginTick s) with
  | ok u => rw [hp] at h; cases h
  | error e' => rw [hp] at h; exact h

/-- When the phases before one complete and it stops, the tick stops there. -/
theorem tick_error_at {s u : State} {op : State → Res} {n : Nat} {e : Stop}
    (hu : runPhases (phases.take n) (beginTick s) = .ok u)
    (hop : phases.drop n = op :: phases.drop (n + 1)) (h : op u = .error e) : tick s = .error e := by
  refine tick_of_error ?_
  rw [← List.take_append_drop n phases, runPhases_append, hu, hop]
  simp only [runPhases, h]

/-- The fault of the tick is the fault of its stopping phase. -/
theorem exec_tick_raised {s : State} {c : Code} {n : Nat} (hf : s.r.fault = none)
    (h : tick s = .error (.raise c n)) : ∃ t, exec .tick s = .next t ∧ Raised t c n :=
  runOp_raised hf h

/-! ### What stops each phase -/

theorem creditRxStop_eq_some {s : State} {k v : Nat} {e : Stop} (hle : s.r.caAt k v ≤ s.par.B)
    (h : creditRxStop s k v = some e) :
    e = .raise .creditAvailOverflow (pairIndex s.par k v) ∧
      s.par.B < s.r.caAt k v + amountAt s.env k v := by
  refine ⟨?_, ?_⟩
  · unfold creditRxStop at h
    split at h
    · cases h
    · exact (Option.some.inj h).symm
  · by_contra hfit
    rw [(creditRxStop_eq_none hle).2 (not_lt.1 hfit)] at h
    cases h

theorem ingressRxStop_eq_some {s : State} {p : Nat} {e : Stop} (h : ingressRxStop s p = some e) :
    ∃ f, s.env.flitAt p = some f ∧
      ((s.par.V ≤ f.vc ∧ e = .raise .badVc p) ∨
        (f.vc < s.par.V ∧ s.par.B ≤ (s.r.qAt p f.vc).length ∧
          e = .raise .queueOverflow (pairIndex s.par p f.vc))) := by
  cases hf : s.env.flitAt p with
  | none => simp [ingressRxStop, hf] at h
  | some f =>
    refine ⟨f, rfl, ?_⟩
    by_cases hvc : s.par.V ≤ f.vc
    · rw [ingressRxStop_of_badVc hf hvc] at h
      exact .inl ⟨hvc, (Option.some.inj h).symm⟩
    · by_cases hfull : s.par.B ≤ (s.r.qAt p f.vc).length
      · rw [ingressRxStop_of_full hf (not_le.1 hvc) hfull] at h
        exact .inr ⟨not_le.1 hvc, hfull, (Option.some.inj h).symm⟩
      · have hnone : ingressRxStop s p = none := ingressRxStop_eq_none.2 fun g hg => by
          obtain rfl : f = g := Option.some.inj (hf.symm.trans hg)
          exact ⟨not_le.1 hvc, not_le.1 hfull⟩
        rw [hnone] at h
        cases h

theorem routeStop_eq_some {s : State} {p : Nat} {e : Stop} :
    routeStop s p = some e ↔
      ∃ v f, s.tv.vcAt p = some v ∧ s.tv.fAt p = some f ∧ isContinuation f = true ∧
        s.r.outDestAt p v = none ∧ e = .raise .outDestUndefined (pairIndex s.par p v) := by
  constructor
  · intro h
    unfold routeStop portRouted at h
    cases hpeek : peeked s p with
    | none => simp [hpeek] at h
    | some y =>
      obtain ⟨v, f⟩ := y
      obtain ⟨hv, hf⟩ := peeked_eq_some.1 hpeek
      simp only [hpeek] at h
      refine ⟨v, f, hv, hf, ?_⟩
      cases hop : keyOp (routeKey s.par f) with
      | sr => rw [hop] at h; cases h
      | ucast => rw [hop] at h; cases h
      | mcast => rw [hop] at h; cases h
      | hold =>
        rw [hop] at h
        cases hd : s.r.outDestAt p v with
        | some m => rw [routed_hold_of_some hd] at h; cases h
        | none =>
          rw [routed_hold_of_none hd] at h
          exact ⟨keyOp_eq_hold hop, rfl, (Option.some.inj h).symm⟩
  · rintro ⟨v, f, hv, hf, hc, hd, rfl⟩
    simp [routeStop, portRouted, peeked_of_some hv hf, keyOp_of_isContinuation hc,
      routed_hold_of_none hd]

/-- At the grants of a tick an input stops GRANT.COMMIT by F5 or by F4 alone. -/
theorem AtGrants.commitStop_eq_some {s u : State} (h : AtGrants s u) {i : Nat} {e : Stop}
    (hi : i < s.par.N) (hstop : commitStop u i = some e) :
    ∃ v, v < s.par.V ∧ u.r.qAt i v ≠ [] ∧
      ((u.par.rwForbidden = true ∧ u.tv.pushedAt i v = true ∧
          e = .raise .storageRwConflict (pairIndex u.par i v)) ∨
        (u.par.B < u.r.coAt i v + 1 ∧ e = .raise .creditOwedOverflow (pairIndex u.par i v))) := by
  cases hfull : u.tv.fullAt i with
  | false => rw [commitStop_of_not_full hfull] at hstop; cases hstop
  | true =>
    obtain ⟨v, f, hvV, hv, hf, hhead⟩ := h.granted_flit hi hfull
    have hq : u.r.qAt i v ≠ [] := fun hnil => by rw [hnil] at hhead; cases hhead
    refine ⟨v, hvV, hq, ?_⟩
    by_cases hrw : u.par.rwForbidden = true ∧ u.tv.pushedAt i v = true
    · rw [commitStop_storage hfull hv hf hrw.1 hrw.2] at hstop
      exact .inl ⟨hrw.1, hrw.2, (Option.some.inj hstop).symm⟩
    · by_cases hover : u.par.B < u.r.coAt i v + 1
      · have hrw' : u.par.rwForbidden = false ∨ u.tv.pushedAt i v = false :=
          (not_and_or.1 hrw).imp Bool.eq_false_iff.2 Bool.eq_false_iff.2
        rw [commitStop_owed hfull hv hf hq hrw' hover] at hstop
        exact .inr ⟨hover, (Option.some.inj hstop).symm⟩
      · have hnone : commitStop u i = none := (commitStop_eq_none hfull).2
          ⟨v, f, hv, hf, fun hrw' => by simpa [hrw'] using hrw, hq, not_lt.1 hover⟩
        rw [hnone] at hstop
        cases hstop

/-- At the grants of a tick every granted leg has a credit (R140 (d)), so no CREDIT.DEC is refused. -/
theorem AtGrants.moved_le {s u : State} (h : AtGrants s u) {k v : Nat} (hk : k < s.par.N) :
    moved u k v ≤ u.r.caAt k v := by
  refine Machine.moved_le (h.par.symm ▸ h.commitsTo_unique hk) fun i hi hc => ?_
  rw [h.par] at hi
  obtain ⟨hfull, hvc, hgrant⟩ := commitsTo_iff.1 hc
  obtain ⟨-, -, f, hf, -⟩ := h.chosen i v hvc
  exact Nat.one_le_iff_ne_zero.2 (h.asked_for hi hk hgrant hvc hf).1

/-- What the crossbar carries is a multicast header only if ROUTE.LUT.MCAST resolved it, which wrote
`is_local` in the same tick (R166, R168). -/
theorem routed_mcast_header {s : State} {p v : Nat} {f : Flit} {x : Routed}
    (hx : routed s (keyOp (routeKey s.par f)) p v f = .ok x)
    (hm : isMcastHeader s.par x.fr = true) : ∃ loc, x.loc = some loc := by
  obtain ⟨hlut, hh, hmf⟩ := isMcastHeader_iff.1 hm
  cases hop : keyOp (routeKey s.par f) with
  | sr => rw [(keyOp_eq_sr hop).2] at hlut; cases hlut
  | ucast => rw [hop] at hx; cases hx; exact ⟨_, rfl⟩
  | mcast => rw [hop] at hx; cases hx; exact ⟨_, rfl⟩
  | hold =>
    have hc := keyOp_eq_hold hop
    have hpos := (routed_keeps_vc hx).2
    rw [isHeader, hpos] at hh
    rw [isContinuation, isHeader, hh] at hc
    cases hc

/-- At the grants of a tick nothing stops the crossbar (R166: "Exceptions: none"). -/
theorem AtGrants.xbarStop_eq_none {s u : State} (h : AtGrants s u) {k : Nat} (hk : k < s.par.N) :
    xbarStop u k = none := by
  cases hinput : grantedInput u k with
  | none => exact xbarStop_of_none hinput
  | some i =>
    have hi : i < s.par.N := by
      rw [← h.par]
      exact List.mem_range.1 (List.mem_of_find?_eq_some hinput)
    have hgrant : u.tv.grantAt i k = true := by
      have hfound := List.find?_some hinput
      simpa using hfound
    obtain ⟨v, f, -, hv, hf, -⟩ := h.granted_flit hi (h.fullAt_of_grantAt hi hk hgrant).1
    obtain ⟨-, -, hroom⟩ := h.asked_for hi hk hgrant hv hf
    obtain ⟨x, hx, -, hfr, -, hloc⟩ := h.routed i v f hv hf
    cases hm : isMcastHeader u.par x.fr with
    | false => exact xbarStop_of_granted hinput hfr (copyFor_of_other hm) hroom
    | true =>
      obtain ⟨loc, hl⟩ := routed_mcast_header hx (h.par ▸ hm)
      rw [hl, Option.some_or] at hloc
      exact xbarStop_of_granted hinput hfr (copyFor_of_mcast hm hv hloc) hroom

/-! ### What stops a tick -/

/-- The faults a tick can raise (60_exceptions.md R201), each with its cause in the state `s` the tick
starts in: an overflowing credit, a flit for no queue or for a full one, a continuation flit in front
with no mask stored, a storage that forbids the pop, an owed counter at `B`. -/
inductive TickStop (s : State) : Stop → Prop where
  | credit (k v : Nat) (hk : k < s.par.N) (hv : v < s.par.V)
      (h : s.par.B < s.r.caAt k v + amountAt s.env k v) :
      TickStop s (.raise .creditAvailOverflow (pairIndex s.par k v))
  | badVc (p : Nat) (f : Flit) (hp : p < s.par.N) (hf : s.env.flitAt p = some f)
      (h : s.par.V ≤ f.vc) : TickStop s (.raise .badVc p)
  | full (p : Nat) (f : Flit) (hp : p < s.par.N) (hf : s.env.flitAt p = some f)
      (hv : f.vc < s.par.V) (h : s.par.B ≤ (s.r.qAt p f.vc).length) :
      TickStop s (.raise .queueOverflow (pairIndex s.par p f.vc))
  | noMask (p v : Nat) (f : Flit) (hp : p < s.par.N) (hv : v < s.par.V)
      (hf : (s.r.qAt p v ++ (arrival s p v).toList).head? = some f) (hc : isContinuation f = true)
      (h : s.r.outDestAt p v = none) : TickStop s (.raise .outDestUndefined (pairIndex s.par p v))
  | storage (i v : Nat) (hi : i < s.par.N) (hv : v < s.par.V)
      (hq : s.r.qAt i v ++ (arrival s i v).toList ≠ []) (h : s.par.rwForbidden = true) :
      TickStop s (.raise .storageRwConflict (pairIndex s.par i v))
  | owed (i v : Nat) (hi : i < s.par.N) (hv : v < s.par.V)
      (hq : s.r.qAt i v ++ (arrival s i v).toList ≠ []) (h : s.par.B < s.r.coAt i v + 1) :
      TickStop s (.raise .creditOwedOverflow (pairIndex s.par i v))

theorem tickStop_of_creditRx {s : State} {e : Stop} (hr : RouterOk s.par s.r)
    (h : creditRx (beginTick s) = .error e) : TickStop s e := by
  obtain ⟨k, hk, v, hv, hstop⟩ := exists_of_firstOf2 (unlessStop_error.1 h)
  obtain ⟨rfl, hover⟩ := creditRxStop_eq_some (hr.caBound k hk v hv) hstop
  exact .credit k v hk hv hover

theorem tickStop_of_ingressRx {s s1 : State} {e : Stop} (h1 : creditRx (beginTick s) = .ok s1)
    (h : ingressRx s1 = .error e) : TickStop s e := by
  obtain ⟨-, -, hr, -, henv, -, hpar, -⟩ := creditRx_ok h1
  rw [beginTick_par] at hpar
  obtain ⟨p, hp, hstop, -⟩ := exists_of_firstOf (unlessStop_error.1 h)
  obtain ⟨f, hf, hcase⟩ := ingressRxStop_eq_some hstop
  have hq : s1.r.qAt p f.vc = s.r.qAt p f.vc := by rw [hr]; rfl
  rw [henv] at hf
  rw [hpar] at hp
  rw [hpar, hq] at hcase
  rcases hcase with ⟨hvc, rfl⟩ | ⟨hvc, hfull, rfl⟩
  · exact .badVc p f hp hf hvc
  · exact .full p f hp hf hvc hfull

theorem peek_after_vcSelect {s s3 : State} (h3 : vcSelect s = .ok s3) : ∃ s4, peek s3 = .ok s4 := by
  refine exists_peek_ok_iff.2 fun p _ v hv => ?_
  obtain ⟨-, -, hq⟩ := vcSelect_vcAt h3 hv
  obtain ⟨-, -, hr, -⟩ := vcSelect_ok h3
  rw [hr]
  exact hq

theorem tickStop_of_routeAll {s a : State} {e : Stop} (ha : AtPeek (beginTick s) a)
    (h : routeAll a = .error e) : TickStop s e := by
  obtain ⟨p, -, hstop, -⟩ := exists_of_firstOf (unlessStop_error.1 h)
  obtain ⟨v, f, hv, hf, hc, hd, rfl⟩ := routeStop_eq_some.1 hstop
  obtain ⟨hp, hvV, g, hg, hhead⟩ := ha.chosen p v hv
  obtain rfl : f = g := Option.some.inj (hf.symm.trans hg)
  rw [ha.queue p hp v hvV] at hhead
  rw [ha.router] at hd
  rw [ha.par]
  exact .noMask p v f hp hvV hhead hc hd

/-- Among the phases up to the final grants, four can stop. -/
theorem tickStop_before_grants {s : State} {e : Stop} (hr : RouterOk s.par s.r)
    (h : runPhases (phases.take 10) (beginTick s) = .error e) : TickStop s e := by
  rcases runPhases_cons_error h with h1 | ⟨s1, h1, h⟩
  · exact tickStop_of_creditRx hr h1
  rcases runPhases_cons_error h with h2 | ⟨s2, h2, h⟩
  · exact tickStop_of_ingressRx h1 h2
  rcases runPhases_cons_error h with h3 | ⟨s3, h3, h⟩
  · cases h3
  rcases runPhases_cons_error h with h4 | ⟨s4, h4, h⟩
  · obtain ⟨s4, hok⟩ := peek_after_vcSelect h3
    rw [hok] at h4
    cases h4
  rcases runPhases_cons_error h with h5 | ⟨s5, -, h⟩
  · exact tickStop_of_routeAll (atPeek_of_phases h1 h2 h3 h4) h5
  cases h

/-- After the final grants, GRANT.COMMIT alone can stop. -/
theorem tickStop_after_grants {s u : State} {e : Stop} (hg : AtGrants s u)
    (h : runPhases (phases.drop 10) u = .error e) : TickStop s e := by
  rcases runPhases_cons_error h with h1 | ⟨c, hc, h⟩
  · rcases Option.or_eq_some_iff.1 (unlessStop_error.1 h1) with hstop | ⟨-, hdec⟩
    · obtain ⟨i, hi, hstop, -⟩ := exists_of_firstOf hstop
      rw [hg.par] at hi
      obtain ⟨v, hv, hq, hcase⟩ := hg.commitStop_eq_some hi hstop
      rw [hg.queue i hi v hv] at hq
      rw [hg.par] at hcase
      rcases hcase with ⟨hrw, -, rfl⟩ | ⟨hover, rfl⟩
      · exact .storage i v hi hv hq hrw
      · exact .owed i v hi hv hq (hg.co i v ▸ hover)
    · obtain ⟨k, hk, v, -, hstop⟩ := exists_of_firstOf2 hdec
      rw [decStop_eq_none.2 (hg.moved_le (hg.par ▸ hk))] at hstop
      cases hstop
  rcases runPhases_cons_error h with h2 | ⟨d, -, h⟩
  · obtain ⟨k, hk, hstop, -⟩ := exists_of_firstOf (unlessStop_error.1 h2)
    obtain ⟨hpar, -⟩ := phase_keeps_setup (by simp [phases]) hc
    rw [(xbar_reads_after_grantCommit hc).2, hg.xbarStop_eq_none (hg.par ▸ hpar ▸ hk)] at hstop
    cases hstop
  cases h

theorem tick_error {s : State} {e : Stop} (hr : RouterOk s.par s.r) (h : tick s = .error e) :
    TickStop s e := by
  have h := phases_of_tick_error h
  rw [← List.take_append_drop 10 phases, runPhases_append] at h
  cases hu : runPhases (phases.take 10) (beginTick s) with
  | error e' =>
    rw [hu] at h
    cases h
    exact tickStop_before_grants hr hu
  | ok u =>
    rw [hu] at h
    exact tickStop_after_grants (atGrants hu) h

/-- A tick that nothing stops completes, without fault and with an output record. -/
theorem exec_tick_of_no_stop {s : State} (hf : s.r.fault = none) (hr : RouterOk s.par s.r)
    (hno : ∀ e, ¬TickStop s e) :
    ∃ t, exec .tick s = .next t ∧ t.r.fault = none := by
  cases ht : tick s with
  | error e => exact absurd (tick_error hr ht) (hno e)
  | ok t =>
    obtain ⟨-, -, hfault⟩ := tick_keeps_setup ht
    exact ⟨t, runOp_of_ok hf ht, hfault.trans hf⟩

/-- Settles O43: a tick completes, or it stops for one of the causes of `TickStop`. -/
theorem tickIsTotal : Obligations.TickIsTotal := by
  intro s _ hs hf
  cases ht : tick s with
  | ok t =>
    obtain ⟨-, -, hfault⟩ := tick_keeps_setup ht
    obtain ⟨u, -, rfl⟩ := tick_ok ht
    exact ⟨_, runOp_of_ok hf ht, .inl ⟨hfault.trans hf, Option.some_ne_none _⟩⟩
  | error e =>
    have hraised : ∀ {c n}, tick s = .error (.raise c n) →
        (c = .creditAvailOverflow ∨ c = .badVc ∨ c = .queueOverflow ∨ c = .outDestUndefined ∨
          (c = .storageRwConflict ∧ s.par.rwForbidden = true) ∨ c = .creditOwedOverflow) →
        ∃ t, exec .tick s = .next t ∧ ((t.r.fault = none ∧ t.out ≠ none) ∨
          ∃ e, t.r.fault = some e ∧ t.out = none ∧
            (e.code = .creditAvailOverflow ∨ e.code = .badVc ∨ e.code = .queueOverflow ∨
              e.code = .outDestUndefined ∨
              (e.code = .storageRwConflict ∧ s.par.rwForbidden = true) ∨
              e.code = .creditOwedOverflow)) := fun h hc =>
      ⟨_, runOp_of_raise hf h, .inr ⟨_, rfl, rfl, hc⟩⟩
    cases tick_error (hs.1 hf) ht with
    | credit => exact hraised ht (by simp)
    | badVc => exact hraised ht (by simp)
    | full => exact hraised ht (by simp)
    | noMask => exact hraised ht (by simp)
    | storage _ _ _ _ _ hrw => exact hraised ht (by simp [hrw])
    | owed => exact hraised ht (by simp)

/-! ### Which fault is reported -/

/-- Settles O44: CREDIT.RX is the first phase, and the named pair the first that stops it. -/
theorem creditOverflowIsReportedFirst : Obligations.CreditOverflowIsReportedFirst := by
  intro s k v a hf hk hv ha hover hlow
  refine exec_tick_raised hf (tick_error_at (n := 0) rfl rfl
    (creditRx_raises (s := beginTick s) hk hv ha hover fun k' hk' v' hv' hkv a' ha' => ?_))
  have hfit := hlow k' hk' v' hv' hkv
  rw [beginTick_env] at ha'
  simpa [amountAt, ha'] using hfit

/-- With no overflowing credit the first port whose flit cannot be queued stops the tick. -/
theorem tick_error_of_ingress {s : State} {p : Nat} {e : Stop} (hr : RouterOk s.par s.r)
    (hp : p < s.par.N)
    (hca : ∀ k < s.par.N, ∀ v < s.par.V, s.r.caAt k v + amountAt s.env k v ≤ s.par.B)
    (hlow : ∀ p' < p, ∀ f', s.env.flitAt p' = some f' →
      f'.vc < s.par.V ∧ (s.r.qAt p' f'.vc).length < s.par.B)
    (h : ingressRxStop s p = some e) : tick s = .error e := by
  obtain ⟨s1, h1⟩ := exists_creditRx_ok (s := beginTick s) fun k hk v hv =>
    (creditRxStop_eq_none (hr.caBound k hk v hv)).2 (hca k hk v hv)
  obtain ⟨-, -, hr1, -, henv1, -, hpar1, -⟩ := creditRx_ok h1
  have hstop : ingressRxStop s1 = ingressRxStop s := by
    funext p
    simp only [ingressRxStop, queueFull, Router.qAt, Env.flitAt, hpar1, beginTick_par,
      show s1.env.inFlit = s.env.inFlit by rw [henv1]; rfl, show s1.r.q = s.r.q by rw [hr1]; rfl] <;> rfl
  have hrun : runPhases (phases.take 1) (beginTick s) = .ok s1 := by
    simp [phases, runPhases, h1]
  refine tick_error_at (n := 1) hrun rfl (unlessStop_error.2 (firstOf_eq_some ?_ (hstop ▸ h)
    fun p' hp' => hstop ▸ ingressRxStop_eq_none.2 (hlow p' hp')))
  rw [hpar1]
  exact hp

/-- Settles O56: the phase of each clause is the first that stops, at the first port or input. -/
theorem tickReportsTheFirstFault : Obligations.TickReportsTheFirstFault := by
  intro s _ hs hf
  refine ⟨fun p f hp hflit hca hlow => ⟨fun hvc => ?_, fun hvc hfull => ?_⟩,
    fun u p v f hu hp hv hseen hc hd hlow => ?_,
    fun u i v hu hi hfull hv hlow => ?_⟩
  · exact exec_tick_raised hf
      (tick_error_of_ingress (hs.1 hf) hp hca hlow (ingressRxStop_of_badVc hflit hvc))
  · exact exec_tick_raised hf
      (tick_error_of_ingress (hs.1 hf) hp hca hlow (ingressRxStop_of_full hflit hvc hfull.ge))
  · have hpar : u.par = s.par := (runPhases_keeps_setup (List.take_subset ..) hu).1
    have hstop : routeStop u p = some (.raise .outDestUndefined (p * s.par.V + v)) :=
      routeStop_eq_some.2 ⟨v, f, hv, hseen, hc, hd, by rw [pairIndex, hpar]⟩
    refine exec_tick_raised hf (tick_error_at (n := 4) hu rfl (unlessStop_error.2
      (firstOf_eq_some (hpar.symm ▸ hp) hstop fun p' hp' => ?_)))
    refine Option.eq_none_iff_forall_ne_some.2 fun e he => ?_
    obtain ⟨v', f', hv', hf', hc', hd', -⟩ := routeStop_eq_some.1 he
    exact hlow p' hp' v' f' hv' hf' hc' hd'
  · have hg := atGrants hu
    obtain ⟨w, f, -, hw, hseen, hhead⟩ := hg.granted_flit hi hfull
    obtain rfl : v = w := Option.some.inj (hv.symm.trans hw)
    have hq : u.r.qAt i v ≠ [] := fun hnil => by rw [hnil] at hhead; cases hhead
    have hbelow : ∀ j < i, commitStop u j = none := fun j hj => by
      cases hj' : u.tv.fullAt j with
      | false => exact commitStop_of_not_full hj'
      | true =>
        obtain ⟨v', f', -, hv', hf', hhead'⟩ := hg.granted_flit (hj.trans hi) hj'
        obtain ⟨hco, hrw⟩ := hlow j hj v' hj' hv'
        have hq' : u.r.qAt j v' ≠ [] := fun hnil => by rw [hnil] at hhead'; cases hhead'
        exact (commitStop_eq_none hj').2 ⟨v', f', hv', hf', hg.par.symm ▸ hrw, hq',
          hg.par.symm ▸ hco⟩
    have hi' : i < u.par.N := hg.par.symm ▸ hi
    have hpair : i * s.par.V + v = pairIndex u.par i v := by rw [pairIndex, hg.par]
    rw [hpair]
    refine ⟨fun hrw hpushed => ?_, fun hrw hover => ?_⟩
    · exact exec_tick_raised hf (tick_error_at hu rfl (grantCommit_error hi'
        (commitStop_storage hfull hv hseen (hg.par.symm ▸ hrw) hpushed) hbelow))
    · exact exec_tick_raised hf (tick_error_at hu rfl (grantCommit_error hi'
        (commitStop_owed hfull hv hseen hq (hg.par.symm ▸ hrw) (hg.par.symm ▸ hover)) hbelow))

/-! ### Obedient peers -/

/-- Under obedient peers no cause of a fault arises. -/
theorem no_stop_of_obedient_peers {s : State} {held due : Nat → Nat → Nat}
    (hrw : s.par.rwForbidden = false) (hup : UpstreamMirror s held) (hdown : DownstreamMirror s due)
    (hfronts : FrontsOk s) (hsend : SendersObey s held) (hfirst : FirstIsHeader s)
    (hrecv : ReceiversHonest s due) (e : Stop) : ¬TickStop s e := by
  intro h
  cases h with
  | credit k v hk hv hover =>
    have := hdown k hk v hv
    have := hrecv k hk v hv
    omega
  | badVc p f hp hf hvc =>
    have := (hsend p hp f hf).1
    omega
  | full p f hp hf hv hfull =>
    have := (hsend p hp f hf).2
    have := hup p hp f.vc hv
    omega
  | noMask p v f hp hv hhead hc hd =>
    have hh : isHeader f = true := by
      rw [List.head?_append] at hhead
      rcases Option.or_eq_some_iff.1 hhead with hold | ⟨hnil, hnew⟩
      · exact hfronts p hp v hv hd f hold
      · rw [Option.head?_toList] at hnew
        obtain ⟨hoffer, rfl⟩ := arrival_eq_some.1 hnew
        exact hfirst p hp f hoffer (List.head?_eq_none_iff.1 hnil) hd
    rw [isContinuation, hh] at hc
    cases hc
  | storage i v _ _ _ hforbid => rw [hrw] at hforbid; cases hforbid
  | owed i v hi hv hq hover =>
    have hmirror := hup i hi v hv
    cases ha : arrival s i v with
    | none =>
      have : (s.r.qAt i v).length ≠ 0 := fun h0 => hq (by rw [ha, List.length_eq_zero_iff.1 h0]; rfl)
      omega
    | some f =>
      obtain ⟨hoffer, rfl⟩ := arrival_eq_some.1 ha
      have := (hsend i hi f hoffer).2
      omega

/-- The fronts of the queues with no stored mask stay headers: such a queue was not popped. -/
theorem frontsOk_after_tick {s u t : State} {o : Out} (hg : AtGrants s u) (hfin : Finished u t o)
    (hfronts : FrontsOk s) (hfirst : FirstIsHeader s) : FrontsOk t := by
  have hpar : t.par = s.par := hfin.par.trans hg.par
  unfold FrontsOk
  rw [hpar]
  intro p hp v hv hd f hf
  rw [hfin.outDestAt] at hd
  have hvc : u.tv.vcAt p ≠ some v := fun hvc => by
    obtain ⟨-, -, g, hseen, -⟩ := hg.chosen p v hvc
    rw [hg.stores_mask hvc hseen] at hd
    cases hd
  have hstay : commits u p v = false := Bool.eq_false_iff.2 fun hc => hvc (commits_iff.1 hc).2
  rw [(hg.stored p hp v hv hvc).1] at hd
  rw [queue_after_tick hg hfin hp hv, hstay, if_neg Bool.false_ne_true, List.head?_append] at hf
  rcases Option.or_eq_some_iff.1 hf with hold | ⟨hnil, hnew⟩
  · exact hfronts p hp v hv hd f hold
  · rw [Option.head?_toList] at hnew
    obtain ⟨hoffer, rfl⟩ := arrival_eq_some.1 hnew
    exact hfirst p hp f hoffer (List.head?_eq_none_iff.1 hnil) hd

/-- Settles O47: no cause of a fault arises, and the mirrors move by the two balances of R157. -/
theorem obedientPeersNeverFault : Obligations.ObedientPeersNeverFault := by
  intro s held due _ hrw hs hf hup hdown hfronts hsend hfirst hrecv
  obtain ⟨t, ht, hnf⟩ := exec_tick_of_no_stop hf (hs.1 hf)
    (no_stop_of_obedient_peers hrw hup hdown hfronts hsend hfirst hrecv)
  obtain ⟨u, o, -, hg, hfin⟩ := exec_tick_cut ht hnf
  have hpar : t.par = s.par := hfin.par.trans hg.par
  refine ⟨t, o, ht, hnf, hfin.out, ?_, ?_, frontsOk_after_tick hg hfin hfronts hfirst⟩
  · unfold UpstreamMirror
    rw [hpar]
    intro p hp v hv
    have hbalance := ingress_balance hg hfin hp hv
    have hmirror := hup p hp v hv
    have harrived : (arrival s p v).toList.length ≤ held p v := by
      cases ha : arrival s p v with
      | none => exact Nat.zero_le _
      | some f =>
        obtain ⟨hoffer, rfl⟩ := arrival_eq_some.1 ha
        exact (hsend p hp f hoffer).2
    beta_reduce
    rw [← length_arrival]
    omega
  · unfold DownstreamMirror
    rw [hpar]
    intro k hk v hv
    have hbalance := egress_balance (hs.1 hf) hg hfin hk hv
    have hmirror := hdown k hk v hv
    have := hrecv k hk v hv
    beta_reduce
    omega

/-! ### The idle router -/

/-- VC.SELECT leaves the pointer of a port it finds no VC for (R101). -/
theorem arbVcAt_of_no_vc {s t : State} (h : vcSelect s = .ok t) {p : Nat} (hp : p < s.par.N)
    (hv : t.tv.vcAt p = none) : t.r.arbVcAt p = s.r.arbVcAt p := by
  obtain ⟨hpick, -⟩ := vcSelect_ok h
  obtain ⟨hvc, hptr⟩ := hpick p hp
  rw [hptr, pickPtr_of_none (hvc.symm.trans hv)]

/-- OUT.ARB leaves the pointer of an output nobody requests (R101). -/
theorem arbOutAt_of_no_request {s s6 s7 t : State} (h6 : reqBuild s = .ok s6)
    (h7 : mcastWithdraw s6 = .ok s7) (h8 : outArb s7 = .ok t) {k : Nat} (hk : k < s.par.N)
    (hno : ∀ i < s.par.N, request s i k = false) : t.r.arbOutAt k = s.r.arbOutAt k := by
  obtain ⟨hreq, -, ⟨hpar6, -⟩, hr6, -⟩ := reqBuild_ok h6
  obtain ⟨-, hreq2, -, ⟨hpar7, -⟩, hr7, -⟩ := mcastWithdraw_ok h7
  obtain ⟨hout, -⟩ := outArb_ok h8
  rw [hpar6] at hreq2
  rw [hpar7, hpar6] at hout
  have hbit : ∀ i, (column s7 k).testBit i = false := fun i => by
    rw [column_testBit, hpar7, hpar6]
    by_cases hi : i < s.par.N
    · rw [hreq2 i hi k hk, hreq i hi k hk, hno i hi, Bool.false_and, Bool.and_false]
    · rw [decide_eq_false hi, Bool.false_and]
  rw [(hout k hk).2, pickPtr_of_none (pick_eq_none.2 fun d _ => hbit _), hr7, hr6]

/-- A tick in which no port has a VC moves no arbiter's pointer. -/
theorem idle_pointers {s u : State} (h : runPhases (phases.take 10) (beginTick s) = .ok u)
    (hidle : ∀ p, u.tv.vcAt p = none) {p : Nat} (hp : p < s.par.N) :
    u.r.arbVcAt p = s.r.arbVcAt p ∧ u.r.arbOutAt p = s.r.arbOutAt p := by
  obtain ⟨s1, s2, s3, s4, s5, s6, s7, s8, s9, h1, h2, h3, h4, h5, h6, h7, h8, h9, h10⟩ :=
    phases_until_grants_ok h
  have harb : Arbitrated s5 u := arbitrated_of_phases h6 h7 h8 h9 h10
  obtain ⟨-, -, hr1, -, -, -, hpar1, -⟩ := creditRx_ok h1
  obtain ⟨-, -, -, hr2, -, -, -, hpar2, -⟩ := ingressRx_ok h2
  obtain ⟨-, -, hr3, -, -, -, hpar3, -⟩ := vcSelect_ok h3
  obtain ⟨-, -, -, htv4, ⟨hpar4, -⟩, hr4, -⟩ := peek_ok h4
  obtain ⟨-, -, -, -, hr5, -, -, htv5, -, hpar5, -⟩ := routeAll_ok h5
  obtain ⟨-, -, -, -, hr9, -⟩ := mcastForce_ok h9
  obtain ⟨-, -, -, hr10, -⟩ := grantFinal_ok h10
  have hp2 : p < s2.par.N := by rw [hpar2, hpar1]; exact hp
  have hp5 : p < s5.par.N := by rw [hpar5, hpar4, hpar3]; exact hp2
  have hvc5 : ∀ i, s5.tv.vcAt i = none := fun i => by rw [← hidle i, harb.tick]; rfl
  have hvc3 : s3.tv.vcAt p = none := by rw [← hvc5 p, htv5, htv4]; rfl
  constructor
  · calc u.r.arbVcAt p = s3.r.arbVcAt p := by rw [harb.router, hr5, hr4]; rfl
      _ = s2.r.arbVcAt p := arbVcAt_of_no_vc h3 hp2 hvc3
      _ = s.r.arbVcAt p := by rw [hr2, hr1]; rfl
  · have hno : ∀ i < s5.par.N, request s5 i p = false := fun i _ =>
      Bool.eq_false_iff.2 fun hreq => by
        obtain ⟨v, f, hv, -⟩ := request_iff.1 hreq
        rw [hvc5 i] at hv
        cases hv
    calc u.r.arbOutAt p = s8.r.arbOutAt p := by rw [hr10, hr9]
      _ = s5.r.arbOutAt p := arbOutAt_of_no_request h6 h7 h8 hp5 hno
      _ = s.r.arbOutAt p := by rw [hr5, hr4, hr3, hr2, hr1]; rfl

/-- Two routers with the same entries in every array, the same configuration and the same fault record
are the same. -/
theorem router_ext {par : Params} {r r' : Router} (h : RouterOk par r) (h' : RouterOk par r')
    (hpair : ∀ p < par.N, ∀ v < par.V, r.qAt p v = r'.qAt p v ∧ r.caAt p v = r'.caAt p v ∧
      r.coAt p v = r'.coAt p v ∧ r.outDestAt p v = r'.outDestAt p v ∧
      r.isLocalAt p v = r'.isLocalAt p v ∧ r.igpAt p v = r'.igpAt p v)
    (hport : ∀ p < par.N, r.arbOutAt p = r'.arbOutAt p ∧ r.arbVcAt p = r'.arbVcAt p ∧
      r.eqAt p = r'.eqAt p) (hcfg : r.cfg = r'.cfg) (hfault : r.fault = r'.fault) : r = r' := by
  have hq := grid_ext h.qShape h'.qShape fun p hp v hv => (hpair p hp v hv).1
  have hca := grid_ext h.caShape h'.caShape fun p hp v hv => (hpair p hp v hv).2.1
  have hco := grid_ext h.coShape h'.coShape fun p hp v hv => (hpair p hp v hv).2.2.1
  have hd := grid_ext h.outDestShape h'.outDestShape fun p hp v hv => (hpair p hp v hv).2.2.2.1
  have hl := grid_ext h.isLocalShape h'.isLocalShape fun p hp v hv => (hpair p hp v hv).2.2.2.2.1
  have hi := grid_ext h.igpShape h'.igpShape fun p hp v hv => (hpair p hp v hv).2.2.2.2.2
  have ho := list_ext_entry h.arbOutShape h'.arbOutShape fun p hp => (hport p hp).1
  have hv := list_ext_entry h.arbVcShape h'.arbVcShape fun p hp => (hport p hp).2.1
  have he := list_ext_entry h.eqShape h'.eqShape fun p hp => (hport p hp).2.2
  cases r
  cases r'
  simp_all

/-- Nothing queued, staged, owed or offered (70_reset_and_hazards.md R232). -/
structure Idle (s : State) : Prop where
  queue : ∀ p < s.par.N, ∀ v < s.par.V, s.r.qAt p v = []
  owed : ∀ p < s.par.N, ∀ v < s.par.V, s.r.coAt p v = 0
  staged : ∀ k < s.par.N, s.r.eqAt k = []
  flit : ∀ p < s.par.N, s.env.flitAt p = none
  credit : ∀ k < s.par.N, ∀ v < s.par.V, s.env.creditAt k v = none

theorem Idle.arrival_eq_none {s : State} (h : Idle s) {p : Nat} (hp : p < s.par.N) (v : Nat) :
    arrival s p v = none := by
  rw [arrival, h.flit p hp]

theorem Idle.amountAt_eq_zero {s : State} (h : Idle s) {k v : Nat} (hk : k < s.par.N)
    (hv : v < s.par.V) : amountAt s.env k v = 0 := by
  rw [amountAt, h.credit k hk v hv]

theorem Idle.queue_with_arrival {s : State} (h : Idle s) {p v : Nat} (hp : p < s.par.N)
    (hv : v < s.par.V) : s.r.qAt p v ++ (arrival s p v).toList = [] := by
  rw [h.queue p hp v hv, h.arrival_eq_none hp]
  rfl

theorem Idle.no_stop {s : State} (h : Idle s) (hr : RouterOk s.par s.r) (e : Stop) : ¬TickStop s e := by
  intro hstop
  cases hstop with
  | credit k v hk hv hover =>
    have := hr.caBound k hk v hv
    have := h.amountAt_eq_zero hk hv
    omega
  | badVc p f hp hf => rw [h.flit p hp] at hf; cases hf
  | full p f hp hf => rw [h.flit p hp] at hf; cases hf
  | noMask p v f hp hv hf => rw [h.queue_with_arrival hp hv] at hf; cases hf
  | storage i v hi hv hq => exact hq (h.queue_with_arrival hi hv)
  | owed i v hi hv hq => exact hq (h.queue_with_arrival hi hv)

/-- In an idle router no port has a VC when the grants are made. -/
theorem Idle.vcAt_eq_none {s u : State} (h : Idle s) (hg : AtGrants s u) (p : Nat) :
    u.tv.vcAt p = none := by
  refine Option.eq_none_iff_forall_ne_some.2 fun v hv => ?_
  obtain ⟨hp, hvV, f, -, hhead⟩ := hg.chosen p v hv
  rw [hg.queue p hp v hvV, h.queue_with_arrival hp hvV] at hhead
  cases hhead

section IdleTick

variable {s u t : State} {o : Out} (h : Idle s) (hg : AtGrants s u)
include h hg

theorem Idle.commitsTo_eq_false (i k v : Nat) : commitsTo u i k v = false :=
  Bool.eq_false_iff.2 fun hc => by
    obtain ⟨-, hv, -⟩ := commitsTo_iff.1 hc
    rw [h.vcAt_eq_none hg i] at hv
    cases hv

theorem Idle.owedAt_eq_zero {p v : Nat} (hp : p < s.par.N) (hv : v < s.par.V) : owedAt u p v = 0 := by
  rw [owedAt, hg.co, h.owed p hp v hv, commits_of_no_vc (h.vcAt_eq_none hg p)]
  rfl

theorem Idle.stagedAt_eq_nil {k : Nat} (hk : k < s.par.N) : stagedAt u k = [] := by
  have hnone : ∀ i < u.par.N, u.tv.grantAt i k = false := fun i hi => by
    rw [hg.par] at hi
    refine Bool.eq_false_iff.2 fun hgrant => ?_
    obtain ⟨-, v, hv⟩ := hg.full i hi (hg.fullAt_of_grantAt hi hk hgrant).1
    rw [h.vcAt_eq_none hg i] at hv
    cases hv
  rw [stagedAt, hg.eq, h.staged k hk, xbarFlit_of_none (grantedInput_eq_none.2 hnone)]
  rfl

variable (hfin : Finished u t o)
include hfin

/-- No queue, counter, mask or flag of an idle router moves in a tick. -/
theorem Idle.pair_after_tick {p v : Nat} (hp : p < s.par.N) (hv : v < s.par.V) :
    t.r.qAt p v = s.r.qAt p v ∧ t.r.caAt p v = s.r.caAt p v ∧ t.r.coAt p v = s.r.coAt p v ∧
      t.r.outDestAt p v = s.r.outDestAt p v ∧ t.r.isLocalAt p v = s.r.isLocalAt p v ∧
      t.r.igpAt p v = s.r.igpAt p v := by
  have hp' : p < u.par.N := hg.par ▸ hp
  have hv' : v < u.par.V := hg.par ▸ hv
  have hno : ∀ i < u.par.N, commitsTo u i p v = false := fun i _ => h.commitsTo_eq_false hg i p v
  have hvc : u.tv.vcAt p ≠ some v := by simp [h.vcAt_eq_none hg p]
  obtain ⟨hdest, hloc⟩ := hg.stored p hp v hv hvc
  refine ⟨?_, ?_, ?_, by rw [hfin.outDestAt, hdest], by rw [hfin.router, ← hloc]; rfl, ?_⟩
  · rw [queue_after_tick hg hfin hp hv, commits_of_no_vc (h.vcAt_eq_none hg p),
      if_neg Bool.false_ne_true, h.queue_with_arrival hp hv, h.queue p hp v hv]
  · rw [(hfin.charged p hp' v hv').2, (moved_eq_zero hno).1, hg.ca p hp v hv,
      h.amountAt_eq_zero hp hv]
    rfl
  · rw [hfin.owed p hp' v hv', h.owedAt_eq_zero hg hp hv, Nat.zero_sub, h.owed p hp v hv]
  · rw [hfin.flag p hp' v hv', igpAfter_of_none hno, hg.igp]

theorem Idle.port_after_tick (hu : runPhases (phases.take 10) (beginTick s) = .ok u) {p : Nat}
    (hp : p < s.par.N) : t.r.arbOutAt p = s.r.arbOutAt p ∧ t.r.arbVcAt p = s.r.arbVcAt p ∧
      t.r.eqAt p = s.r.eqAt p := by
  obtain ⟨hvc, hout⟩ := idle_pointers hu (h.vcAt_eq_none hg) hp
  refine ⟨by rw [hfin.router, ← hout]; rfl, by rw [hfin.router, ← hvc]; rfl, ?_⟩
  rw [hfin.staged p (hg.par ▸ hp), h.stagedAt_eq_nil hg hp, h.staged p hp, List.tail_nil, ite_self]

end IdleTick

/-- Settles O51: no port has a VC, so nothing is popped, charged, staged or offered. -/
theorem idleRouterIsAFixedPoint : Obligations.IdleRouterIsAFixedPoint := by
  intro s hok hs hf hq heq hflit hcredit
  have hidle : Idle s := ⟨fun p hp v hv => (hq p hp v hv).1, fun p hp v hv => (hq p hp v hv).2, heq,
    hflit, hcredit⟩
  obtain ⟨t, ht, hnf⟩ := exec_tick_of_no_stop hf (hs.1 hf) (hidle.no_stop (hs.1 hf))
  have htick := tick_ok_of_no_fault ht hnf
  obtain ⟨hpar, hcfg, hfault⟩ := tick_keeps_setup htick
  obtain ⟨u, o, hu, hg, hfin⟩ := exec_tick_cut ht hnf
  have hrouter : RouterOk s.par t.r := hpar ▸ (tick_bounds (hs.bounded hok hf) htick).router
  refine ⟨t, o, ht, router_ext hrouter (hs.1 hf) (fun p hp v hv => ?_) (fun p hp => ?_) hcfg hfault,
    hfin.out, fun k hk => ?_, fun p hp v hv => ?_⟩
  · exact hidle.pair_after_tick hg hfin hp hv
  · exact hidle.port_after_tick hg hfin hu hp
  · rw [hfin.front k (hg.par ▸ hk), hidle.stagedAt_eq_nil hg hk, List.head?_nil]
  · rw [hfin.offered p (hg.par ▸ hp) v (hg.par ▸ hv), hidle.owedAt_eq_zero hg hp hv]
    rfl

end Sys2Proof.Machine
end

section
/-! A tick as the operations of its phases run one by one (46_router_tick.md R190). Phase P5 is the one
that is not an operation: there the four route operations are offered to the ports in turn, and
`routeUpTo` is the state when the first ports have had theirs. -/

namespace Sys2Proof.Machine

/-! ### Operations one by one -/

/-- A run of operations that ends without a fault never had one: an operation on a faulted router does
not answer a next state (R209). -/
theorem not_faulted_of_execAll {l : List Instr} {ops : List (State → Res)}
    (hl : List.Forall₂ (fun i op => operation i = some op) l ops) {s u : State}
    (h : execAll l s = .next u) (hu : u.r.fault = none) : s.r.fault = none := by
  cases hl with
  | nil => cases h; exact hu
  | cons hop _ =>
    simp only [execAll, exec_eq_runChecked hop] at h
    split at h
    · next t ht => exact (runOp_next (runChecked_next ht).2).1
    · cases h
    · cases h

/-- So a run of operations that ends without a fault is the operations in order, as in a tick. -/
theorem runPhases_of_execAll {l : List Instr} {ops : List (State → Res)}
    (hl : List.Forall₂ (fun i op => operation i = some op) l ops) {s u : State}
    (h : execAll l s = .next u) (hu : u.r.fault = none) : runPhases ops s = .ok u := by
  induction hl generalizing s with
  | nil => cases h; rfl
  | cons hop hrest ih =>
    simp only [execAll, exec_eq_runChecked hop] at h
    split at h
    · next t ht =>
      have htf := not_faulted_of_execAll hrest h hu
      obtain ⟨-, hok | ⟨c, n, -, rfl⟩⟩ := runOp_next (runChecked_next ht).2
      · simp only [runPhases, hok]
        exact ih h
      · cases htf
    · cases h
    · cases h

theorem runPhases_append_ok {l m : List (State → Res)} {s t : State}
    (h : runPhases (l ++ m) s = .ok t) : ∃ u, runPhases l s = .ok u ∧ runPhases m u = .ok t := by
  rw [runPhases_append] at h
  cases hl : runPhases l s with
  | ok u => rw [hl] at h; exact ⟨u, rfl, h⟩
  | error e => rw [hl] at h; cases h

/-! ### The four route operations of one port -/

/-- The route operations in the order a port is offered them. -/
def routeOps : List RouteOp := [.sr, .ucast, .mcast, .hold]

/-- A port's route operations, one by one. -/
def routePorts (p : Nat) (ops : List RouteOp) : List (State → Res) := ops.map fun op => routePort op p

theorem runPhases_unselected {s : State} {p v : Nat} {f : Flit} {ops : List RouteOp}
    (hpeek : peeked s p = some (v, f)) (hno : keyOp (routeKey s.par f) ∉ ops) :
    runPhases (routePorts p ops) s = .ok s := by
  induction ops with
  | nil => rfl
  | cons op ops ih =>
    obtain ⟨hne, hrest⟩ := not_or.1 (mt List.mem_cons.2 hno)
    simp only [routePorts, List.map_cons, runPhases, routePort_of_unselected hpeek hne]
    exact ih hrest

/-- The operation of the key acts, the others do not. -/
theorem runPhases_selected {s t : State} {p v : Nat} {f : Flit}
    (hpeek : peeked s p = some (v, f)) (h : runPhases (routePorts p routeOps) s = .ok t) :
    ∃ x, routed s (keyOp (routeKey s.par f)) p v f = .ok x ∧ t = s.writeRouted p v x := by
  have hsplit : ∃ before after, routeOps = before ++ keyOp (routeKey s.par f) :: after ∧
      keyOp (routeKey s.par f) ∉ before ∧ keyOp (routeKey s.par f) ∉ after := by
    cases keyOp (routeKey s.par f) with
    | sr => exact ⟨[], [.ucast, .mcast, .hold], rfl, by decide, by decide⟩
    | ucast => exact ⟨[.sr], [.mcast, .hold], rfl, by decide, by decide⟩
    | mcast => exact ⟨[.sr, .ucast], [.hold], rfl, by decide, by decide⟩
    | hold => exact ⟨[.sr, .ucast, .mcast], [], rfl, by decide, by decide⟩
  obtain ⟨before, after, hops, hbefore, hafter⟩ := hsplit
  rw [hops, routePorts, List.map_append, List.map_cons] at h
  obtain ⟨s', hs', h⟩ := runPhases_append_ok h
  obtain rfl : s = s' := by
    simpa [runPhases_unselected hpeek hbefore, routePorts] using
      (runPhases_unselected hpeek hbefore).symm.trans hs'
  obtain ⟨w, hw, h⟩ := runPhases_cons_ok h
  cases hx : routed s (keyOp (routeKey s.par f)) p v f with
  | error e => rw [routePort_of_stop hpeek rfl hx] at hw; cases hw
  | ok x =>
    rw [routePort_of_selected hpeek rfl hx] at hw
    cases hw
    refine ⟨x, rfl, ?_⟩
    have hpeek' : peeked (s.writeRouted p v x) p = some (v, f) := hpeek
    have hrest := runPhases_unselected hpeek' hafter
    exact (Except.ok.inj (hrest.symm.trans h)).symm

/-- On a port with no valid flit each of the four clears the mask, once and for all. -/
theorem runPhases_no_flit {s t : State} {p : Nat} (hpeek : peeked s p = none)
    (h : runPhases (routePorts p routeOps) s = .ok t) :
    t = s.withTv { s.tv with dm := s.tv.dm.set p 0, fr := s.tv.fr.set p none } := by
  have hpeek' : peeked (s.withTv { s.tv with dm := s.tv.dm.set p 0, fr := s.tv.fr.set p none }) p =
      none := hpeek
  have hagain : ∀ op, routePort op p
      (s.withTv { s.tv with dm := s.tv.dm.set p 0, fr := s.tv.fr.set p none }) =
        .ok (s.withTv { s.tv with dm := s.tv.dm.set p 0, fr := s.tv.fr.set p none }) := fun op => by
    rw [routePort_of_no_flit op hpeek']
    simp [State.withTv]
  simp only [routePorts, routeOps, List.map_cons, List.map_nil, runPhases,
    routePort_of_no_flit _ hpeek, hagain] at h
  exact (Except.ok.inj h).symm

/-! ### Phase P5, port by port -/

/-- The masks of a state array when the ports below `m` have had their route operations. -/
def masksUpTo (a : State) (w : Routed → Option Mask) (old : Nat → Nat → Option Mask) (m : Nat) :
    Grid (Option Mask) :=
  tab2 a.par.N a.par.V fun p v =>
    if p < m then afterWrite (portResult a p) w v (old p v) else old p v

/-- The state when the ports below `m` have had their route operations. -/
def routeUpTo (a : State) (m : Nat) : State :=
  (a.withRouter { a.r with
      outDest := masksUpTo a Routed.dest a.r.outDestAt m
      isLocal := masksUpTo a Routed.loc a.r.isLocalAt m }).withTv
    { a.tv with
      dm := tab a.par.N fun p =>
        if p < m then ((portResult a p).map fun x => x.2.dm).getD 0 else a.tv.dmAt p
      fr := tab a.par.N fun p =>
        if p < m then (portResult a p).map fun x => x.2.fr else a.tv.frAt p }

theorem cell_masksUpTo {a : State} (w : Routed → Option Mask) (old : Nat → Nat → Option Mask)
    (m : Nat) {p v : Nat} (hp : p < a.par.N) (hv : v < a.par.V) :
    cell none (masksUpTo a w old m) p v =
      if p < m then afterWrite (portResult a p) w v (old p v) else old p v :=
  cell_tab2_of_lt _ _ hp hv

theorem masksUpTo_zero {a : State} {w : Routed → Option Mask} {g : Grid (Option Mask)}
    (h : Shaped g a.par.N a.par.V) : masksUpTo a w (cell none g) 0 = g :=
  grid_ext (d := none) (shaped_tab2 ..) h fun _ hp _ hv => cell_masksUpTo _ _ 0 hp hv

theorem tab_entry_self {α : Type} {d : α} {l : List α} {n : Nat} (h : l.length = n) :
    tab n (entry d l) = l :=
  list_ext_entry (d := d) (length_tab ..) h fun _ hi => entry_tab_of_lt _ d hi

theorem routeUpTo_zero {a : State} (hb : Bounded a) : routeUpTo a 0 = a := by
  have hd : masksUpTo a Routed.dest a.r.outDestAt 0 = a.r.outDest :=
    masksUpTo_zero hb.router.outDestShape
  have hl : masksUpTo a Routed.loc a.r.isLocalAt 0 = a.r.isLocal :=
    masksUpTo_zero hb.router.isLocalShape
  have hdm : tab a.par.N a.tv.dmAt = a.tv.dm := tab_entry_self hb.tick.dmShape
  have hfr : tab a.par.N a.tv.frAt = a.tv.fr := tab_entry_self hb.tick.frShape
  simp only [routeUpTo, Nat.not_lt_zero, if_false, hd, hl]
  rw [hdm, hfr]
  rfl

theorem tab_congr {α : Type} {n : Nat} {f g : Nat → α} (h : ∀ i < n, f i = g i) :
    tab n f = tab n g :=
  List.map_congr_left fun i hi => h i (List.mem_range.1 hi)

theorem tab2_congr {α : Type} {n m : Nat} {f g : Nat → Nat → α}
    (h : ∀ i < n, ∀ j < m, f i j = g i j) : tab2 n m f = tab2 n m g :=
  tab_congr fun i hi => tab_congr fun j hj => h i hi j hj

/-- When every port has had its route operations, P5 is done. -/
theorem routeAll_eq_routeUpTo {a : State} (h : ∀ p < a.par.N, routeStop a p = none) :
    routeAll a = .ok (routeUpTo a a.par.N) := by
  refine unlessStop_ok.2 ⟨firstOf_eq_none.2 h, ?_⟩
  have hmasks : ∀ (w : Routed → Option Mask) old, masksUpTo a w old a.par.N =
      tab2 a.par.N a.par.V fun p v => afterWrite (portResult a p) w v (old p v) := fun w old =>
    tab2_congr fun p hp v _ => if_pos hp
  have hdm : (tab a.par.N fun p => if p < a.par.N then
      ((portResult a p).map fun x => x.2.dm).getD 0 else a.tv.dmAt p) =
        tab a.par.N fun p => ((portResult a p).map fun x => x.2.dm).getD 0 :=
    tab_congr fun p hp => if_pos hp
  have hfr : (tab a.par.N fun p => if p < a.par.N then
      (portResult a p).map fun x => x.2.fr else a.tv.frAt p) =
        tab a.par.N fun p => (portResult a p).map fun x => x.2.fr :=
    tab_congr fun p hp => if_pos hp
  rw [routeUpTo, hmasks, hmasks, hdm, hfr]

/-- The next port finds the flit it peeked, and the mask of its own queue. -/
theorem routed_routeUpTo {a : State} {m v : Nat} (hm : m < a.par.N) (hv : v < a.par.V) (op : RouteOp)
    (f : Flit) : routed (routeUpTo a m) op m v f = routed a op m v f := by
  have hmask : (routeUpTo a m).r.outDestAt m v = a.r.outDestAt m v :=
    (cell_masksUpTo _ _ m hm hv).trans (if_neg (lt_irrefl m))
  cases op with
  | hold => simp only [routed, hmask]; rfl
  | _ => rfl

theorem tab_set {α : Type} {n m : Nat} {f g : Nat → α} {y : α} (hm : m < n) (hy : g m = y)
    (h : ∀ i, i ≠ m → f i = g i) : (tab n f).set m y = tab n g := by
  refine list_ext_entry (d := y) (by simp) (length_tab ..) fun i hi => ?_
  rw [entry_set, length_tab, entry_tab_of_lt _ _ hi, entry_tab_of_lt _ _ hi]
  by_cases hi' : m = i
  · rw [if_pos ⟨hi', hm⟩, ← hy, hi']
  · rw [if_neg (fun hc => hi' hc.1), h i (Ne.symm hi')]

/-- A mask written to the entry of a queue, if there is one to write. -/
def putMask (g : Grid (Option Mask)) (p v : Nat) : Option Mask → Grid (Option Mask)
  | some y => setCell g p v (some y)
  | none => g

theorem writeRouted_eq (s : State) (p v : Nat) (x : Routed) :
    s.writeRouted p v x = (s.withRouter { s.r with
        outDest := putMask s.r.outDest p v x.dest
        isLocal := putMask s.r.isLocal p v x.loc }).withTv
      { s.tv with dm := s.tv.dm.set p x.dm, fr := s.tv.fr.set p (some x.fr) } :=
  rfl

theorem shaped_putMask {g : Grid (Option Mask)} {n k p v : Nat} (h : Shaped g n k) (hp : p < n)
    (y : Option Mask) : Shaped (putMask g p v y) n k := by
  cases y with
  | none => exact h
  | some y => exact shaped_setCell h hp

theorem cell_putMask_self {g : Grid (Option Mask)} {n k p v : Nat} (h : Shaped g n k) (hp : p < n)
    (hv : v < k) (y : Option Mask) :
    cell none (putMask g p v y) p v = y.or (cell none g p v) := by
  cases y with
  | none => rfl
  | some y => exact cell_setCell_self h hp hv

theorem cell_putMask_of_ne {g : Grid (Option Mask)} {p v p' v' : Nat} (h : (p', v') ≠ (p, v))
    (y : Option Mask) : cell none (putMask g p v y) p' v' = cell none g p' v' := by
  cases y with
  | none => rfl
  | some y => exact cell_setCell_of_pair_ne h

theorem lt_succ_iff_of_ne {p m : Nat} (h : p ≠ m) : p < m + 1 ↔ p < m := by omega

theorem masksUpTo_succ_of_some {a : State} {m v : Nat} {x : Routed} (w : Routed → Option Mask)
    (old : Nat → Nat → Option Mask) (hm : m < a.par.N) (hv : v < a.par.V)
    (hres : portResult a m = some (v, x)) :
    putMask (masksUpTo a w old m) m v (w x) = masksUpTo a w old (m + 1) := by
  have hshape : Shaped (masksUpTo a w old m) a.par.N a.par.V := shaped_tab2 ..
  refine grid_ext (d := none) (shaped_putMask hshape hm _) (shaped_tab2 ..) fun p hp u hu => ?_
  by_cases hpu : (p, u) = (m, v)
  · cases hpu
    rw [cell_putMask_self hshape hm hv, cell_masksUpTo _ _ _ hm hv, cell_masksUpTo _ _ _ hm hv,
      if_neg (lt_irrefl m), if_pos m.lt_succ_self, hres, afterWrite, if_pos rfl]
  · rw [cell_putMask_of_ne hpu, cell_masksUpTo _ _ _ hp hu, cell_masksUpTo _ _ _ hp hu]
    by_cases hpm : p = m
    · have hvu : v ≠ u := fun hc => hpu (by rw [hpm, hc])
      rw [hpm, if_neg (lt_irrefl m), if_pos m.lt_succ_self, hres, afterWrite, if_neg hvu]
    · simp only [lt_succ_iff_of_ne hpm]

theorem masksUpTo_succ_of_none {a : State} {m : Nat} (w : Routed → Option Mask)
    (old : Nat → Nat → Option Mask) (hres : portResult a m = none) :
    masksUpTo a w old m = masksUpTo a w old (m + 1) := by
  refine tab2_congr fun p _ v _ => ?_
  by_cases hpm : p = m
  · rw [hpm, if_neg (lt_irrefl m), if_pos m.lt_succ_self, hres]
    rfl
  · simp only [lt_succ_iff_of_ne hpm]

theorem dmUpTo_succ {a : State} {m : Nat} (hm : m < a.par.N) :
    (routeUpTo a m).tv.dm.set m (((portResult a m).map fun x => x.2.dm).getD 0) =
      (routeUpTo a (m + 1)).tv.dm :=
  tab_set hm (if_pos m.lt_succ_self) fun i hi => by simp only [lt_succ_iff_of_ne hi]

theorem frUpTo_succ {a : State} {m : Nat} (hm : m < a.par.N) :
    (routeUpTo a m).tv.fr.set m ((portResult a m).map fun x => x.2.fr) =
      (routeUpTo a (m + 1)).tv.fr :=
  tab_set hm (if_pos m.lt_succ_self) fun i hi => by simp only [lt_succ_iff_of_ne hi]

/-- The four route operations of the next port, when they complete, are its part of P5. -/
theorem routeUpTo_succ {a t : State} {m : Nat} (hb : Bounded a) (hm : m < a.par.N)
    (h : runPhases (routePorts m routeOps) (routeUpTo a m) = .ok t) :
    routeStop a m = none ∧ t = routeUpTo a (m + 1) := by
  have hdm := dmUpTo_succ hm
  have hfr := frUpTo_succ hm
  cases hpeek : peeked a m with
  | none =>
    have hres : portResult a m = none := by simp [portResult, portRouted, hpeek]
    refine ⟨by simp [routeStop, portRouted, hpeek], ?_⟩
    rw [hres] at hdm hfr
    rw [runPhases_no_flit (s := routeUpTo a m) hpeek h]
    have hdm' : (routeUpTo a m).tv.dm.set m 0 = (routeUpTo a (m + 1)).tv.dm := hdm
    have hfr' : (routeUpTo a m).tv.fr.set m none = (routeUpTo a (m + 1)).tv.fr := hfr
    rw [hdm', hfr', routeUpTo, masksUpTo_succ_of_none _ _ hres, masksUpTo_succ_of_none _ _ hres]
    rfl
  | some y =>
    obtain ⟨v, f⟩ := y
    have hv : v < a.par.V := hb.tick.vcBound m v (peeked_eq_some.1 hpeek).1
    obtain ⟨x, hx, rfl⟩ := runPhases_selected (s := routeUpTo a m) hpeek h
    rw [routed_routeUpTo hm hv] at hx
    have hx' : routed a (keyOp (routeKey a.par f)) m v f = .ok x := hx
    have hres : portResult a m = some (v, x) := by simp [portResult, portRouted, hpeek, hx']
    refine ⟨by simp [routeStop, portRouted, hpeek, hx'], ?_⟩
    rw [hres] at hdm hfr
    have hdest : putMask (routeUpTo a m).r.outDest m v x.dest = (routeUpTo a (m + 1)).r.outDest :=
      masksUpTo_succ_of_some _ _ hm hv hres
    have hloc : putMask (routeUpTo a m).r.isLocal m v x.loc = (routeUpTo a (m + 1)).r.isLocal :=
      masksUpTo_succ_of_some _ _ hm hv hres
    have hdm' : (routeUpTo a m).tv.dm.set m x.dm = (routeUpTo a (m + 1)).tv.dm := hdm
    have hfr' : (routeUpTo a m).tv.fr.set m (some x.fr) = (routeUpTo a (m + 1)).tv.fr := hfr
    rw [writeRouted_eq, hdest, hloc, hdm', hfr']
    rfl

/-- The route operations of the ports below `m`, in the order of `tickScript`. -/
def routesBelow (m : Nat) : List (State → Res) :=
  (List.range m).flatMap fun p => routePorts p routeOps

theorem routesBelow_succ (m : Nat) : routesBelow (m + 1) = routesBelow m ++ routePorts m routeOps := by
  simp [routesBelow, List.range_succ]

theorem runPhases_routesBelow {a t : State} {m : Nat} (hb : Bounded a) (hm : m ≤ a.par.N)
    (h : runPhases (routesBelow m) a = .ok t) :
    (∀ p < m, routeStop a p = none) ∧ t = routeUpTo a m := by
  induction m generalizing t with
  | zero =>
    cases h
    exact ⟨fun p hp => absurd hp p.not_lt_zero, (routeUpTo_zero hb).symm⟩
  | succ m ih =>
    rw [routesBelow_succ] at h
    obtain ⟨b, hbelow, hport⟩ := runPhases_append_ok h
    obtain ⟨hstops, rfl⟩ := ih (Nat.le_of_succ_le hm) hbelow
    obtain ⟨hstop, rfl⟩ := routeUpTo_succ hb hm hport
    refine ⟨fun p hp => ?_, rfl⟩
    rcases Nat.lt_succ_iff_lt_or_eq.1 hp with hlt | rfl
    · exact hstops p hlt
    · exact hstop

/-- The route operations of all ports, when they complete, are phase P5. -/
theorem routeAll_of_routesBelow {a t : State} (hb : Bounded a)
    (h : runPhases (routesBelow a.par.N) a = .ok t) : routeAll a = .ok t := by
  obtain ⟨hstops, rfl⟩ := runPhases_routesBelow hb le_rfl h
  exact routeAll_eq_routeUpTo hstops

/-! ### The tick -/

/-- The operations that the instructions of `tickScript` run. -/
theorem tickScript_operations (par : Params) :
    List.Forall₂ (fun i op => operation i = some op) (tickScript par)
      (phases.take 4 ++ (routesBelow par.N ++ phases.drop 5)) := by
  have hroutes : ∀ m, List.Forall₂ (fun i op => operation i = some op)
      ((List.range m).flatMap fun p => [.routeSr p, .routeLutUcast p, .routeLutMcast p, .routeHold p])
      (routesBelow m) := fun m => by
    induction m with
    | zero => exact .nil
    | succ m ih =>
      rw [routesBelow_succ, List.range_succ, List.flatMap_append]
      refine List.rel_append ih ?_
      simp [routePorts, routeOps, operation]
  rw [tickScript, List.append_assoc]
  refine List.rel_append ?_ (List.rel_append (hroutes _) ?_) <;> simp [phases, operation]

/-- Settles O42: the operations up to P4 and from P6 are the phases themselves, and those of P5 are
`routeAll`. -/
theorem tickIsItsOperationsInOrder : Obligations.TickIsItsOperationsInOrder := by
  intro s u hok hs hf h hu
  have hrun := runPhases_of_execAll (tickScript_operations s.par) h hu
  obtain ⟨a, hpeek, hrest⟩ := runPhases_append_ok hrun
  obtain ⟨b, hroutes, hgrants⟩ := runPhases_append_ok hrest
  have hba : Bounded a :=
    runPhases_keeps_bounds (List.take_subset ..) (hs.bounded hok hf).beginTick hpeek
  have hpar : a.par = s.par := (runPhases_keeps_setup (List.take_subset ..) hpeek).1
  rw [← hpar] at hroutes
  have hphases : runPhases phases (beginTick s) = .ok u := by
    rw [show phases = phases.take 4 ++ (routeAll :: phases.drop 5) from rfl, runPhases_append]
    rw [show runPhases (phases.take 4) (beginTick s) = .ok a from hpeek]
    simp only [runPhases, routeAll_of_routesBelow hba hroutes]
    exact hgrants
  exact runOp_of_ok (op := tick) hf (by rw [tick, hphases])

end Sys2Proof.Machine
end
